-- ==== Sys2Proof/Word.lean ====
section
/-! DEFINITION. The two widths the spec has (R9): a byte and a 32-bit register, both unsigned. -/

namespace Sys2Proof

/-- An 8-bit unsigned value (R9). -/
abbrev Byte := BitVec 8

/-- A 32-bit unsigned register: `cur`, `len`, `rd`, `cnt`, `need`, `want`, `got` (R9, R23, R24, R29). -/
abbrev Word := BitVec 32

end Sys2Proof
end

