-- ==== Sys2Proof/Config.lean ====
section
/-! DEFINITION. What an implementation fixes (R6): the parameters and the constants; and the free values,
constants with no body, for what the spec leaves open (93_implementation_defined U3, U4, U13; R35). -/

namespace Sys2Proof

/-- How the centering division of R196 rounds a negative odd difference: the spec says "integer division" and
"does not assume either rounding" (N12, U15). -/
inductive Rounding where
  | towardZero
  | towardMinusInfinity
deriving DecidableEq, Repr

/-- The parameters of the model (R6, D2, D3, D9, D19, U15). R6 has them as arguments of the model; the fixed interface
has no such argument, so they stand in the state, and no step changes them (log 1). -/
structure Params where
  /-- `MAX_FRAME`: capacity of the parser's buffer and of the consumer's (R6). -/
  maxFrame : Nat
  /-- `FIFO_CAPACITY`: capacity of the ring (R6, D3: OPEN). -/
  fifoCapacity : Nat
  /-- `OVERFLOW_KEEPS_NEW` (R161, D9). -/
  overflowKeepsNew : Bool
  /-- `BLIT_INCLUDES_CRC_BYTE` (R189, D19: OPEN). -/
  blitIncludesCrcByte : Bool
  /-- The width of the display collaborator's screen (R196). -/
  screenWidth : Nat
  /-- The height of the display collaborator's screen (R196). -/
  screenHeight : Nat
  /-- The rounding of the centering division (R196, U15: OPEN). -/
  rounding : Rounding
deriving DecidableEq, Repr

/-- A decoded image as far as the spec uses it: the collaborator's surface has a width and a height (R194, R196). -/
structure Surface where
  width : Nat
  height : Nat
deriving DecidableEq, Repr

/-- The byte memories whose contents are unspecified until written (R35, R50). -/
inductive MemSpace where
  | buf
  | q
  | scratch
deriving DecidableEq, Repr

/-- `SENTINEL` (R6). -/
def Config.sentinel : Byte := 0x58

/-- `ACK` (R6, R86): the same value as the sentinel, sent the other way (R256). -/
def Config.ackByte : Byte := 0x58

/-- `CRC_GEN` (R6, R110): the bit-reversed polynomial. -/
def Config.crcGen : Byte := 0x8C

/-- `CRC_SEED_FRAME` (R6). -/
def Config.crcSeedFrame : Byte := 0x00

/-- `LEN_MIN_EXCL` (R6): a length is accepted only above it. -/
abbrev Config.lenMinExcl : Nat := 2

/-- The parameters at reset. `MAX_FRAME` and `OVERFLOW_KEEPS_NEW` are the spec's defaults (R6, D9). The others are OPEN:
DESIGN CHOICE, unsafe (log 2): the smallest queue that can hold every legal frame (R252), no CRC byte in the image
stream, the screen of vector V-CON-11, rounding toward zero. No statement about an instruction rests on them. -/
def Config.params : Params where
  maxFrame := 2097152
  fifoCapacity := 2097151
  overflowKeepsNew := false
  blitIncludesCrcByte := false
  screenWidth := 320
  screenHeight := 240
  rounding := .towardZero

/-- FREE VALUE (R35, U3, U4; log 4): what a byte of a memory reads as that nothing has written since the `HRESET`
numbered `epoch`. -/
opaque Config.arbitraryByte (space : MemSpace) (epoch index : Nat) : Byte

/-- FREE VALUE (R35; log 3): `need` after the `HRESET` numbered `epoch`, which the spec leaves unspecified. -/
opaque Config.arbitraryNeed (epoch : Nat) : Word

/-- FREE VALUE (U13, R189; log 5): what an image decoder returns at the call numbered `draw`: a surface, or failure. -/
opaque Config.decodeDraw (draw : Nat) : Option Surface

end Sys2Proof
end

