-- ==== Sys2Proof/Syntax.lean ====
section
/-! DEFINITION. Instructions: one constructor per row of the opcode table (R8, R84, R85, R90), and the parser's states,
which are the decoder's modes (R22, R85). -/

namespace Sys2Proof

/-- The parser's states, in the source's order (R22). -/
inductive ParserState where
  | header
  | length0
  | length1
  | length2
  | length3
  | command
  | data
  | crc
deriving DecidableEq, Repr

/-- One constructor per row of spec/opcode_table.json, in the table's order. The byte of an `RX_BYTE` row is its operand;
a command reads its operands from the consumer's `scratch` (R187 to R191). -/
inductive Instr where
  -- PORT_OP (R90)
  | nop
  | rx (b : Byte)
  | get (want : Word)
  | getShort (want : Word)
  | reset
  | crcStep (c b : Byte)
  | crcTabgen (index : Byte)
  | reserved110
  | hreset
  -- INTERNAL (R114, R160, R161)
  | put (bytes : List Byte)
  | putOverflow (bytes : List Byte)
  | crcSum (seed : Byte) (bytes : List Byte)
  -- RX_BYTE (R85, R131 to R142)
  | hdrSof
  | hdrNoise (b : Byte)
  | len0 (b : Byte)
  | len1 (b : Byte)
  | len2 (b : Byte)
  | len3Ok (b : Byte)
  | len3Bad (b : Byte)
  | cmd (b : Byte)
  | dataMore (b : Byte)
  | dataLast (b : Byte)
  | crcOk (b : Byte)
  | crcBad (b : Byte)
  -- WIRE_FRAME (R80)
  | frame (command : Byte) (payload : List Byte)
  -- FRAME_CMD (R84, R187 to R192)
  | setBrightness
  | clearScreen
  | blitJpg
  | blitPng
  | rebootToFel
  | unknownCmd (opcode : Byte)
  -- CONSUMER_STEP (R182 to R186)
  | iterPrefix
  | iterValidate
  | iterBody
  | iterDispatch
  | iterYield
  -- WIRE_ACK (R193)
  | ack
deriving DecidableEq, Repr

end Sys2Proof
end

