-- ==== Sys2Proof/Machine/Bytes.lean ====
section
/-! DEFINITION. Byte order (R52, R81) and the CRC-8 engine (40_crc8): pure functions, used by the decoder, the encoder and
the meanings. -/

namespace Sys2Proof.Machine

/-- `be32` (R11, R81): the value whose most significant byte is the first. -/
def be32 (b1 b2 b3 b4 : Byte) : Word :=
  (b1.setWidth 32 <<< 24) ||| (b2.setWidth 32 <<< 16) ||| (b3.setWidth 32 <<< 8) ||| b4.setWidth 32

/-- The four bytes of a word, most significant first (`be-bytes`, R91). -/
def beBytes (v : Word) : List Byte :=
  [v.extractLsb' 24 8, v.extractLsb' 16 8, v.extractLsb' 8 8, v.extractLsb' 0 8]

/-- One iteration of the generator of R111: shift right, and add the constant where a one fell out. -/
def crcShift (c : Byte) : Byte :=
  if c.getLsbD 0 then (c >>> 1) ^^^ Config.crcGen else c >>> 1

/-- `n` iterations of the generator. -/
def crcShifts : Nat → Byte → Byte
  | 0, c => c
  | n + 1, c => crcShifts n (crcShift c)

/-- The table entry `tab[i]` (R111): eight iterations. The table is a constant (R28, R34; log 6). -/
def crcTab (i : Byte) : Byte := crcShifts 8 i

/-- `CRC8.STEP` (R113): `tab[c XOR b]`. -/
def crcStep (c b : Byte) : Byte := crcTab (c ^^^ b)

/-- `crc8(seed, s)` (R114): the left fold of the step, first byte first. -/
def crc8 (seed : Byte) (s : List Byte) : Byte := s.foldl crcStep seed

/-- The bytes of a frame before its CRC byte (R80): sentinel, length `L = payload + 2`, command, payload. -/
def frameBody (command : Byte) (payload : List Byte) : List Byte :=
  Config.sentinel :: beBytes (BitVec.ofNat 32 (payload.length + 2)) ++ command :: payload

/-- A whole frame (R80; the pseudo-instruction `FRAME` of R91). -/
def frameBytes (command : Byte) (payload : List Byte) : List Byte :=
  frameBody command payload ++ [crc8 Config.crcSeedFrame (frameBody command payload)]

end Sys2Proof.Machine
end

