-- ==== Sys2Proof/Machine/Flags.lean ====
section
/-! DEFINITION. The block has no flags (R27): "the outcomes of the parser's tests (sentinel match, length in range, end of
data, CRC match) are consumed inside the same RX and leave no flag behind". Here are those tests, and the consumer's. -/

namespace Sys2Proof.Machine

/-- Sentinel match (R131, R132). -/
def isSentinel (b : Byte) : Bool := b == Config.sentinel

/-- Length in range (R82, R136): `2 < L < MAX_FRAME - 5`, unsigned (R143). -/
def lengthInRange (maxFrame : Nat) (l : Word) : Bool :=
  Config.lenMinExcl < l.toNat && l.toNat < maxFrame - 5

/-- The length with its last byte (R130): `len OR zext_32(b)`. -/
def lengthWith (len : Word) (b : Byte) : Word := len ||| b.setWidth 32

/-- More payload follows this byte (R139): `cur + 1 < len + 4`, with no wrap (R143). -/
def moreData (cur len : Word) : Bool := cur.toNat + 1 < len.toNat + 4

/-- This byte is the last of the payload (R140): `cur + 1 == len + 4`. -/
def lastData (cur len : Word) : Bool := cur.toNat + 1 == len.toNat + 4

/-- The consumer's test of a dequeued length (R183, D17): `0 < Lc < MAX_FRAME` and `Lc ≤ FIFO_CAPACITY`. -/
def bodyLengthOk (p : Params) (lc : Word) : Bool :=
  0 < lc.toNat && lc.toNat < p.maxFrame && lc.toNat ≤ p.fifoCapacity

end Sys2Proof.Machine
end

