-- ==== Sys2Proof/WellFormed.lean ====
section
/-! DEFINITION. Which terms of `Instr` a row of the opcode table stands for: the limits the table sets on operands that
do not depend on the state. -/

namespace Sys2Proof

/-- The opcodes of R84's table; every other byte is an unknown command (R192). -/
def knownOpcodes : List Byte := [0x01, 0x02, 0x03, 0x04, 0xFE]

/-- The operands a row allows. `HDR.NOISE`: any byte but the sentinel (R132). `UNKNOWN_CMD`: an opcode outside R84's
table (R192). `PUT`: a whole frame, at least 8 bytes and at most `MAX_FRAME - 1`, at most 2^32 - 2 (R160, R7). `FRAME`:
at least one payload byte, and a length field `L = payload + 2` that some well-formed `MAX_FRAME` accepts (R82, R7). -/
def Instr.wellFormed : Instr → Bool
  | .hdrNoise b => b != Config.sentinel
  | .unknownCmd opcode => !knownOpcodes.contains opcode
  | .put bytes => 8 ≤ bytes.length && bytes.length ≤ 2 ^ 32 - 2
  | .putOverflow bytes => 8 ≤ bytes.length && bytes.length ≤ 2 ^ 32 - 2
  | .frame _ payload => 1 ≤ payload.length && payload.length + 2 ≤ 2 ^ 32 - 7
  | .nop | .rx _ | .get _ | .getShort _ | .reset | .crcStep _ _ | .crcTabgen _ | .reserved110 | .hreset => true
  | .crcSum _ _ => true
  | .hdrSof | .len0 _ | .len1 _ | .len2 _ | .len3Ok _ | .len3Bad _ | .cmd _ => true
  | .dataMore _ | .dataLast _ | .crcOk _ | .crcBad _ => true
  | .setBrightness | .clearScreen | .blitJpg | .blitPng | .rebootToFel => true
  | .iterPrefix | .iterValidate | .iterBody | .iterDispatch | .iterYield => true
  | .ack => true

end Sys2Proof
end

