-- ==== Sys2Proof/Decode.lean ====
section
/-! DEFINITION. The decoder, total on any bytes, and the encoder (30_encoding). Five encoding spaces share byte values
(R80, R84, R85, R86, R90), so a byte is decoded in a named space; the internal micro-operations and the consumer's steps
have no encoding ("match: none" in the opcode table). -/

namespace Sys2Proof

/-- Where a byte string is read: at the block's port, as a byte arriving at the parser, on the wire as a whole frame, by
the consumer as a command's opcode, or on the way back to the host. -/
inductive Space where
  | port
  | rxByte
  | frame
  | command
  | ack
deriving DecidableEq, Repr

/-- Why bytes are no instruction. -/
inductive DecodeError where
  /-- There is no byte, or an operand byte is missing. -/
  | truncated
  /-- A frame's first byte is not the sentinel (R80). -/
  | badSentinel
  /-- A frame's length field is outside `2 < L < MAX_FRAME - 5` (R82). -/
  | badLength
  /-- A frame's last byte is not the CRC of the rest (R80). -/
  | badCrc
  /-- A byte toward the host that is not 0x58 (R86). -/
  | notAck
  /-- The parser is in a state no row of R85 describes (R140, U10). -/
  | noRow
deriving DecidableEq, Repr

/-- What decoding depends on beside the bytes: R85's columns ("`st` acts as the decoder's mode"), and for `GET` the
occupancy (R162, R163). `crc` is `crc8(0, buf[0 .. len+4))`. -/
structure DecodeContext where
  st : ParserState
  cur : Word
  len : Word
  cnt : Word
  maxFrame : Nat
  crc : Byte
deriving DecidableEq, Repr

/-- The context right after reset (R35), with the default `MAX_FRAME`: the parser in `Header`, the queue empty. -/
def DecodeContext.afterReset : DecodeContext where
  st := .header
  cur := 0
  len := 0
  cnt := 0
  maxFrame := Config.params.maxFrame
  crc := 0

/-- R85's table: the row a byte belongs to. -/
def classify (c : DecodeContext) (b : Byte) : Except DecodeError Instr :=
  match c.st with
  | .header => if Machine.isSentinel b then .ok .hdrSof else .ok (.hdrNoise b)
  | .length0 => .ok (.len0 b)
  | .length1 => .ok (.len1 b)
  | .length2 => .ok (.len2 b)
  | .length3 =>
    if Machine.lengthInRange c.maxFrame (Machine.lengthWith c.len b) then .ok (.len3Ok b) else .ok (.len3Bad b)
  | .command => .ok (.cmd b)
  | .data =>
    if Machine.moreData c.cur c.len then .ok (.dataMore b)
    else if Machine.lastData c.cur c.len then .ok (.dataLast b)
    else .error .noRow
  | .crc => if b = c.crc then .ok (.crcOk b) else .ok (.crcBad b)

/-- R84's table: the command an opcode byte names. -/
def decodeCommand (op : Byte) : Instr :=
  if op = 0x01 then .setBrightness
  else if op = 0x02 then .clearScreen
  else if op = 0x03 then .blitJpg
  else if op = 0x04 then .blitPng
  else if op = 0xFE then .rebootToFel
  else .unknownCmd op

/-- A port word (R90): `op` in bits 2..0 of the first byte (the table's mask is 0x7), then the operand bytes, `want` most
significant byte first. DESIGN CHOICE (log 8): the layout of the operands is the model's, R90 gives the code only. -/
def decodePort (c : DecodeContext) : List Byte → Except DecodeError (Instr × List Byte)
  | [] => .error .truncated
  | first :: operands =>
    match (first.extractLsb' 0 3).toNat with
    | 0 => .ok (.nop, operands)
    | 1 =>
      match operands with
      | b :: rest => .ok (.rx b, rest)
      | _ => .error .truncated
    | 2 =>
      match operands with
      | w1 :: w2 :: w3 :: w4 :: rest =>
        let want := Machine.be32 w1 w2 w3 w4
        .ok (if want.toNat ≤ c.cnt.toNat then .get want else .getShort want, rest)
      | _ => .error .truncated
    | 3 => .ok (.reset, operands)
    | 4 =>
      match operands with
      | cr :: b :: rest => .ok (.crcStep cr b, rest)
      | _ => .error .truncated
    | 5 =>
      match operands with
      | i :: rest => .ok (.crcTabgen i, rest)
      | _ => .error .truncated
    | 6 => .ok (.reserved110, operands)
    | _ => .ok (.hreset, operands)

/-- A wire frame (R80): the sentinel, the length, then `L` bytes of which the last is the CRC of all before it. -/
def decodeFrame (c : DecodeContext) : List Byte → Except DecodeError (Instr × List Byte)
  | sentinel :: l1 :: l2 :: l3 :: l4 :: command :: tail =>
    let len := Machine.be32 l1 l2 l3 l4
    let payload := tail.take (len.toNat - 2)
    if !Machine.isSentinel sentinel then .error .badSentinel
    else if !Machine.lengthInRange c.maxFrame len then .error .badLength
    else
      match tail.drop (len.toNat - 2) with
      | [] => .error .truncated
      | crc :: rest =>
        if crc = Machine.crc8 Config.crcSeedFrame (sentinel :: l1 :: l2 :: l3 :: l4 :: command :: payload) then
          .ok (.frame command payload, rest)
        else .error .badCrc
  | _ => .error .truncated

/-- The decoder: the first instruction of a byte string in a space, with the bytes after it. -/
def decode (c : DecodeContext) (space : Space) (bytes : List Byte) : Except DecodeError (Instr × List Byte) :=
  match space with
  | .port => decodePort c bytes
  | .rxByte =>
    match bytes with
    | [] => .error .truncated
    | b :: rest =>
      match classify c b with
      | .ok i => .ok (i, rest)
      | .error e => .error e
  | .frame => decodeFrame c bytes
  | .command =>
    match bytes with
    | [] => .error .truncated
    | op :: rest => .ok (decodeCommand op, rest)
  | .ack =>
    match bytes with
    | [] => .error .truncated
    | b :: rest => if b = Config.ackByte then .ok (.ack, rest) else .error .notAck

/-- The encoder: the space and the bytes of a well-formed instruction, from R80, R84, R85, R86 and R90. An internal
micro-operation and a consumer step have none. -/
def encode : Instr → Option (Space × List Byte)
  | .nop => some (.port, [0x00])
  | .rx b => some (.port, [0x01, b])
  | .get want => some (.port, 0x02 :: Machine.beBytes want)
  | .getShort want => some (.port, 0x02 :: Machine.beBytes want)
  | .reset => some (.port, [0x03])
  | .crcStep c b => some (.port, [0x04, c, b])
  | .crcTabgen i => some (.port, [0x05, i])
  | .reserved110 => some (.port, [0x06])
  | .hreset => some (.port, [0x07])
  | .put _ => none
  | .putOverflow _ => none
  | .crcSum _ _ => none
  | .hdrSof => some (.rxByte, [Config.sentinel])
  | .hdrNoise b => some (.rxByte, [b])
  | .len0 b => some (.rxByte, [b])
  | .len1 b => some (.rxByte, [b])
  | .len2 b => some (.rxByte, [b])
  | .len3Ok b => some (.rxByte, [b])
  | .len3Bad b => some (.rxByte, [b])
  | .cmd b => some (.rxByte, [b])
  | .dataMore b => some (.rxByte, [b])
  | .dataLast b => some (.rxByte, [b])
  | .crcOk b => some (.rxByte, [b])
  | .crcBad b => some (.rxByte, [b])
  | .frame command payload => some (.frame, Machine.frameBytes command payload)
  | .setBrightness => some (.command, [0x01])
  | .clearScreen => some (.command, [0x02])
  | .blitJpg => some (.command, [0x03])
  | .blitPng => some (.command, [0x04])
  | .rebootToFel => some (.command, [0xFE])
  | .unknownCmd opcode => some (.command, [opcode])
  | .iterPrefix => none
  | .iterValidate => none
  | .iterBody => none
  | .iterDispatch => none
  | .iterYield => none
  | .ack => some (.ack, [Config.ackByte])

/-- Whether a row's condition holds in a context: the columns `st` and "extra condition" of R85, and `want ≤ cnt` or
`want > cnt` of the two rows that share the code 0b010 (R162, R163); a frame's length must be acceptable (R82). -/
def selectedIn (c : DecodeContext) : Instr → Bool
  | .get want => want.toNat ≤ c.cnt.toNat
  | .getShort want => c.cnt.toNat < want.toNat
  | .hdrSof => c.st == .header
  | .hdrNoise b => c.st == .header && !Machine.isSentinel b
  | .len0 _ => c.st == .length0
  | .len1 _ => c.st == .length1
  | .len2 _ => c.st == .length2
  | .len3Ok b => c.st == .length3 && Machine.lengthInRange c.maxFrame (Machine.lengthWith c.len b)
  | .len3Bad b => c.st == .length3 && !Machine.lengthInRange c.maxFrame (Machine.lengthWith c.len b)
  | .cmd _ => c.st == .command
  | .dataMore _ => c.st == .data && Machine.moreData c.cur c.len
  | .dataLast _ => c.st == .data && Machine.lastData c.cur c.len
  | .crcOk b => c.st == .crc && b == c.crc
  | .crcBad b => c.st == .crc && b != c.crc
  | .frame _ payload => Config.lenMinExcl < payload.length + 2 && payload.length + 2 < c.maxFrame - 5
  | .nop | .rx _ | .reset | .crcStep _ _ | .crcTabgen _ | .reserved110 | .hreset => true
  | .put _ | .putOverflow _ | .crcSum _ _ => true
  | .setBrightness | .clearScreen | .blitJpg | .blitPng | .rebootToFel | .unknownCmd _ => true
  | .iterPrefix | .iterValidate | .iterBody | .iterDispatch | .iterYield => true
  | .ack => true

/-- The bytes of a table word, bit 0 the least significant bit of the first byte, `n` bytes of it. -/
def tableBytes (w : Nat) : Nat → List Byte
  | 0 => []
  | n + 1 => BitVec.ofNat 8 w :: tableBytes (w / 256) n

/-- The space a table word is read in. DESIGN CHOICE (log 9): the table gives port codes (3 bits), RX bytes, opcodes and
the acknowledgement the same numbers, so a word below 8 is a port code, 0xFE the one opcode no port code shares, and any
other byte arrives at the parser, which is in `Header` right after reset. -/
def tableSpace (nbits w : Nat) : Space :=
  if nbits < 8 || w % 256 < 8 then .port
  else if w % 256 = 0xFE then .command
  else .rxByte

/-- The instruction the decoder reads from a word numbered as the opcode table numbers it, operand bytes above `nbits`
zero; the longest port word has five bytes. -/
def decodeTableWord (nbits w : Nat) : Option Instr :=
  match decode .afterReset (tableSpace nbits w) (tableBytes (w % 2 ^ nbits) 5) with
  | .ok (i, _) => some i
  | .error _ => none

end Sys2Proof
end

