-- ==== Sys2Proof/Machine/State.lean ====
section
/-! DEFINITION. The state (R20, R32), as plain data, its value after reset (R35), and the reasons a step can stop. -/

namespace Sys2Proof.Machine

/-- A byte memory (R50): the bytes written since the last `HRESET`, addresses strictly rising. An address not listed has
not been written and reads as nothing; what a transaction that needs such a byte gets is a free value (log 4). -/
abbrev Memory := List Host.Cell

/-- The parser (R22 to R26): "single-writer", owned by the producer's side. -/
structure Parser where
  /-- The state: which field the next byte belongs to (R22). -/
  st : ParserState
  /-- The cursor: where the next byte is stored (R23). -/
  cur : Word
  /-- The currently accumulating length (R24). -/
  len : Word
  /-- The scratch buffer `BUF`, `MAX_FRAME` bytes (R25). -/
  buf : Memory
deriving DecidableEq, Repr

/-- The FIFO (R29): a ring of `FIFO_CAPACITY` bytes. -/
structure Queue where
  /-- The storage `Q`. -/
  q : Memory
  /-- The read index. -/
  rd : Word
  /-- The occupancy. -/
  cnt : Word
deriving DecidableEq, Repr

/-- The dispatch loop's phase (R32, R181). -/
inductive Phase where
  | wantPrefix
  | wantBody
deriving DecidableEq, Repr

/-- The five bytes `h` that step 1 dequeues (R182): the marker, which nothing tests, and the length. -/
structure FrameHead where
  marker : Byte
  l1 : Byte
  l2 : Byte
  l3 : Byte
  l4 : Byte
deriving DecidableEq, Repr

/-- Which step of `ITER` the consumer takes next (R182 to R186). Each step is a transaction of its own, since the
producer may act between them (R186; log 13). -/
inductive IterPoint where
  /-- Step 1 when the phase is `WantPrefix`, step 3 when it is `WantBody`. -/
  | read
  /-- Step 2, on the prefix that step 1 dequeued. -/
  | validate (h : FrameHead)
  /-- Step 4. -/
  | dispatch
  /-- Step 5. -/
  | yield
  /-- Inside `reboot_to_bootloader`, which never returns (R191). -/
  | rebooting
deriving DecidableEq, Repr

/-- The consumer (R32, R181): the dispatch loop, outside the block. -/
structure Consumer where
  phase : Phase
  /-- The length decoded from the last prefix. -/
  need : Word
  /-- The command payload scratch buffer `SCRATCH`, `MAX_FRAME` bytes. -/
  scratch : Memory
  point : IterPoint
deriving DecidableEq, Repr

/-- What a transaction hands back to its issuer (`return v`, R11; the outputs of R31). -/
inductive Ret where
  /-- Nothing has been handed back yet. -/
  | nothing
  /-- A byte: `CRC8.STEP`, `CRC8.TABGEN`, `CRC8.SUM`. -/
  | byte (v : Byte)
  /-- `PUT`'s `written_count`. -/
  | count (n : Word)
  /-- `GET`'s `got` and `data`. -/
  | got (n : Word) (data : List Byte)
deriving DecidableEq, Repr

/-- The labels of the ghost trace (R220). -/
inductive Event where
  | badSentinel (b : Byte)
  | lenRange (l : Word)
  | crcMismatch (len : Word) (b : Byte)
  | frameAccepted (len : Word)
  | fifoOverflow (n : Nat) (cnt : Word)
  | fifoReset
deriving DecidableEq, Repr

/-- The calls the consumer makes on its collaborators (R194). -/
inductive Call where
  | backlightSet (v : Nat)
  | screenFillOpaque (r g b : Byte)
  | jpegDecode (stream : List Byte)
  | pngDecode (stream : List Byte)
  | blit (surface : Surface) (x y : Int)
  | present
  | free (surface : Surface)
  | transportSend (b : Byte)
  | rebootToBootloader
  | yield
deriving DecidableEq, Repr

/-- Who issues a transaction (R3). `other` is any further context: a second producer, a re-entered receive handler, a
second consumer (R244, R245). -/
inductive Agent where
  | producer
  | consumer
  | platform
  | other (context : Nat)
deriving DecidableEq, Repr

/-- A transaction that an agent asks for: a word at the block's port, or the consumer's own next step. -/
inductive Request where
  | port (agent : Agent) (word : List Byte)
  | turn
deriving DecidableEq, Repr

/-- The state. `parser` and `queue` are the block's (R20; `tab` is a constant, R28, R34); `consumer` is the dispatch
loop's (R32); `ret`, `calls` and `trace` are what goes out; `params` are the parameters (R6, log 1); `pending`, `epoch`
and `draws` are the model's own (log 7, log 4, log 5). -/
structure State where
  params : Params
  parser : Parser
  queue : Queue
  consumer : Consumer
  /-- The value last handed back (log 12). -/
  ret : Ret
  /-- The ghost trace, oldest first (R220): no transaction reads it. -/
  trace : List Event
  /-- The collaborator calls, oldest first (R194). -/
  calls : List Call
  /-- The transactions the agents will ask for, next one first (R58, R59; log 7). -/
  pending : List Request
  /-- How many `HRESET`s there have been: the index of the free values of unwritten bytes (log 4). -/
  epoch : Nat
  /-- How many decoder calls there have been: the index of the decoders' draws (log 5). -/
  draws : Nat
deriving DecidableEq, Repr

/-- The machine right after reset (R35), for given parameters. `need` is unspecified: DESIGN CHOICE zero (log 3).
`pending` empty, `epoch` 0, `draws` 0: DESIGN CHOICE (log 4, log 5, log 7). -/
def State.resetWith (p : Params) : State where
  params := p
  parser := ⟨.header, 0, 0, []⟩
  queue := ⟨[], 0, 0⟩
  consumer := ⟨.wantPrefix, 0, [], .read⟩
  ret := .nothing
  trace := []
  calls := []
  pending := []
  epoch := 0
  draws := 0

/-- The machine right after reset, with the parameters of `Config.params` (log 2). -/
def State.reset : State := State.resetWith Config.params

/-- The faults: a state that the spec says cannot be reached, "never silently continued" (U10). All are safe: the machine
stops, and nothing can be proved of a hardware that goes on. -/
inductive Fault where
  /-- Raised by a byte that arrives when (`st`, `cur`) is outside R26's table (U10, R140). Safe (log 17). -/
  | unreachableParserState
  /-- Raised by a byte whose index in `BUF` is not below `MAX_FRAME` (U11, R55). Safe (log 17). -/
  | bufIndexOutOfRange
  /-- Raised by `ITER.BODY` and the blits when the body does not fit `SCRATCH` (R50, R184). Safe (log 18). -/
  | scratchIndexOutOfRange
deriving DecidableEq, Repr

/-- The refusals: executions to which the spec gives no meaning. All are safe: nothing can be proved of them. -/
inductive Refusal where
  /-- Raised by an arm of `exec` whose instruction has no meaning yet. Safe. -/
  | notModelled (mnemonic : String)
  /-- Raised by every instruction when the parameters are ill-formed: "a model must refuse any other" (R7). Safe. -/
  | illFormedParameters
  /-- Raised by `RESERVED.110`: "reserved; a model refuses it" (R90, U12). Safe. -/
  | reservedOperation
  /-- Raised by everything but `HRESET` after `reboot_to_bootloader`: "the run is over for the model" (R191, U17). Safe
  (log 15). -/
  | runEnded
  /-- Raised by a row of the opcode table when its condition does not hold: the row is not what the machine does there
  (R85, R162 to R163, R182 to R192). Safe (log 10). -/
  | rowNotSelected
  /-- Raised by a fetched transaction issued by an agent that does not own its port (R225, R229, D27). Safe (log 16). -/
  | wrongAgent
  /-- Raised by an `RX` from a context other than the producer (R244, U7). Safe (log 16). -/
  | secondProducer
  /-- Raised by a `GET` or a `RESET` from a context other than the consumer (R245, U7). Safe (log 16). -/
  | secondConsumer
  /-- Raised by a fetched port word that is no transaction: it lacks operand bytes (log 8). Safe. -/
  | undecodable (e : DecodeError)
deriving DecidableEq, Repr

/-- The three outcomes of this machine's step. -/
abbrev Outcome := Host.Outcome State Fault Refusal

end Sys2Proof.Machine
end

