-- ==== Sys2Proof/Machine/Ops.lean ====
section
/-! DEFINITION. The named operations over memories and registers: the access primitives (R55, R56), the FIFO operations
(R160 to R164), the parser's local reset (R223) and the conditions under which any transaction runs (R7, R191). -/

namespace Sys2Proof.Machine

/-- R7: the parameter choices that have a meaning. -/
def paramsWellFormed (p : Params) : Bool :=
  9 ≤ p.maxFrame && p.maxFrame ≤ 2 ^ 32 - 1 && (1 ≤ p.fifoCapacity && p.fifoCapacity ≤ 2 ^ 32 - 1)

/-! ### Memories -/

/-- Read one byte; nothing where nothing has been written. -/
def Memory.read : Memory → Nat → Option Byte
  | [], _ => none
  | (b, v) :: rest, a => if a = b then some v else Memory.read rest a

/-- Write one byte, keeping the addresses rising. -/
def Memory.write : Memory → Nat → Byte → Memory
  | [], a, v => [(a, v)]
  | (b, w) :: rest, a, v =>
    if a < b then (a, v) :: (b, w) :: rest
    else if a = b then (a, v) :: rest
    else (b, w) :: Memory.write rest a v

/-- Write a block at consecutive addresses. -/
def Memory.writeBlock (m : Memory) (start : Nat) : List Byte → Memory
  | [] => m
  | v :: rest => Memory.writeBlock (m.write start v) (start + 1) rest

/-- Write a block into a ring of `c` bytes: byte `i` at `(start + i) mod c` (R56). -/
def Memory.writeRing (m : Memory) (c start : Nat) : List Byte → Memory
  | [] => m
  | v :: rest => Memory.writeRing (m.write (start % c) v) c (start + 1) rest

/-- Every address is at least `low`, and each is above the one before it. -/
def Memory.risingFrom : Nat → Memory → Bool
  | _, [] => true
  | low, (a, _) :: rest => low ≤ a && Memory.risingFrom (a + 1) rest

/-- The canonical form: addresses strictly rising. An unlisted address reads as nothing, which no entry equals. -/
def Memory.wf (m : Memory) : Bool := Memory.risingFrom 0 m

/-- No address is `bound` or above: the memory's size (R50). -/
def Memory.within (m : Memory) (bound : Nat) : Bool := m.all fun cell => cell.1 < bound

/-! ### Updates of the state, one per component -/

def State.withParser (s : State) (p : Parser) : State := { s with parser := p }

def State.withQueue (s : State) (x : Queue) : State := { s with queue := x }

def State.withConsumer (s : State) (c : Consumer) : State := { s with consumer := c }

/-- `return v` (R11). -/
def State.withRet (s : State) (r : Ret) : State := { s with ret := r }

/-- `event e` (R11, R220): a label at the end of the ghost trace. -/
def State.emit (s : State) (e : Event) : State := { s with trace := s.trace ++ [e] }

/-- Calls on the collaborators, in order (R194). -/
def State.call (s : State) (cs : List Call) : State := { s with calls := s.calls ++ cs }

def State.withPending (s : State) (rs : List Request) : State := { s with pending := rs }

/-- Use up one decoder draw (U13). -/
def State.nextDraw (s : State) : State := { s with draws := s.draws + 1 }

/-- Begin a new epoch of unwritten memory (R240). -/
def State.nextEpoch (s : State) : State := { s with epoch := s.epoch + 1 }

/-! ### When a transaction runs -/

/-- Every transaction: the parameters are well-formed (R7) and the run is not over (R191). -/
def whenRunning (s : State) (k : Outcome) : Outcome :=
  if !paramsWellFormed s.params then .refused .illFormedParameters
  else if s.consumer.point = .rebooting then .refused .runEnded
  else k

/-! ### The FIFO (R30, R56, R160 to R164) -/

/-- A byte of `Q`; a free value where nothing has been written (U4). -/
def State.readQ (s : State) (i : Nat) : Byte :=
  (s.queue.q.read i).getD (Config.arbitraryByte .q s.epoch i)

/-- The `n` oldest bytes of the ring (R162). -/
def State.oldest (s : State) (n : Nat) : List Byte :=
  (List.range n).map fun i => s.readQ ((s.queue.rd.toNat + i) % s.params.fifoCapacity)

/-- The abstract content `fifo` (R30): all `cnt` bytes, oldest first. -/
def State.fifo (s : State) : List Byte := s.oldest s.queue.cnt.toNat

/-- Free space: `C - cnt` (R160). -/
def State.freeSpace (s : State) : Nat := s.params.fifoCapacity - s.queue.cnt.toNat

/-- Both queue resets (R161, R164): `rd <- 0; cnt <- 0`; the bytes of `q` stay (R241). -/
def State.emptyQueue (s : State) : State := s.withQueue { s.queue with rd := 0, cnt := 0 }

/-- R160's loop: the block is written after the queued bytes, and counted. -/
def State.append (s : State) (bytes : List Byte) : State :=
  s.withQueue { s.queue with
    q := s.queue.q.writeRing s.params.fifoCapacity (s.queue.rd.toNat + s.queue.cnt.toNat) bytes
    cnt := BitVec.ofNat 32 (s.queue.cnt.toNat + bytes.length) }

/-- R161: the queue is emptied, and the block is dropped too, unless `OVERFLOW_KEEPS_NEW` and it fits an empty queue. The
event is recorded in both cases (log 20). -/
def putOverflowing (bytes : List Byte) (s : State) : Word × State :=
  let e := s.emptyQueue.emit (.fifoOverflow bytes.length s.queue.cnt)
  if s.params.overflowKeepsNew && bytes.length ≤ s.params.fifoCapacity then
    (BitVec.ofNat 32 bytes.length, e.append bytes)
  else (0, e)

/-- `PUT` (R160, R161): `written_count` and the state after. All or nothing (D9). -/
def putBlock (bytes : List Byte) (s : State) : Word × State :=
  if bytes.length ≤ s.freeSpace then (BitVec.ofNat 32 bytes.length, s.append bytes)
  else putOverflowing bytes s

/-- R162's update: the `want` oldest bytes are removed. -/
def State.dropOldest (s : State) (want : Word) : State :=
  s.withQueue { s.queue with
    rd := BitVec.ofNat 32 ((s.queue.rd.toNat + want.toNat) % s.params.fifoCapacity)
    cnt := s.queue.cnt - want }

/-- `GET` (R162, R163): `got`, `data`, and the state after; all or nothing (D10), never waiting. The results stand on the
port's outputs (R31). -/
def getBlock (want : Word) (s : State) : Word × List Byte × State :=
  if want.toNat ≤ s.queue.cnt.toNat then
    (want, s.oldest want.toNat, (s.dropOldest want).withRet (.got want (s.oldest want.toNat)))
  else (0, [], s.withRet (.got 0 []))

/-- `RESET` (R164). -/
def resetQueue (s : State) : State := s.emptyQueue.emit .fifoReset

/-! ### The parser -/

/-- A byte of `BUF`; a free value where nothing has been written (U3). -/
def State.readBuf (s : State) (i : Nat) : Byte :=
  (s.parser.buf.read i).getD (Config.arbitraryByte .buf s.epoch i)

/-- `buf[0 .. n)` (R10). -/
def State.bufRange (s : State) (n : Nat) : List Byte := (List.range n).map s.readBuf

/-- `crc8(0, buf[0 .. len+4))` (R141, R142). -/
def State.frameCrc (s : State) : Byte := crc8 Config.crcSeedFrame (s.bufRange (s.parser.len.toNat + 4))

/-- The store of R130: `buf[cur] <- b`, always, before any test. -/
def State.storeByte (s : State) (b : Byte) : State :=
  s.withParser { s.parser with buf := s.parser.buf.write s.parser.cur.toNat b }

/-- The parser's local reset (R223, R241): the block's only analogue of taking an exception. It saves nothing, and there
is no return from it (R224). -/
def Parser.localReset (p : Parser) : Parser := { p with st := .header, cur := 0 }

/-- What decoding depends on (R85). -/
def State.decodeContext (s : State) : DecodeContext where
  st := s.parser.st
  cur := s.parser.cur
  len := s.parser.len
  cnt := s.queue.cnt
  maxFrame := s.params.maxFrame
  crc := s.frameCrc

end Sys2Proof.Machine
end

