-- ==== Sys2Proof/Machine/Operands.lean ====
section
/-! DEFINITION. Where operands come from: the position of a byte in the frame (R26), and the command operands the consumer
reads from `scratch`, never from `buf` (R185, R198, R251). -/

namespace Sys2Proof.Machine

/-- The (`st`, `cur`) pairs of R26's table: where in the frame the next byte belongs. Every other pair is unreachable
(U10). -/
def Parser.pairOk (p : Parser) : Bool :=
  match p.st with
  | .header => p.cur.toNat == 0
  | .length0 => p.cur.toNat == 1
  | .length1 => p.cur.toNat == 2
  | .length2 => p.cur.toNat == 3
  | .length3 => p.cur.toNat == 4
  | .command => p.cur.toNat == 5
  | .data => 6 ≤ p.cur.toNat && p.cur.toNat ≤ p.len.toNat + 3
  | .crc => p.cur.toNat == p.len.toNat + 4

/-- The 3-bit number of a parser state (R22, D7); no transaction exposes it. -/
def stateCode : ParserState → BitVec 3
  | .header => 0
  | .length0 => 1
  | .length1 => 2
  | .length2 => 3
  | .length3 => 4
  | .command => 5
  | .data => 6
  | .crc => 7

/-- `scratch[i]` (R185); a free value where nothing has been written (R35). -/
def State.readScratch (s : State) (i : Nat) : Byte :=
  (s.consumer.scratch.read i).getD (Config.arbitraryByte .scratch s.epoch i)

/-- The opcode: `scratch[0]` (R185). -/
def State.opcode (s : State) : Byte := s.readScratch 0

/-- How many bytes an image decoder is handed (R189): `scratch[1 .. Lc-1)`, or with the CRC byte `scratch[1 .. Lc)`. -/
def State.streamLength (s : State) : Nat :=
  if s.params.blitIncludesCrcByte then s.consumer.need.toNat - 1 else s.consumer.need.toNat - 2

/-- The image stream handed to a decoder (R189, D19). -/
def State.imageStream (s : State) : List Byte :=
  (List.range s.streamLength).map fun i => s.readScratch (i + 1)

/-- The literal of `REBOOT_TO_FEL`: 'F', 'E', 'L' (R191). -/
def felLiteral : List Byte := [0x46, 0x45, 0x4C]

/-- `scratch[1 .. 4)` (R188, R191). -/
def State.threeOperands (s : State) : List Byte := [s.readScratch 1, s.readScratch 2, s.readScratch 3]

/-- Integer division by two (R196), with the rounding of the parameter (U15). -/
def halve (r : Rounding) (d : Int) : Int :=
  match r with
  | .towardZero => d.tdiv 2
  | .towardMinusInfinity => d.fdiv 2

/-- The destination origin of R196: signed, possibly negative. -/
def centered (r : Rounding) (screen image : Nat) : Int := halve r ((screen : Int) - (image : Int))

/-- The backlight value of R187: `level * 1000 / 255`, truncating. -/
def backlightOf (level : Byte) : Nat := level.toNat * 1000 / 255

end Sys2Proof.Machine
end

