-- ==== Sys2Proof/Machine/CommandOps.lean ====
section
/-! DEFINITION. What the commands do (R187 to R192, R195), as operations on the state: the calls they make, and the
consumer's way to step 5. -/

namespace Sys2Proof.Machine

/-- `ack` (R193): one byte 0x58 through the transport. -/
def ackCall : Call := .transportSend Config.ackByte

/-- The command is done: step 5 comes next (R186). -/
def State.commandDone (s : State) : State := s.withConsumer { s.consumer with point := .yield }

/-- `SET_BRIGHTNESS` (R187): no shape test (R195). -/
def doSetBrightness (s : State) : State :=
  (s.call [.backlightSet (backlightOf (s.readScratch 1)), ackCall]).commandDone

/-- `CLEAR_SCREEN` (R188): ignored without acknowledgement when `Lc < 5` (R195). -/
def doClearScreen (s : State) : State :=
  if 5 ≤ s.consumer.need.toNat then
    (s.call [.screenFillOpaque (s.readScratch 1) (s.readScratch 2) (s.readScratch 3), .present, ackCall]).commandDone
  else s.commandDone

/-- The calls after a successful decode (R189, R196): blit at the centered origin, present, free, acknowledge. -/
def blitCalls (p : Params) (x : Surface) : List Call :=
  [.blit x (centered p.rounding p.screenWidth x.width) (centered p.rounding p.screenHeight x.height),
    .present, .free x, ackCall]

/-- A blit (R189, R190), for the decoder call made and its result: nothing more when the decoder fails (R216). -/
def doBlit (decode : Call) (result : Option Surface) (s : State) : State :=
  match result with
  | none => (s.call [decode]).nextDraw.commandDone
  | some x => (s.call (decode :: blitCalls s.params x)).nextDraw.commandDone

/-- A blit reads `scratch` up to its body's end; a body longer than `SCRATCH` is a fault (R50, R184; log 18). -/
def blitEntry (decode : Call) (result : Option Surface) (s : State) : Outcome :=
  if s.params.maxFrame < s.consumer.need.toNat then .fault .scratchIndexOutOfRange
  else .next (doBlit decode result s)

/-- `REBOOT_TO_FEL` (R191): acknowledge, then the call that never returns; ignored without acknowledgement when the
literal is not 'F', 'E', 'L' or `Lc < 5` (R195, D20). -/
def doRebootToFel (s : State) : State :=
  if 5 ≤ s.consumer.need.toNat ∧ s.threeOperands = felLiteral then
    (s.call [ackCall, .rebootToBootloader]).withConsumer { s.consumer with point := .rebooting }
  else s.commandDone

/-- An unknown opcode (R192): "no-op, no ack". -/
def doUnknown (s : State) : State := s.commandDone

/-- Step 4's case distinction (R185), on the opcode. -/
def runCommand (op : Byte) (s : State) : Outcome :=
  if op = 0x01 then .next (doSetBrightness s)
  else if op = 0x02 then .next (doClearScreen s)
  else if op = 0x03 then blitEntry (.jpegDecode s.imageStream) (Config.decodeDraw s.draws) s
  else if op = 0x04 then blitEntry (.pngDecode s.imageStream) (Config.decodeDraw s.draws) s
  else if op = 0xFE then .next (doRebootToFel s)
  else .next (doUnknown s)

/-- A command runs at step 4, when `scratch` holds its opcode (R185). -/
def commandEntry (s : State) (selected : Bool) (k : Outcome) : Outcome :=
  whenRunning s (if s.consumer.point = .dispatch ∧ selected then k else .refused .rowNotSelected)

end Sys2Proof.Machine
end

