-- ==== Sys2Proof/Machine/Commands.lean ====
section
/-! DEFINITION. The command family (43_consumer_dispatch, R187 to R193): one meaning for each opcode of R84, and the
acknowledgement. -/

namespace Sys2Proof.Machine

/-- `SET_BRIGHTNESS` (R187). -/
def execSetBrightness (s : State) : Outcome :=
  commandEntry s (s.opcode == 0x01) (.next (doSetBrightness s))

/-- `CLEAR_SCREEN` (R188). -/
def execClearScreen (s : State) : Outcome :=
  commandEntry s (s.opcode == 0x02) (.next (doClearScreen s))

/-- `BLIT_JPG` (R189): the decoder's result is a free value (U13). -/
def execBlitJpg (s : State) : Outcome :=
  commandEntry s (s.opcode == 0x03) (blitEntry (.jpegDecode s.imageStream) (Config.decodeDraw s.draws) s)

/-- `BLIT_PNG` (R190). -/
def execBlitPng (s : State) : Outcome :=
  commandEntry s (s.opcode == 0x04) (blitEntry (.pngDecode s.imageStream) (Config.decodeDraw s.draws) s)

/-- `REBOOT_TO_FEL` (R191). -/
def execRebootToFel (s : State) : Outcome :=
  commandEntry s (s.opcode == 0xFE) (.next (doRebootToFel s))

/-- An unknown opcode (R192). -/
def execUnknownCmd (opcode : Byte) (s : State) : Outcome :=
  commandEntry s (s.opcode == opcode && !knownOpcodes.contains opcode) (.next (doUnknown s))

/-- `ACK` (R193): the send alone. DESIGN CHOICE (log 25): the spec has it only inside a successful command, where `ackCall` is
that command's own call; the row runs in any running state, at any place of the loop. No step runs it. -/
def execAck (s : State) : Outcome :=
  whenRunning s (.next (s.call [ackCall]))

end Sys2Proof.Machine
end

