-- ==== Sys2Proof/Machine/Consumer.lean ====
section
/-! DEFINITION. The consumer's five steps (43_consumer_dispatch, R182 to R186). Each is a transaction of its own (R186). -/

namespace Sys2Proof.Machine

/-- The consumer goes to a step. -/
def State.goToPoint (s : State) (p : IterPoint) : State := s.withConsumer { s.consumer with point := p }

/-- The prefix that `GET 5` returns (R182), when it returns five bytes. -/
def frameHeadOf : List Byte → Option FrameHead
  | [m, l1, l2, l3, l4] => some ⟨m, l1, l2, l3, l4⟩
  | _ => none

/-- The length a prefix declares (R183): `be32(h[1], h[2], h[3], h[4])`. -/
def FrameHead.length (h : FrameHead) : Word := be32 h.l1 h.l2 h.l3 h.l4

/-- A step runs at its own place in `ITER`. -/
def iterEntry (s : State) (here : Prop) [Decidable here] (k : Outcome) : Outcome :=
  whenRunning s (if here then k else .refused .rowNotSelected)

/-- Step 1 (R182): `GET 5`; on failure yield, else step 2. The marker byte is not tested (N9). -/
def readPrefix (s : State) : State :=
  match getBlock 5 s with
  | (_, data, t) =>
    match frameHeadOf data with
    | none => t.goToPoint .yield
    | some h => t.goToPoint (.validate h)

/-- Step 2 (R183): an invalid or unattainable length resets the queue and yields; else `need <- Lc`, and step 3. -/
def validatePrefix (h : FrameHead) (s : State) : State :=
  if bodyLengthOk s.params h.length then
    s.withConsumer { s.consumer with need := h.length, phase := .wantBody, point := .read }
  else (resetQueue s).goToPoint .yield

/-- Step 3 (R184): `GET need`; on failure yield, with `phase` and `need` kept (D16, R250), else the body goes to `scratch`
and step 4 comes next. A body that does not fit `scratch` is a fault (R50; log 18). -/
def readBody (s : State) : Outcome :=
  match getBlock s.consumer.need s with
  | (got, data, t) =>
    if got = 0 then .next (t.goToPoint .yield)
    else if s.params.maxFrame < got.toNat then .fault .scratchIndexOutOfRange
    else .next (t.withConsumer
      { t.consumer with scratch := t.consumer.scratch.writeBlock 0 data, phase := .wantPrefix, point := .dispatch })

/-- `ITER.PREFIX` (R182). -/
def execIterPrefix (s : State) : Outcome :=
  iterEntry s (s.consumer.phase = .wantPrefix ∧ s.consumer.point = .read) (.next (readPrefix s))

/-- `ITER.VALIDATE` (R183). -/
def execIterValidate (s : State) : Outcome :=
  match s.consumer.point with
  | .validate h => whenRunning s (.next (validatePrefix h s))
  | _ => whenRunning s (.refused .rowNotSelected)

/-- `ITER.BODY` (R184). -/
def execIterBody (s : State) : Outcome :=
  iterEntry s (s.consumer.phase = .wantBody ∧ s.consumer.point = .read) (readBody s)

/-- `ITER.DISPATCH` (R185). -/
def execIterDispatch (s : State) : Outcome :=
  iterEntry s (s.consumer.point = .dispatch) (runCommand s.opcode s)

/-- `ITER.YIELD` (R186): the next iteration begins; a point where the others may act, as every transaction boundary is
(R59). -/
def execIterYield (s : State) : Outcome :=
  iterEntry s (s.consumer.point = .yield) (.next ((s.call [.yield]).goToPoint .read))

end Sys2Proof.Machine
end

