-- ==== Sys2Proof/Machine/Crc8.lean ====
section
/-! DEFINITION. The CRC-8 family (40_crc8): pure, they hand back one byte and change nothing else (R118). -/

namespace Sys2Proof.Machine

/-- `CRC8.STEP c, b` (R113). -/
def execCrcStep (c b : Byte) (s : State) : Outcome :=
  whenRunning s (.next (s.withRet (.byte (crcStep c b))))

/-- `CRC8.TABGEN i` (R111). -/
def execCrcTabgen (index : Byte) (s : State) : Outcome :=
  whenRunning s (.next (s.withRet (.byte (crcTab index))))

/-- `CRC8.SUM seed, s` (R114). -/
def execCrcSum (seed : Byte) (bytes : List Byte) (s : State) : Outcome :=
  whenRunning s (.next (s.withRet (.byte (crc8 seed bytes))))

end Sys2Proof.Machine
end

