-- ==== Sys2Proof/Machine/Fifo.lean ====
section
/-! DEFINITION. The FIFO family (42_fifo): `PUT`, `GET`, `RESET`, and the rows for a block that does not fit and for a
queue that is too short. -/

namespace Sys2Proof.Machine

/-- `PUT s` (R160, R161): appended when it fits, the overflow reset when it does not. -/
def execPut (bytes : List Byte) (s : State) : Outcome :=
  whenRunning s (.next ((putBlock bytes s).2.withRet (.count (putBlock bytes s).1)))

/-- `PUT.OVERFLOW` (R161): the row for `n > C - cnt`. -/
def execPutOverflow (bytes : List Byte) (s : State) : Outcome :=
  whenRunning s
    (if s.freeSpace < bytes.length then
      .next ((putOverflowing bytes s).2.withRet (.count (putOverflowing bytes s).1))
    else .refused .rowNotSelected)

/-- `GET want` (R162, R163): removes `want` bytes when they are there, and otherwise returns 0 and changes nothing. -/
def execGet (want : Word) (s : State) : Outcome :=
  whenRunning s (.next (getBlock want s).2.2)

/-- `GET.SHORT` (R163): the row for `want > cnt`. -/
def execGetShort (want : Word) (s : State) : Outcome :=
  whenRunning s
    (if s.queue.cnt.toNat < want.toNat then .next (s.withRet (.got 0 []))
    else .refused .rowNotSelected)

/-- `RESET` (R164). -/
def execReset (s : State) : Outcome :=
  whenRunning s (.next (resetQueue s))

end Sys2Proof.Machine
end

