-- ==== Sys2Proof/Machine/ParserRows.lean ====
section
/-! DEFINITION. The twelve transitions of the parser (41_parser, R131 to R142), as operations on the state after the store
of R130, and the `RX` transaction they belong to. -/

namespace Sys2Proof.Machine

/-- The parser goes to the next field (R149): `st` and `cur` together are its sequencing state (R26). -/
def State.goTo (t : State) (st : ParserState) (cur : Word) : State :=
  t.withParser { t.parser with st := st, cur := cur }

/-- `len <- l`. -/
def State.setLen (t : State) (l : Word) : State := t.withParser { t.parser with len := l }

/-- The parser's local reset, in the state. -/
def State.parserReset (t : State) : State := t.withParser t.parser.localReset

/-- R131: the cursor is 1 after the sentinel (C9); `len` is not touched. -/
def rowHdrSof (t : State) : State := t.goTo .length0 1

/-- R132. -/
def rowHdrNoise (b : Byte) (t : State) : State := t.parserReset.emit (.badSentinel b)

/-- R133: `len` is overwritten (D24). -/
def rowLen0 (b : Byte) (t : State) : State := (t.setLen (b.setWidth 32 <<< 24)).goTo .length1 2

/-- R134. -/
def rowLen1 (b : Byte) (t : State) : State :=
  (t.setLen (t.parser.len ||| (b.setWidth 32 <<< 16))).goTo .length2 3

/-- R135. -/
def rowLen2 (b : Byte) (t : State) : State :=
  (t.setLen (t.parser.len ||| (b.setWidth 32 <<< 8))).goTo .length3 4

/-- R136. -/
def rowLen3Ok (b : Byte) (t : State) : State := (t.setLen (lengthWith t.parser.len b)).goTo .command 5

/-- R137: `len <- L` although the length is rejected. -/
def rowLen3Bad (b : Byte) (t : State) : State :=
  (t.setLen (lengthWith t.parser.len b)).parserReset.emit (.lenRange (lengthWith t.parser.len b))

/-- R138. -/
def rowCmd (t : State) : State := t.goTo .data 6

/-- R139. -/
def rowDataMore (t : State) : State := t.goTo .data (t.parser.cur + 1)

/-- R140. -/
def rowDataLast (t : State) : State := t.goTo .crc (t.parser.cur + 1)

/-- R141: the whole frame `buf[0 .. len+5)` goes to the queue, and its count is discarded; then the event, then the local
reset (R222 gives the order of the events). -/
def rowCrcOk (t : State) : State :=
  ((putBlock (t.bufRange (t.parser.len.toNat + 5)) t).2.emit (.frameAccepted t.parser.len)).parserReset

/-- R142. -/
def rowCrcBad (b : Byte) (t : State) : State := (t.emit (.crcMismatch t.parser.len b)).parserReset

/-- What happens around a row (R130): in a state of R26's table (else U10's fault), the row that the byte belongs to (else
no meaning), at an index inside the buffer (else U11's fault), the byte is stored and the row runs. -/
def rxEntry (b : Byte) (s : State) (selected : Bool) (row : State → State) : Outcome :=
  whenRunning s
    (if !s.parser.pairOk then .fault .unreachableParserState
    else if !selected then .refused .rowNotSelected
    else if s.params.maxFrame ≤ s.parser.cur.toNat then .fault .bufIndexOutOfRange
    else .next (row (s.storeByte b)))

/-- The case distinction of R130, on the state after the store. -/
def rxRow (b : Byte) (t : State) : State :=
  match t.parser.st with
  | .header => if isSentinel b then rowHdrSof t else rowHdrNoise b t
  | .length0 => rowLen0 b t
  | .length1 => rowLen1 b t
  | .length2 => rowLen2 b t
  | .length3 =>
    if lengthInRange t.params.maxFrame (lengthWith t.parser.len b) then rowLen3Ok b t else rowLen3Bad b t
  | .command => rowCmd t
  | .data => if lastData t.parser.cur t.parser.len then rowDataLast t else rowDataMore t
  | .crc => if b = t.frameCrc then rowCrcOk t else rowCrcBad b t

/-- One `RX` transaction (R130): always enabled, exactly one row fires (R165, D25). -/
def rxByte (b : Byte) (s : State) : Outcome := rxEntry b s true (rxRow b)

/-- A run of `RX` transactions, in the order written (R91). -/
def rxAll : List Byte → State → Outcome
  | [], s => .next s
  | b :: rest, s =>
    match rxByte b s with
    | .next t => rxAll rest t
    | .fault f => .fault f
    | .refused r => .refused r

end Sys2Proof.Machine
end

