-- ==== Sys2Proof/Machine/Parser.lean ====
section
/-! DEFINITION. The parser family (41_parser): one meaning for each of the twelve rows, each with its precondition (R85),
and the wire frame as a run of `RX` (R80, R91). -/

namespace Sys2Proof.Machine

/-- `HDR.SOF` (R131). -/
def execHdrSof (s : State) : Outcome :=
  rxEntry Config.sentinel s (s.parser.st == .header) rowHdrSof

/-- `HDR.NOISE` (R132). -/
def execHdrNoise (b : Byte) (s : State) : Outcome :=
  rxEntry b s (s.parser.st == .header && !isSentinel b) (rowHdrNoise b)

/-- `LEN0` (R133). -/
def execLen0 (b : Byte) (s : State) : Outcome :=
  rxEntry b s (s.parser.st == .length0) (rowLen0 b)

/-- `LEN1` (R134). -/
def execLen1 (b : Byte) (s : State) : Outcome :=
  rxEntry b s (s.parser.st == .length1) (rowLen1 b)

/-- `LEN2` (R135). -/
def execLen2 (b : Byte) (s : State) : Outcome :=
  rxEntry b s (s.parser.st == .length2) (rowLen2 b)

/-- `LEN3.OK` (R136). -/
def execLen3Ok (b : Byte) (s : State) : Outcome :=
  rxEntry b s (s.parser.st == .length3 && lengthInRange s.params.maxFrame (lengthWith s.parser.len b)) (rowLen3Ok b)

/-- `LEN3.BAD` (R137). -/
def execLen3Bad (b : Byte) (s : State) : Outcome :=
  rxEntry b s (s.parser.st == .length3 && !lengthInRange s.params.maxFrame (lengthWith s.parser.len b)) (rowLen3Bad b)

/-- `CMD` (R138). -/
def execCmd (b : Byte) (s : State) : Outcome :=
  rxEntry b s (s.parser.st == .command) rowCmd

/-- `DATA.MORE` (R139). -/
def execDataMore (b : Byte) (s : State) : Outcome :=
  rxEntry b s (s.parser.st == .data && moreData s.parser.cur s.parser.len) rowDataMore

/-- `DATA.LAST` (R140). -/
def execDataLast (b : Byte) (s : State) : Outcome :=
  rxEntry b s (s.parser.st == .data && lastData s.parser.cur s.parser.len) rowDataLast

/-- `CRC.OK` (R141). -/
def execCrcOk (b : Byte) (s : State) : Outcome :=
  rxEntry b s (s.parser.st == .crc && b == s.frameCrc) rowCrcOk

/-- `CRC.BAD` (R142). -/
def execCrcBad (b : Byte) (s : State) : Outcome :=
  rxEntry b s (s.parser.st == .crc && b != s.frameCrc) (rowCrcBad b)

/-- `FRAME` (R80, R91): the producer delivers the frame's bytes in order, nothing between them (log 11). -/
def execFrame (command : Byte) (payload : List Byte) (s : State) : Outcome :=
  whenRunning s (rxAll (frameBytes command payload) s)

end Sys2Proof.Machine
end

