-- ==== Sys2Proof/Machine/Port.lean ====
section
/-! DEFINITION. The port operations that are neither the FIFO's nor the CRC engine's (R90): `NOP`, `RX`, the reserved
code, `HRESET`. -/

namespace Sys2Proof.Machine

/-- `NOP` (R90): no state change. -/
def execNop (s : State) : Outcome := whenRunning s (.next s)

/-- `RX b` (R130). -/
def execRx (b : Byte) (s : State) : Outcome := rxByte b s

/-- Port code 0b110 (R90, U12): "reserved; a model refuses it". -/
def execReserved110 (s : State) : Outcome := whenRunning s (.refused .reservedOperation)

/-- The state `HRESET` leaves (R240, R35): the parser in (`Header`, 0), `len` 0, the queue empty, every byte of the
memories arbitrary, the consumer at the start of its loop with `need` arbitrary. The parameters, what has gone out and
what will be asked for stay (log 14). -/
def hardwareReset (s : State) : State :=
  ((s.nextEpoch.withParser ⟨.header, 0, 0, []⟩).withQueue ⟨[], 0, 0⟩).withConsumer
    ⟨.wantPrefix, Config.arbitraryNeed (s.epoch + 1), [], .read⟩

/-- `HRESET` (R240): at any transaction boundary (U20), after the reboot call too (R191). -/
def execHreset (s : State) : Outcome :=
  if paramsWellFormed s.params then .next (hardwareReset s) else .refused .illFormedParameters

end Sys2Proof.Machine
end

