-- ==== Sys2Proof/Machine/Dispatch.lean ====
section
/-! DEFINITION. The dispatch of an instruction to its meaning, one arm per constructor, in the opcode table's order. -/

namespace Sys2Proof.Machine

def exec (i : Instr) (s : State) : Host.Outcome State Fault Refusal :=
  match i with
  | .nop => Sys2Proof.Machine.execNop s
  | .rx b => Sys2Proof.Machine.execRx b s
  | .get want => Sys2Proof.Machine.execGet want s
  | .getShort want => Sys2Proof.Machine.execGetShort want s
  | .reset => Sys2Proof.Machine.execReset s
  | .crcStep c b => Sys2Proof.Machine.execCrcStep c b s
  | .crcTabgen index => Sys2Proof.Machine.execCrcTabgen index s
  | .reserved110 => Sys2Proof.Machine.execReserved110 s
  | .hreset => Sys2Proof.Machine.execHreset s
  | .put bytes => Sys2Proof.Machine.execPut bytes s
  | .putOverflow bytes => Sys2Proof.Machine.execPutOverflow bytes s
  | .crcSum seed bytes => Sys2Proof.Machine.execCrcSum seed bytes s
  | .hdrSof => Sys2Proof.Machine.execHdrSof s
  | .hdrNoise b => Sys2Proof.Machine.execHdrNoise b s
  | .len0 b => Sys2Proof.Machine.execLen0 b s
  | .len1 b => Sys2Proof.Machine.execLen1 b s
  | .len2 b => Sys2Proof.Machine.execLen2 b s
  | .len3Ok b => Sys2Proof.Machine.execLen3Ok b s
  | .len3Bad b => Sys2Proof.Machine.execLen3Bad b s
  | .cmd b => Sys2Proof.Machine.execCmd b s
  | .dataMore b => Sys2Proof.Machine.execDataMore b s
  | .dataLast b => Sys2Proof.Machine.execDataLast b s
  | .crcOk b => Sys2Proof.Machine.execCrcOk b s
  | .crcBad b => Sys2Proof.Machine.execCrcBad b s
  | .frame command payload => Sys2Proof.Machine.execFrame command payload s
  | .setBrightness => Sys2Proof.Machine.execSetBrightness s
  | .clearScreen => Sys2Proof.Machine.execClearScreen s
  | .blitJpg => Sys2Proof.Machine.execBlitJpg s
  | .blitPng => Sys2Proof.Machine.execBlitPng s
  | .rebootToFel => Sys2Proof.Machine.execRebootToFel s
  | .unknownCmd opcode => Sys2Proof.Machine.execUnknownCmd opcode s
  | .iterPrefix => Sys2Proof.Machine.execIterPrefix s
  | .iterValidate => Sys2Proof.Machine.execIterValidate s
  | .iterBody => Sys2Proof.Machine.execIterBody s
  | .iterDispatch => Sys2Proof.Machine.execIterDispatch s
  | .iterYield => Sys2Proof.Machine.execIterYield s
  | .ack => Sys2Proof.Machine.execAck s

end Sys2Proof.Machine
end

