-- ==== Sys2Proof/Machine/Fetch.lean ====
section
/-! DEFINITION. Which transaction the machine takes next. The block fetches no instructions (R26): the agents ask for
transactions, `State.pending` holds what they will ask for, in the order in which the block serialises them (R58, R59;
log 7). -/

namespace Sys2Proof.Machine

/-- What comes next: nothing (the block has no spontaneous step, R3), an instruction with the state it runs on, or an
execution the spec gives no meaning to. -/
inductive Fetched where
  | idle
  | run (i : Instr) (s : State)
  | refuse (r : Refusal)
deriving DecidableEq, Repr

/-- Port ownership (R225, R229, R63): `RX` is the producer's, `GET` and `RESET` the consumer's, `HRESET` the platform's;
the rest anyone may use (R90, D28). A further context is a second producer or consumer (R244, R245). -/
def portRefusal (a : Agent) (i : Instr) : Option Refusal :=
  match i with
  | .rx _ =>
    match a with
    | .producer => none
    | .other _ => some .secondProducer
    | _ => some .wrongAgent
  | .get _ | .getShort _ | .reset =>
    match a with
    | .consumer => none
    | .other _ => some .secondConsumer
    | _ => some .wrongAgent
  | .hreset => if a = .platform then none else some .wrongAgent
  | _ => none

/-- The consumer's next step (R181 to R186): none inside the reboot call (R191). -/
def nextIter (c : Consumer) : Option Instr :=
  match c.point with
  | .read =>
    match c.phase with
    | .wantPrefix => some .iterPrefix
    | .wantBody => some .iterBody
  | .validate _ => some .iterValidate
  | .dispatch => some .iterDispatch
  | .yield => some .iterYield
  | .rebooting => none

/-- A port word from an agent. Operand bytes that the operation does not have are ignored (log 8). -/
def fetchPort (a : Agent) (word : List Byte) (s : State) : Fetched :=
  match decode s.decodeContext .port word with
  | .error e => .refuse (.undecodable e)
  | .ok (i, _) =>
    match portRefusal a i with
    | some r => .refuse r
    | none => .run i s

/-- The consumer's turn. -/
def fetchTurn (s : State) : Fetched :=
  match nextIter s.consumer with
  | some i => .run i s
  | none => .refuse .runEnded

/-- The next transaction, taken off the list. -/
def fetch (s : State) : Fetched :=
  match s.pending with
  | [] => .idle
  | .port a word :: rest => fetchPort a word (s.withPending rest)
  | .turn :: rest => fetchTurn (s.withPending rest)

/-- Who may issue a port word: the owner of its operation (R225). -/
def ownerOf (op : Byte) : Agent :=
  match (op.extractLsb' 0 3).toNat with
  | 1 => .producer
  | 2 | 3 => .consumer
  | 7 => .platform
  | _ => .producer

/-- `s` with a word of the opcode table as its next transaction (log 9). A port word is asked for by the owner of its
operation; an RX byte is delivered by the producer to a parser in `Header`; an opcode stands in `scratch[0]` and the
consumer is about to dispatch. -/
def placeTableWord (s : State) (nbits w : Nat) : State :=
  let bytes := tableBytes (w % 2 ^ nbits) 5
  match tableSpace nbits w with
  | .rxByte =>
    (s.withParser { s.parser with st := .header, cur := 0 }).withPending
      (.port .producer (0x01 :: bytes) :: s.pending)
  | .command =>
    (s.withConsumer { s.consumer with
      scratch := s.consumer.scratch.writeBlock 0 (bytes.take 1), point := .dispatch }).withPending
      (.turn :: s.pending)
  | _ => s.withPending (.port (ownerOf (bytes.headD 0)) bytes :: s.pending)

end Sys2Proof.Machine
end

