-- ==== Sys2Proof/Machine/Step.lean ====
section
/-! DEFINITION. One step: one transaction (R8). -/

namespace Sys2Proof.Machine

/-- One transaction of the agent whose turn it is; nothing happens when none is asked for (R3, R57). -/
def step (s : State) : Host.Outcome State Fault Refusal :=
  match fetch s with
  | .idle => .next s
  | .run i t => exec i t
  | .refuse r => .refused r

/-- `s` with a word of the opcode table as its next transaction. -/
def State.withFetchWord (s : State) (nbits w : Nat) : State := placeTableWord s nbits w

end Sys2Proof.Machine
end

