-- ==== Sys2Proof/Machine/Run.lean ====
section
/-! DEFINITION. Runs of the machine with its agents (R3, R58, R59), and the fairness between the agents that R255 asks for:
"A model expresses this as weak fairness between the agents, not as time". -/

namespace Sys2Proof.Machine

/-- What happens at one moment of a run (log 26). -/
inductive Act where
  /-- Nobody acts. -/
  | idle
  /-- The producer delivers the oldest byte that has arrived (R58 (a)). -/
  | deliver
  /-- The consumer takes its next step of `ITER` (R182 to R186). -/
  | turn
  /-- An agent asks for another port operation than `RX`. -/
  | ask (agent : Agent) (word : List Byte)
deriving DecidableEq, Repr

/-- The moment `a` leads from `s` to `t`, and from the bytes `waiting` at the producer to `left`. Each is one step of the
machine with that one request: the run's `act` stands for what the agents ask for, in place of `State.pending`. -/
def Act.leads (a : Act) (s : State) (waiting : List Byte) (t : State) (left : List Byte) : Prop :=
  match a with
  | .idle => t = s ∧ left = waiting
  | .deliver => ∃ b, waiting = b :: left ∧ step (s.withPending [.port .producer [0x01, b]]) = .next t
  | .turn => left = waiting ∧ step (s.withPending [.turn]) = .next t
  | .ask agent word =>
    left = waiting ∧ (∀ b more, decode s.decodeContext .port word ≠ .ok (.rx b, more)) ∧
      step (s.withPending [.port agent word]) = .next t

/-- The agent whose action `a` is can act: there is a next state. -/
def Act.Enabled (a : Act) (s : State) (waiting : List Byte) : Prop :=
  ∃ t left, a.leads s waiting t left

/-- An infinite run (R57 to R59): at each moment one agent acts, or none, and bytes may arrive behind those that wait. -/
def IsRun (state : Nat → State) (act : Nat → Act) (inbox : Nat → List Byte) : Prop :=
  ∀ n, ∃ left arrived,
    (act n).leads (state n) (inbox n) (state (n + 1)) left ∧ inbox (n + 1) = left ++ arrived

/-- Weak fairness for one action: whoever could take it at every moment from `n` on takes it at some moment from `n` on. -/
def WeaklyFair (a : Act) (state : Nat → State) (act : Nat → Act) (inbox : Nat → List Byte) : Prop :=
  ∀ n, (∀ m, n ≤ m → a.Enabled (state m) (inbox m)) → ∃ m, n ≤ m ∧ act m = a

/-- A fair run (R255): "no task starves siblings". Neither the producer, with bytes waiting, nor the consumer's loop is
passed over for ever. -/
def FairRun (state : Nat → State) (act : Nat → Act) (inbox : Nat → List Byte) : Prop :=
  IsRun state act inbox ∧ WeaklyFair .deliver state act inbox ∧ WeaklyFair .turn state act inbox

end Sys2Proof.Machine
end

