-- ==== Sys2Proof/Safety.lean ====
section
/-! DEFINITION. The terms that claims use: the invariants the spec states (R26, R29, R30, R64), what a run that stays
inside them is, what a frame stream is (R166), and what an instruction may leave unchanged. -/

namespace Sys2Proof.Machine

/-- A transaction can run: well-formed parameters (R7), and the run is not over (R191). -/
abbrev Running (s : State) : Prop :=
  paramsWellFormed s.params = true ∧ s.consumer.point ≠ .rebooting

/-- R29: `rd < C`, `cnt ≤ C`. -/
abbrev QueueOk (s : State) : Prop :=
  s.queue.rd.toNat < s.params.fifoCapacity ∧ s.queue.cnt.toNat ≤ s.params.fifoCapacity

/-! ### The invariants -/

/-- R26's table, all three columns: the (`st`, `cur`) pair, and what `len` holds there. -/
def parserInv (s : State) : Bool :=
  s.parser.pairOk &&
  match s.parser.st with
  | .header | .length0 => true
  | .length1 => s.parser.len.extractLsb' 0 24 == 0
  | .length2 => s.parser.len.extractLsb' 0 16 == 0
  | .length3 => s.parser.len.extractLsb' 0 8 == 0
  | .command | .data | .crc => lengthInRange s.params.maxFrame s.parser.len

/-- R29, and every byte of `fifo` has been written since the last `HRESET` (R35: never part of `fifo` until written). -/
def queueInv (s : State) : Bool :=
  decide (QueueOk s) &&
  (List.range s.queue.cnt.toNat).all fun i =>
    (s.queue.q.read ((s.queue.rd.toNat + i) % s.params.fifoCapacity)).isSome

/-- R181 to R184: in `WantBody`, `need` has passed step 2's test and the consumer reads or yields; at step 4 the body just
read had such a length. -/
def consumerInv (s : State) : Bool :=
  match s.consumer.phase, s.consumer.point with
  | .wantBody, .read | .wantBody, .yield => bodyLengthOk s.params s.consumer.need
  | .wantBody, _ => false
  | .wantPrefix, .dispatch => bodyLengthOk s.params s.consumer.need
  | .wantPrefix, _ => true

/-- The memories are in canonical form and of their sizes (R50). -/
def memoryInv (s : State) : Bool :=
  s.parser.buf.wf && s.parser.buf.within s.params.maxFrame &&
  (s.queue.q.wf && s.queue.q.within s.params.fifoCapacity) &&
  (s.consumer.scratch.wf && s.consumer.scratch.within s.params.maxFrame)

/-- R25, R64: the bytes of the frame in progress stand in `buf` from index 0, beginning with the sentinel, and `len` is
what the length bytes received so far make (R24). -/
def frameHeld (s : State) : Bool :=
  ((List.range s.parser.cur.toNat).all fun i => (s.parser.buf.read i).isSome) &&
  (s.parser.st == .header || s.readBuf 0 == Config.sentinel) &&
  match s.parser.st with
  | .header | .length0 => true
  | .length1 => s.parser.len == be32 (s.readBuf 1) 0 0 0
  | .length2 => s.parser.len == be32 (s.readBuf 1) (s.readBuf 2) 0 0
  | .length3 => s.parser.len == be32 (s.readBuf 1) (s.readBuf 2) (s.readBuf 3) 0
  | .command | .data | .crc => s.parser.len == be32 (s.readBuf 1) (s.readBuf 2) (s.readBuf 3) (s.readBuf 4)

/-- The invariant of the machine: well-formed parameters and all of the above. -/
def Inv (s : State) : Bool :=
  paramsWellFormed s.params && parserInv s && queueInv s && consumerInv s && memoryInv s && frameHeld s

/-- A run is safe as long as no step faults. -/
def SafeStep (s : State) : Prop := ∀ f, step s ≠ .fault f

/-! ### Frames and alignment (R80, R82, R166) -/

/-- A whole frame whose length the parser accepts (R80, R82). -/
def ValidFrame (maxFrame : Nat) (f : List Byte) : Prop :=
  ∃ command payload, f = frameBytes command payload ∧ Config.lenMinExcl < payload.length + 2 ∧
    payload.length + 2 < maxFrame - 5

/-- A concatenation of zero or more whole valid frames (R166). -/
def FrameStream (maxFrame : Nat) (bytes : List Byte) : Prop :=
  ∃ frames : List (List Byte), (∀ f ∈ frames, ValidFrame maxFrame f) ∧ bytes = frames.flatten

/-- The five bytes of a dequeued prefix. -/
def FrameHead.bytes (h : FrameHead) : List Byte := [h.marker, h.l1, h.l2, h.l3, h.l4]

/-- The queue begins with the rest of the frame whose prefix `h` has been removed, and a frame stream follows. -/
def HoldsBodyOf (s : State) (h : FrameHead) : Prop :=
  ∃ body rest, s.fifo = body ++ rest ∧ ValidFrame s.params.maxFrame (h.bytes ++ body) ∧
    FrameStream s.params.maxFrame rest

/-- R166: `fifo` is a concatenation of whole valid frames, optionally preceded by the last `L` bytes of a frame whose
prefix the consumer has removed. -/
def Aligned (s : State) : Prop :=
  match s.consumer.phase, s.consumer.point with
  | .wantBody, _ => ∃ h : FrameHead, HoldsBodyOf s h ∧ s.consumer.need = h.length
  | .wantPrefix, .validate h => HoldsBodyOf s h
  | .wantPrefix, _ => FrameStream s.params.maxFrame s.fifo

/-- The consumer has removed a prefix and not its body (R246). -/
def HoldsPrefix (s : State) : Prop :=
  s.consumer.phase = .wantBody ∨ ∃ h, s.consumer.point = .validate h

/-- A frame that ends with the next byte fits the queue (R160). -/
def NextFrameFits (s : State) : Prop :=
  s.parser.st = .crc → s.parser.len.toNat + 5 ≤ s.freeSpace

/-! ### What an instruction leaves unchanged -/

/-- Everything outside the block and the consumer stays: parameters, what was handed back, the calls made, the requests,
the model's two counters. The ghost trace is stated where it matters. -/
def SameOutside (s t : State) : Prop :=
  t.params = s.params ∧ t.calls = s.calls ∧ t.pending = s.pending ∧ t.epoch = s.epoch ∧ t.draws = s.draws

/-- Only the parser (and the ghost trace) may change: the queue, the consumer, every byte of `Q` and `SCRATCH`, and the
value last handed back stay. -/
def ParserOnly (s t : State) : Prop :=
  t.queue = s.queue ∧ t.consumer = s.consumer ∧ t.ret = s.ret ∧ SameOutside s t

/-- Only the queue, the value handed back and the ghost trace may change: every byte of `BUF` and `SCRATCH` stays. -/
def QueueOnly (s t : State) : Prop :=
  t.parser = s.parser ∧ t.consumer = s.consumer ∧ SameOutside s t

/-- Byte `b` is stored at index `a` of `BUF`, and every other byte of `BUF` reads as before. -/
def StoresInBuf (s t : State) (a : Nat) (b : Byte) : Prop :=
  t.parser.buf.read a = some b ∧ ∀ x, x ≠ a → t.parser.buf.read x = s.parser.buf.read x

/-- `len`, and the pair (`st`, `cur`), have these values. -/
def ParserAt (t : State) (st : ParserState) (cur : Nat) (len : Word) : Prop :=
  t.parser.st = st ∧ t.parser.cur.toNat = cur ∧ t.parser.len = len

/-- What `PUT` leaves of the queue (R160, R161): a block that fits goes after the queued bytes, written at the ring positions
of R56 and nowhere else; one that does not fit empties the queue, and is dropped too unless `OVERFLOW_KEEPS_NEW` and it
fits an empty ring. -/
def PutEffect (s t : State) (bytes : List Byte) : Prop :=
  (bytes.length ≤ s.freeSpace →
    t.fifo = s.fifo ++ bytes ∧ t.queue.rd = s.queue.rd ∧
    t.queue.cnt.toNat = s.queue.cnt.toNat + bytes.length ∧
    ∀ a, (∀ i, i < bytes.length → a ≠ (s.queue.rd.toNat + s.queue.cnt.toNat + i) % s.params.fifoCapacity) →
      t.queue.q.read a = s.queue.q.read a) ∧
  (s.freeSpace < bytes.length → s.params.overflowKeepsNew = false ∨ s.params.fifoCapacity < bytes.length →
    t.fifo = [] ∧ t.queue.rd = 0 ∧ t.queue.cnt = 0 ∧ t.queue.q = s.queue.q) ∧
  (s.freeSpace < bytes.length → s.params.overflowKeepsNew = true → bytes.length ≤ s.params.fifoCapacity →
    t.fifo = bytes ∧ t.queue.rd = 0 ∧ t.queue.cnt.toNat = bytes.length ∧
    ∀ a, (∀ i, i < bytes.length → a ≠ i % s.params.fifoCapacity) → t.queue.q.read a = s.queue.q.read a)

/-- The events of a `PUT`: none when the block fits (R160), the overflow otherwise (R161). -/
def putEvents (s : State) (bytes : List Byte) : List Event :=
  if bytes.length ≤ s.freeSpace then [] else [.fifoOverflow bytes.length s.queue.cnt]

/-- `written_count` (R160, R161). -/
def writtenCount (s : State) (bytes : List Byte) : Nat :=
  if bytes.length ≤ s.freeSpace then bytes.length
  else if s.params.overflowKeepsNew = true ∧ bytes.length ≤ s.params.fifoCapacity then bytes.length
  else 0

/-- Only the consumer's place in its loop may change, of the consumer: `phase`, `need` and every byte of `SCRATCH` stay. -/
def ConsumerKeeps (s t : State) : Prop :=
  t.consumer.phase = s.consumer.phase ∧ t.consumer.need = s.consumer.need ∧ t.consumer.scratch = s.consumer.scratch

/-- How many acknowledgements have been sent (R193). -/
def acks (s : State) : Nat := s.calls.count ackCall

/-- Only the consumer's place in its loop, the calls it has made and the decoder's counter may change: the block, `phase`,
`need` and every byte of `SCRATCH` stay. -/
def CommandOnly (s t : State) : Prop :=
  t.params = s.params ∧ t.parser = s.parser ∧ t.queue = s.queue ∧ t.consumer.phase = s.consumer.phase ∧
  t.consumer.need = s.consumer.need ∧ t.consumer.scratch = s.consumer.scratch ∧ t.ret = s.ret ∧ t.trace = s.trace ∧
  t.pending = s.pending ∧ t.epoch = s.epoch

/-- The state with another ghost trace (R220: two states that differ only in it are the same state). -/
def State.withTrace (s : State) (tr : List Event) : State := { s with trace := tr }

/-- A run of instructions, stopping at the first fault or refusal. -/
def execAll : List Instr → State → Outcome
  | [], s => .next s
  | i :: rest, s =>
    match exec i s with
    | .next t => execAll rest t
    | .fault f => .fault f
    | .refused r => .refused r

/-! ### The table as the spec lists it -/

/-- The listing of R112, rows 0x to Fx. -/
def tableListing : List Byte :=
  [0x00, 0x5E, 0xBC, 0xE2, 0x61, 0x3F, 0xDD, 0x83, 0xC2, 0x9C, 0x7E, 0x20, 0xA3, 0xFD, 0x1F, 0x41] ++
  [0x9D, 0xC3, 0x21, 0x7F, 0xFC, 0xA2, 0x40, 0x1E, 0x5F, 0x01, 0xE3, 0xBD, 0x3E, 0x60, 0x82, 0xDC] ++
  [0x23, 0x7D, 0x9F, 0xC1, 0x42, 0x1C, 0xFE, 0xA0, 0xE1, 0xBF, 0x5D, 0x03, 0x80, 0xDE, 0x3C, 0x62] ++
  [0xBE, 0xE0, 0x02, 0x5C, 0xDF, 0x81, 0x63, 0x3D, 0x7C, 0x22, 0xC0, 0x9E, 0x1D, 0x43, 0xA1, 0xFF] ++
  [0x46, 0x18, 0xFA, 0xA4, 0x27, 0x79, 0x9B, 0xC5, 0x84, 0xDA, 0x38, 0x66, 0xE5, 0xBB, 0x59, 0x07] ++
  [0xDB, 0x85, 0x67, 0x39, 0xBA, 0xE4, 0x06, 0x58, 0x19, 0x47, 0xA5, 0xFB, 0x78, 0x26, 0xC4, 0x9A] ++
  [0x65, 0x3B, 0xD9, 0x87, 0x04, 0x5A, 0xB8, 0xE6, 0xA7, 0xF9, 0x1B, 0x45, 0xC6, 0x98, 0x7A, 0x24] ++
  [0xF8, 0xA6, 0x44, 0x1A, 0x99, 0xC7, 0x25, 0x7B, 0x3A, 0x64, 0x86, 0xD8, 0x5B, 0x05, 0xE7, 0xB9] ++
  [0x8C, 0xD2, 0x30, 0x6E, 0xED, 0xB3, 0x51, 0x0F, 0x4E, 0x10, 0xF2, 0xAC, 0x2F, 0x71, 0x93, 0xCD] ++
  [0x11, 0x4F, 0xAD, 0xF3, 0x70, 0x2E, 0xCC, 0x92, 0xD3, 0x8D, 0x6F, 0x31, 0xB2, 0xEC, 0x0E, 0x50] ++
  [0xAF, 0xF1, 0x13, 0x4D, 0xCE, 0x90, 0x72, 0x2C, 0x6D, 0x33, 0xD1, 0x8F, 0x0C, 0x52, 0xB0, 0xEE] ++
  [0x32, 0x6C, 0x8E, 0xD0, 0x53, 0x0D, 0xEF, 0xB1, 0xF0, 0xAE, 0x4C, 0x12, 0x91, 0xCF, 0x2D, 0x73] ++
  [0xCA, 0x94, 0x76, 0x28, 0xAB, 0xF5, 0x17, 0x49, 0x08, 0x56, 0xB4, 0xEA, 0x69, 0x37, 0xD5, 0x8B] ++
  [0x57, 0x09, 0xEB, 0xB5, 0x36, 0x68, 0x8A, 0xD4, 0x95, 0xCB, 0x29, 0x77, 0xF4, 0xAA, 0x48, 0x16] ++
  [0xE9, 0xB7, 0x55, 0x0B, 0x88, 0xD6, 0x34, 0x6A, 0x2B, 0x75, 0x97, 0xC9, 0x4A, 0x14, 0xF6, 0xA8] ++
  [0x74, 0x2A, 0xC8, 0x96, 0x15, 0x4B, 0xA9, 0xF7, 0xB6, 0xE8, 0x0A, 0x54, 0xD7, 0x89, 0x6B, 0x35]

/-- An entry of the listing. -/
def listed (i : Byte) : Byte := tableListing.getD i.toNat 0

end Sys2Proof.Machine
end

