-- ==== Sys2Proof/Certificates/Slice0/Obligations.lean ====
section
/-! DEFINITION. The statements for the provers: what the spec's numbered rules say the block, and its consumer, do. -/

open Sys2Proof Sys2Proof.Machine

/-! ### The CRC-8 engine (40_crc8) -/

/-- R90: "NOP ... no state change". -/
def Obligations.NopChangesNothing : Prop :=
  ∀ s : State, Running s → exec .nop s = .next s

/-- R111, R112: `CRC8.TABGEN i` returns the entry the spec lists, and changes nothing else. -/
def Obligations.TabgenReturnsTheListedEntry : Prop :=
  ∀ (i : Byte) (s : State), Running s → exec (.crcTabgen i) s = .next (s.withRet (.byte (listed i)))

/-- R113: `c' <- tab[c XOR b]`, on the listed table, and nothing else changes. -/
def Obligations.CrcStepIndexesTheTableByXor : Prop :=
  ∀ (c b : Byte) (s : State), Running s → exec (.crcStep c b) s = .next (s.withRet (.byte (listed (c ^^^ b))))

/-- R114: the left fold of the step, empty input gives the seed, splitting is free; nothing else changes. -/
def Obligations.CrcSumFoldsTheBytesInOrder : Prop :=
  ∀ (seed : Byte) (x : List Byte) (s : State), Running s →
    ∃ v, exec (.crcSum seed x) s = .next (s.withRet (.byte v)) ∧
      (x = [] → v = seed) ∧
      (∀ y b, x = y ++ [b] → v = crcTab (crc8 seed y ^^^ b)) ∧
      (∀ y z, x = y ++ z → v = crc8 (crc8 seed y) z)

/-- R115 (a), (c), (d): the table is linear and a permutation, and a sequence followed by its own CRC has CRC zero. -/
def Obligations.CrcTableIsLinearAndInvertible : Prop :=
  (∀ a b : Byte, crcTab (a ^^^ b) = crcTab a ^^^ crcTab b) ∧ Function.Injective crcTab ∧
    ∀ (seed : Byte) (x : List Byte), crc8 seed (x ++ [crc8 seed x]) = 0

/-- R115 (b): two sequences that differ in exactly one byte have different CRCs from the same seed. -/
def Obligations.CrcDetectsOneAlteredByte : Prop :=
  ∀ (seed u v : Byte) (x y : List Byte), u ≠ v → crc8 seed (x ++ u :: y) ≠ crc8 seed (x ++ v :: y)

/-- R52, R81: the first byte of a length is its most significant one, and the encoder's order is the decoder's. -/
def Obligations.LengthIsBigEndian : Prop :=
  (∀ b1 b2 b3 b4 : Byte,
    (be32 b1 b2 b3 b4).toNat = b1.toNat * 2 ^ 24 + b2.toNat * 2 ^ 16 + b3.toNat * 2 ^ 8 + b4.toNat) ∧
  ∀ v : Word, ∃ b1 b2 b3 b4, beBytes v = [b1, b2, b3, b4] ∧ be32 b1 b2 b3 b4 = v

/-! ### The parser (41_parser) -/

/-- R85, R130: in every state of R26's table every byte belongs to exactly one of the twelve rows, and `RX` does what that
row does. -/
def Obligations.RxRunsExactlyOneRow : Prop :=
  ∀ (b : Byte) (s : State), Running s → s.parser.pairOk = true → s.parser.cur.toNat < s.params.maxFrame →
    ∃ i t, classify s.decodeContext b = .ok i ∧ encode i = some (.rxByte, [b]) ∧
      exec (.rx b) s = .next t ∧ exec i s = .next t ∧
      ∀ j u, encode j = some (.rxByte, [b]) → exec j s = .next u → j = i

/-- R131 (the cursor is 1: the spec's decision D23, from R80). -/
def Obligations.HdrSofOpensAFrame : Prop :=
  ∀ s : State, Running s → s.parser.st = .header → s.parser.cur = 0 →
    ∃ t, exec .hdrSof s = .next t ∧ ParserAt t .length0 1 s.parser.len ∧ StoresInBuf s t 0 0x58 ∧
      t.trace = s.trace ∧ ParserOnly s t

/-- R132: any other byte leaves the parser in (`Header`, 0); the unconditional store of R130 is at index 0. -/
def Obligations.HdrNoiseIsDiscarded : Prop :=
  ∀ (b : Byte) (s : State), Running s → s.parser.st = .header → s.parser.cur = 0 → b ≠ 0x58 →
    ∃ t, exec (.hdrNoise b) s = .next t ∧ ParserAt t .header 0 s.parser.len ∧ StoresInBuf s t 0 b ∧
      t.trace = s.trace ++ [.badSentinel b] ∧ ParserOnly s t

/-- R133 (`len` is overwritten: the spec's decision D24). -/
def Obligations.Len0OverwritesTheLength : Prop :=
  ∀ (b : Byte) (s : State), Running s → s.parser.st = .length0 → s.parser.cur = 1 →
    ∃ t, exec (.len0 b) s = .next t ∧ ParserAt t .length1 2 (b.setWidth 32 <<< 24) ∧ StoresInBuf s t 1 b ∧
      t.trace = s.trace ∧ ParserOnly s t

/-- R134, R135. -/
def Obligations.Len1AndLen2AssembleTheLength : Prop :=
  (∀ (b : Byte) (s : State), Running s → s.parser.st = .length1 → s.parser.cur = 2 →
    ∃ t, exec (.len1 b) s = .next t ∧ ParserAt t .length2 3 (s.parser.len ||| (b.setWidth 32 <<< 16)) ∧
      StoresInBuf s t 2 b ∧ t.trace = s.trace ∧ ParserOnly s t) ∧
  ∀ (b : Byte) (s : State), Running s → s.parser.st = .length2 → s.parser.cur = 3 →
    ∃ t, exec (.len2 b) s = .next t ∧ ParserAt t .length3 4 (s.parser.len ||| (b.setWidth 32 <<< 8)) ∧
      StoresInBuf s t 3 b ∧ t.trace = s.trace ∧ ParserOnly s t

/-- R136: `2 < L < MAX_FRAME - 5` is accepted. -/
def Obligations.Len3InRangeIsAccepted : Prop :=
  ∀ (b : Byte) (s : State), Running s → s.parser.st = .length3 → s.parser.cur = 4 →
    2 < (s.parser.len ||| b.setWidth 32).toNat → (s.parser.len ||| b.setWidth 32).toNat < s.params.maxFrame - 5 →
    ∃ t, exec (.len3Ok b) s = .next t ∧ ParserAt t .command 5 (s.parser.len ||| b.setWidth 32) ∧
      StoresInBuf s t 4 b ∧ t.trace = s.trace ∧ ParserOnly s t

/-- R137: `L ≤ 2` or `L ≥ MAX_FRAME - 5` sends the parser to (`Header`, 0), with `len` holding `L`. -/
def Obligations.Len3OutOfRangeIsRejected : Prop :=
  ∀ (b : Byte) (s : State), Running s → s.parser.st = .length3 → s.parser.cur = 4 →
    ((s.parser.len ||| b.setWidth 32).toNat ≤ 2 ∨
      s.params.maxFrame - 5 ≤ (s.parser.len ||| b.setWidth 32).toNat) →
    ∃ t, exec (.len3Bad b) s = .next t ∧ ParserAt t .header 0 (s.parser.len ||| b.setWidth 32) ∧
      StoresInBuf s t 4 b ∧ t.trace = s.trace ++ [.lenRange (s.parser.len ||| b.setWidth 32)] ∧ ParserOnly s t

/-- R138: any opcode byte is stored, and the parser goes to `Data`. -/
def Obligations.CmdStoresTheOpcode : Prop :=
  ∀ (b : Byte) (s : State), Running s → s.parser.st = .command → s.parser.cur = 5 →
    ∃ t, exec (.cmd b) s = .next t ∧ ParserAt t .data 6 s.parser.len ∧ StoresInBuf s t 5 b ∧
      t.trace = s.trace ∧ ParserOnly s t

/-- R139: a payload byte that is not the last, `cur + 1 < len + 4`, at an index inside `BUF` (R55). -/
def Obligations.DataMoreStaysInData : Prop :=
  ∀ (b : Byte) (s : State), Running s → s.parser.st = .data → 6 ≤ s.parser.cur.toNat →
    s.parser.cur.toNat + 1 < s.parser.len.toNat + 4 → s.parser.cur.toNat < s.params.maxFrame →
    ∃ t, exec (.dataMore b) s = .next t ∧ ParserAt t .data (s.parser.cur.toNat + 1) s.parser.len ∧
      StoresInBuf s t s.parser.cur.toNat b ∧ t.trace = s.trace ∧ ParserOnly s t

/-- R140: the last payload byte, `cur + 1 == len + 4`; a cursor beyond it is unreachable, and a fault. -/
def Obligations.DataLastGoesToCrc : Prop :=
  ∀ (b : Byte) (s : State), Running s → s.parser.st = .data →
    (6 ≤ s.parser.cur.toNat → s.parser.cur.toNat + 1 = s.parser.len.toNat + 4 →
      s.parser.cur.toNat < s.params.maxFrame →
      ∃ t, exec (.dataLast b) s = .next t ∧ ParserAt t .crc (s.parser.len.toNat + 4) s.parser.len ∧
        StoresInBuf s t s.parser.cur.toNat b ∧ t.trace = s.trace ∧ ParserOnly s t) ∧
    (s.parser.len.toNat + 4 < s.parser.cur.toNat + 1 → exec (.rx b) s = .fault .unreachableParserState)

/-- R141: the CRC byte matches: `PUT(buf[0 .. len+5))`, the event, and (`Header`, 0), whether or not the frame fitted; the
consumer, what was handed back, and every byte outside the stores stay. -/
def Obligations.CrcOkEnqueuesTheFrame : Prop :=
  ∀ (b : Byte) (s : State), Running s → QueueOk s → s.parser.st = .crc →
    s.parser.cur.toNat = s.parser.len.toNat + 4 → s.parser.cur.toNat < s.params.maxFrame →
    b = crc8 0 (s.bufRange (s.parser.len.toNat + 4)) →
    ∃ t, exec (.crcOk b) s = .next t ∧ ParserAt t .header 0 s.parser.len ∧
      StoresInBuf s t (s.parser.len.toNat + 4) b ∧
      PutEffect s t (s.bufRange (s.parser.len.toNat + 4) ++ [b]) ∧
      t.trace = s.trace ++ putEvents s (s.bufRange (s.parser.len.toNat + 4) ++ [b]) ++ [.frameAccepted s.parser.len] ∧
      t.consumer = s.consumer ∧ t.ret = s.ret ∧ SameOutside s t

/-- R142: the CRC byte differs: the frame is dropped silently; the queue is not touched. -/
def Obligations.CrcBadDropsTheFrame : Prop :=
  ∀ (b : Byte) (s : State), Running s → s.parser.st = .crc →
    s.parser.cur.toNat = s.parser.len.toNat + 4 → s.parser.cur.toNat < s.params.maxFrame →
    b ≠ crc8 0 (s.bufRange (s.parser.len.toNat + 4)) →
    ∃ t, exec (.crcBad b) s = .next t ∧ ParserAt t .header 0 s.parser.len ∧
      StoresInBuf s t (s.parser.len.toNat + 4) b ∧
      t.trace = s.trace ++ [.crcMismatch s.parser.len b] ∧ ParserOnly s t

/-- U10, U11 (R140, R55), and the model's fault for a body that does not fit `SCRATCH` (R50's size; log 18): where the
machine faults, which the spec says it never gets to. -/
def Obligations.FaultsAreForUnreachableStates : Prop :=
  ∀ s : State, Running s →
    (∀ b : Byte, s.parser.pairOk = false → exec (.rx b) s = .fault .unreachableParserState) ∧
    (∀ b : Byte, s.parser.pairOk = true → s.params.maxFrame ≤ s.parser.cur.toNat →
      exec (.rx b) s = .fault .bufIndexOutOfRange) ∧
    (s.params.maxFrame < s.consumer.need.toNat →
      (s.consumer.phase = .wantBody → s.consumer.point = .read → s.consumer.need.toNat ≤ s.queue.cnt.toNat →
        exec .iterBody s = .fault .scratchIndexOutOfRange) ∧
      (s.consumer.point = .dispatch → s.readScratch 0 = 0x03 → exec .blitJpg s = .fault .scratchIndexOutOfRange) ∧
      (s.consumer.point = .dispatch → s.readScratch 0 = 0x04 → exec .blitPng s = .fault .scratchIndexOutOfRange))

/-- The model's choice (log 10): a row of the opcode table has no meaning where its condition fails: a row of R85 for
another byte or state, `GET.SHORT` when enough is queued, `PUT.OVERFLOW` when the block fits, a command whose opcode is
not in `scratch[0]` at step 4, a step of `ITER` out of its place. -/
def Obligations.RowsRefuseWhereTheirConditionFails : Prop :=
  ∀ s : State, Running s →
    (∀ i bytes, s.parser.pairOk = true → encode i = some (.rxByte, bytes) → selectedIn s.decodeContext i = false →
      exec i s = .refused .rowNotSelected) ∧
    (∀ want : Word, want.toNat ≤ s.queue.cnt.toNat → exec (.getShort want) s = .refused .rowNotSelected) ∧
    (∀ bytes : List Byte, bytes.length ≤ s.freeSpace → exec (.putOverflow bytes) s = .refused .rowNotSelected) ∧
    (∀ i op, encode i = some (.command, [op]) → s.consumer.point ≠ .dispatch ∨ s.readScratch 0 ≠ op →
      exec i s = .refused .rowNotSelected) ∧
    ∀ i ∈ [Instr.iterPrefix, .iterValidate, .iterBody, .iterDispatch, .iterYield], nextIter s.consumer ≠ some i →
      exec i s = .refused .rowNotSelected

/-! ### The FIFO (42_fifo) -/

/-- R162: the `want` oldest bytes are returned and removed; the storage and everything else stay. -/
def Obligations.GetRemovesTheOldestBytes : Prop :=
  ∀ (want : Word) (s : State), Running s → want.toNat ≤ s.queue.cnt.toNat →
    ∃ t, exec (.get want) s = .next t ∧ t.ret = .got want (s.fifo.take want.toNat) ∧
      t.fifo = s.fifo.drop want.toNat ∧
      t.queue.rd.toNat = (s.queue.rd.toNat + want.toNat) % s.params.fifoCapacity ∧
      t.queue.cnt.toNat = s.queue.cnt.toNat - want.toNat ∧ t.queue.q = s.queue.q ∧
      t.trace = s.trace ∧ QueueOnly s t

/-- R163 (all or nothing: the spec's decision D10): too little queued, `(0, [])` and nothing changes. -/
def Obligations.ShortGetRemovesNothing : Prop :=
  ∀ (want : Word) (s : State), Running s → s.queue.cnt.toNat < want.toNat →
    exec (.get want) s = .next (s.withRet (.got 0 [])) ∧ exec (.getShort want) s = .next (s.withRet (.got 0 []))

/-- R164, R62: the queue is empty, its bytes and the parser stay, and a second `RESET` leaves the same queue. -/
def Obligations.ResetEmptiesTheQueueAndIsIdempotent : Prop :=
  ∀ s : State, Running s →
    ∃ t, exec .reset s = .next t ∧ t.fifo = [] ∧ t.queue.rd = 0 ∧ t.queue.cnt = 0 ∧ t.queue.q = s.queue.q ∧
      t.ret = s.ret ∧ t.trace = s.trace ++ [.fifoReset] ∧ QueueOnly s t ∧
      ∃ u, exec .reset t = .next u ∧ u.queue = t.queue

/-- R160, R161 (all or nothing, and the new block dropped: the spec's decision D9): what `PUT` leaves and returns. That it runs
alone, and on blocks of every length, beyond R160's 8 to `MAX_FRAME - 1` bytes too, is the model's choice (log 19); the event
under `OVERFLOW_KEEPS_NEW` is its reading (log 20). -/
def Obligations.PutIsAllOrNothing : Prop :=
  ∀ (bytes : List Byte) (s : State), Running s → QueueOk s →
    ∃ t, exec (.put bytes) s = .next t ∧ PutEffect s t bytes ∧
      t.ret = .count (BitVec.ofNat 32 (writtenCount s bytes)) ∧ t.trace = s.trace ++ putEvents s bytes ∧ QueueOnly s t

/-- R161 (the spec's decision D9; the event under `OVERFLOW_KEEPS_NEW`: log 20): the row for a block that does not fit. That it
runs alone, and on blocks of every length, beyond R160's limits too, is the model's choice (log 19). -/
def Obligations.PutOverflowEmptiesTheQueue : Prop :=
  ∀ (bytes : List Byte) (s : State), Running s → s.freeSpace < bytes.length →
    ∃ t, exec (.putOverflow bytes) s = .next t ∧ PutEffect s t bytes ∧
      t.ret = .count (BitVec.ofNat 32 (writtenCount s bytes)) ∧
      t.trace = s.trace ++ [.fifoOverflow bytes.length s.queue.cnt] ∧ QueueOnly s t

/-! ### Reset (70_reset_and_hazards, 10_state R35) -/

/-- R240, R35 (the spec's decisions D6, D26; the consumer's part: log 14): what `HRESET` leaves, from every state, after
the reboot call too. `need` and the bytes of the memories are free. -/
def Obligations.HresetReturnsToTheResetValues : Prop :=
  ∀ s : State, paramsWellFormed s.params = true →
    ∃ t, exec .hreset s = .next t ∧ ParserAt t .header 0 0 ∧ t.fifo = [] ∧ t.queue.rd = 0 ∧ t.queue.cnt = 0 ∧
      t.consumer.phase = .wantPrefix ∧ t.consumer.point = .read ∧
      (∀ a, t.parser.buf.read a = none ∧ t.queue.q.read a = none ∧ t.consumer.scratch.read a = none) ∧
      t.epoch = s.epoch + 1 ∧ t.params = s.params ∧ t.ret = s.ret ∧ t.trace = s.trace ∧ t.calls = s.calls ∧
      t.pending = s.pending ∧ t.draws = s.draws

/-- R35, R6 (the spec's decisions D2, D6, D26; the OPEN parameters' values: log 2): the state after reset, for every
choice of parameters, and the default `MAX_FRAME`. -/
def Obligations.ResetStateHasTheListedValues : Prop :=
  (∀ p : Params, ParserAt (State.resetWith p) .header 0 0 ∧ (State.resetWith p).fifo = [] ∧
    (State.resetWith p).queue.rd = 0 ∧ (State.resetWith p).queue.cnt = 0 ∧
    (State.resetWith p).consumer.phase = .wantPrefix ∧ (State.resetWith p).params = p) ∧
  State.reset = State.resetWith Config.params ∧ State.reset.params.maxFrame = 2097152 ∧
  State.reset.params.overflowKeepsNew = false

/-! ### The consumer (43_consumer_dispatch) -/

/-- R182: step 1 removes exactly five bytes, or yields and removes nothing; the marker is not tested. -/
def Obligations.IterPrefixReadsFiveBytesOrYields : Prop :=
  ∀ s : State, Running s → s.consumer.phase = .wantPrefix → s.consumer.point = .read →
    (5 ≤ s.queue.cnt.toNat →
      ∃ t h, exec .iterPrefix s = .next t ∧ t.consumer.point = .validate h ∧ h.bytes = s.fifo.take 5 ∧
        t.fifo = s.fifo.drop 5 ∧ t.queue.q = s.queue.q ∧ t.ret = .got 5 (s.fifo.take 5) ∧ ConsumerKeeps s t ∧
        t.parser = s.parser ∧ t.trace = s.trace ∧ SameOutside s t) ∧
    (s.queue.cnt.toNat < 5 →
      ∃ t, exec .iterPrefix s = .next t ∧ t.consumer.point = .yield ∧ t.queue = s.queue ∧ t.ret = .got 0 [] ∧
        ConsumerKeeps s t ∧ t.parser = s.parser ∧ t.trace = s.trace ∧ SameOutside s t)

/-- R183 (the clause on `FIFO_CAPACITY`: the spec's decision D17): step 2 keeps the length, or resets the queue and
yields. -/
def Obligations.IterValidateKeepsTheLengthOrResets : Prop :=
  ∀ (s : State) (h : FrameHead), Running s → s.consumer.point = .validate h →
    ∃ t, exec .iterValidate s = .next t ∧ t.consumer.scratch = s.consumer.scratch ∧ t.parser = s.parser ∧
      t.ret = s.ret ∧ SameOutside s t ∧
      (let lc := be32 h.l1 h.l2 h.l3 h.l4
       if 0 < lc.toNat ∧ lc.toNat < s.params.maxFrame ∧ lc.toNat ≤ s.params.fifoCapacity then
         t.consumer.need = lc ∧ t.consumer.phase = .wantBody ∧ t.consumer.point = .read ∧ t.queue = s.queue ∧
           t.trace = s.trace
       else t.fifo = [] ∧ t.queue.q = s.queue.q ∧ t.consumer.point = .yield ∧
         t.consumer.phase = s.consumer.phase ∧ t.consumer.need = s.consumer.need ∧
         t.trace = s.trace ++ [.fifoReset])

/-- R184, R250: step 3 moves exactly `need` bytes to the start of `scratch`, or, when they are not all queued (or `need`
is 0, for which `GET` returns 0), yields with `phase` and `need` kept. -/
def Obligations.IterBodyMovesTheBodyOrKeepsWaiting : Prop :=
  ∀ s : State, Running s → s.consumer.phase = .wantBody → s.consumer.point = .read →
    (0 < s.consumer.need.toNat → s.consumer.need.toNat ≤ s.params.maxFrame →
      s.consumer.need.toNat ≤ s.queue.cnt.toNat →
      ∃ t, exec .iterBody s = .next t ∧ t.consumer.phase = .wantPrefix ∧ t.consumer.point = .dispatch ∧
        t.consumer.need = s.consumer.need ∧ t.fifo = s.fifo.drop s.consumer.need.toNat ∧ t.queue.q = s.queue.q ∧
        t.ret = .got s.consumer.need (s.fifo.take s.consumer.need.toNat) ∧
        (∀ i, i < s.consumer.need.toNat → t.consumer.scratch.read i = s.fifo[i]?) ∧
        (∀ i, s.consumer.need.toNat ≤ i → t.consumer.scratch.read i = s.consumer.scratch.read i) ∧
        t.parser = s.parser ∧ t.trace = s.trace ∧ SameOutside s t) ∧
    (s.queue.cnt.toNat < s.consumer.need.toNat ∨ s.consumer.need = 0 →
      ∃ t, exec .iterBody s = .next t ∧ t.consumer.point = .yield ∧ t.fifo = s.fifo ∧ t.queue.q = s.queue.q ∧
        t.ret = .got 0 [] ∧ ConsumerKeeps s t ∧ t.parser = s.parser ∧ t.trace = s.trace ∧ SameOutside s t)

/-- R185: step 4 does what the command that `scratch[0]` names does; it completes for every body that fits `SCRATCH`, and
the consumer then yields, or is in the reboot call. -/
def Obligations.IterDispatchRunsTheNamedCommand : Prop :=
  ∀ s : State, Running s → s.consumer.point = .dispatch →
    exec .iterDispatch s = exec (decodeCommand (s.readScratch 0)) s ∧
    (s.consumer.need.toNat ≤ s.params.maxFrame →
      ∃ t, exec .iterDispatch s = .next t ∧ CommandOnly s t ∧
        (t.consumer.point = .yield ∨ t.consumer.point = .rebooting ∧ s.readScratch 0 = 0xFE))

/-- R186, R255: step 5 yields, and a new iteration begins only by it (or by `HRESET`); step 2 goes on to step 3. In a run
that is fair to both agents (U18; the form of a run: log 26) whose states meet the invariant, which every step keeps, the
loop yields again and again unless a reset comes or the reboot call is made, and a byte that waits is delivered unless the
reboot call is made. -/
def Obligations.EveryIterationYields : Prop :=
  (∀ s : State, Running s → s.consumer.point = .yield →
    ∃ t, exec .iterYield s = .next t ∧ t.consumer.point = .read ∧ t.calls = s.calls ++ [.yield] ∧
      CommandOnly s t ∧ t.draws = s.draws) ∧
  (∀ (i : Instr) (s t : State), exec i s = .next t → s.consumer.point ≠ .read → t.consumer.point = .read →
    i = .iterYield ∨ i = .hreset ∨ (i = .iterValidate ∧ t.consumer.phase = .wantBody)) ∧
  ∀ (state : Nat → State) (act : Nat → Act) (inbox : Nat → List Byte) (n : Nat),
    FairRun state act inbox → (∀ m, Inv (state m) = true) →
    ((∀ m word, n ≤ m → act m ≠ .ask .platform word) →
      ∃ m, n ≤ m ∧ ((act m = .turn ∧ (state m).consumer.point = .yield) ∨
        (state m).consumer.point = .rebooting)) ∧
    (inbox n ≠ [] → ∃ m, n ≤ m ∧ (act m = .deliver ∨ (state m).consumer.point = .rebooting))

/-- R187 (acknowledged always: the spec's decision D29). -/
def Obligations.SetBrightnessSetsTheBacklightAndAcks : Prop :=
  ∀ s : State, Running s → s.consumer.point = .dispatch → s.readScratch 0 = 0x01 →
    ∃ t, exec .setBrightness s = .next t ∧ t.consumer.point = .yield ∧
      t.calls = s.calls ++ [.backlightSet ((s.readScratch 1).toNat * 1000 / 255), .transportSend 0x58] ∧
      CommandOnly s t ∧ t.draws = s.draws

/-- R188, R195 (the shape test and the acknowledgement: the spec's decisions D18, D29). -/
def Obligations.ClearScreenFillsOrIgnores : Prop :=
  ∀ s : State, Running s → s.consumer.point = .dispatch → s.readScratch 0 = 0x02 →
    ∃ t, exec .clearScreen s = .next t ∧ t.consumer.point = .yield ∧ CommandOnly s t ∧ t.draws = s.draws ∧
      t.calls = s.calls ++
        (if 5 ≤ s.consumer.need.toNat then
          [.screenFillOpaque (s.readScratch 1) (s.readScratch 2) (s.readScratch 3), .present, .transportSend 0x58]
        else [])

/-- R189, R190: the stream is `scratch[1 .. Lc-1)`, with the CRC byte under the parameter (D19); the decoder's result is
its draw (U13), whatever it is; on success blit, present, free, acknowledge, on failure nothing more. -/
def Obligations.BlitsShowTheImageOnlyWhenItDecodes : Prop :=
  ∀ (s : State) (jpg : Bool), Running s → s.consumer.point = .dispatch →
    s.readScratch 0 = (if jpg then 0x03 else 0x04) → s.consumer.need.toNat ≤ s.params.maxFrame →
    ∃ t stream, exec (if jpg then .blitJpg else .blitPng) s = .next t ∧ t.consumer.point = .yield ∧
      CommandOnly s t ∧ t.draws = s.draws + 1 ∧
      stream.length = s.consumer.need.toNat - (if s.params.blitIncludesCrcByte then 1 else 2) ∧
      (∀ i, i < stream.length → stream[i]? = some (s.readScratch (i + 1))) ∧
      t.calls = s.calls ++ [if jpg then .jpegDecode stream else .pngDecode stream] ++
        (match Config.decodeDraw s.draws with
         | none => []
         | some x =>
           [.blit x (centered s.params.rounding s.params.screenWidth x.width)
              (centered s.params.rounding s.params.screenHeight x.height),
            .present, .free x, .transportSend 0x58])

/-- R191, R195 (a mismatch is ignored, the shape test: the spec's decisions D20, D18). -/
def Obligations.RebootNeedsItsLiteralAndAcksFirst : Prop :=
  ∀ s : State, Running s → s.consumer.point = .dispatch → s.readScratch 0 = 0xFE →
    ∃ t, exec .rebootToFel s = .next t ∧ CommandOnly s t ∧ t.draws = s.draws ∧
      (if 5 ≤ s.consumer.need.toNat ∧ s.readScratch 1 = 0x46 ∧ s.readScratch 2 = 0x45 ∧ s.readScratch 3 = 0x4C then
        t.consumer.point = .rebooting ∧ t.calls = s.calls ++ [.transportSend 0x58, .rebootToBootloader]
      else t.consumer.point = .yield ∧ t.calls = s.calls)

/-- R192: no-op, no acknowledgement. -/
def Obligations.UnknownOpcodeIsIgnored : Prop :=
  ∀ (op : Byte) (s : State), Running s → s.consumer.point = .dispatch → s.readScratch 0 = op →
    op ≠ 0x01 → op ≠ 0x02 → op ≠ 0x03 → op ≠ 0x04 → op ≠ 0xFE →
    ∃ t, exec (.unknownCmd op) s = .next t ∧ t.consumer.point = .yield ∧ t.calls = s.calls ∧ CommandOnly s t ∧
      t.draws = s.draws

/-- R193, R86: one byte, 0x58, through the transport, and nothing else. That it runs alone, at any place of the loop, is the
model's choice (log 25). -/
def Obligations.AckSendsOneByte : Prop :=
  ∀ s : State, Running s → exec .ack s = .next (s.call [.transportSend 0x58])

/-- R196 (the rounding of a negative odd difference is the parameter of U15): half of the signed difference, exact when it
is even, truncated when it is odd and positive, one of the two neighbours when it is odd and negative. -/
def Obligations.CenteringHalvesTheSignedDifference : Prop :=
  ∀ (r : Rounding) (screen image : Nat),
    (image ≤ screen → centered r screen image = ((screen - image) / 2 : Nat)) ∧
    (∀ k : Int, (screen : Int) - image = 2 * k → centered r screen image = k) ∧
    (∀ k : Int, (screen : Int) - image = 2 * k + 1 → k < 0 →
      centered r screen image = if r = .towardZero then k + 1 else k)

/-- R193, R228: one acknowledgement at most for a dispatched command, and none from anything else but the
acknowledgement run alone (log 25); a command runs once. -/
def Obligations.AtMostOneAckPerCommand : Prop :=
  ∀ (i : Instr) (s t : State), exec i s = .next t → i ≠ .ack →
    acks t = acks s ∨ (acks t = acks s + 1 ∧ s.consumer.point = .dispatch ∧ t.consumer.point ≠ .dispatch)

/-! ### What has no meaning -/

/-- R90, U12: the reserved code is refused. -/
def Obligations.ReservedCodeIsRefused : Prop :=
  ∀ s : State, Running s → exec .reserved110 s = .refused .reservedOperation

/-- R7, R191, U17: with ill-formed parameters everything is refused; after the reboot call everything but `HRESET`. -/
def Obligations.NothingRunsWithoutMeaning : Prop :=
  (∀ (i : Instr) (s : State), paramsWellFormed s.params = false → exec i s = .refused .illFormedParameters) ∧
  (∀ (i : Instr) (s : State), paramsWellFormed s.params = true → s.consumer.point = .rebooting → i ≠ .hreset →
    exec i s = .refused .runEnded) ∧
  ∀ p : Params, paramsWellFormed p = true ↔
    (9 ≤ p.maxFrame ∧ p.maxFrame ≤ 2 ^ 32 - 1 ∧ 1 ≤ p.fifoCapacity ∧ p.fifoCapacity ≤ 2 ^ 32 - 1)

/-- R63, R225, R244, R245: a port word from an agent that does not own the operation is refused. -/
def Obligations.PortsBelongToTheirAgents : Prop :=
  ∀ (s : State) (a : Agent) (word : List Byte) (rest : List Request) (i : Instr) (more : List Byte),
    s.pending = .port a word :: rest → decode s.decodeContext .port word = .ok (i, more) →
    ((∃ b, i = .rx b) → a ≠ .producer →
      step s = .refused (match a with | .other _ => .secondProducer | _ => .wrongAgent)) ∧
    ((∃ want, i = .get want ∨ i = .getShort want) ∨ i = .reset → a ≠ .consumer →
      step s = .refused (match a with | .other _ => .secondConsumer | _ => .wrongAgent)) ∧
    (i = .hreset → a ≠ .platform → step s = .refused .wrongAgent)

/-! ### Decoding and the step -/

/-- A step runs the transaction that was asked for: the decoded port word of the agent that owns it, or the consumer's
next step, on the state with that request taken off; nothing happens when none is asked for (R3, R57; log 7). -/
def Obligations.StepRunsTheRequestedTransaction : Prop :=
  (∀ (s : State) (a : Agent) (word : List Byte) (rest : List Request) (i : Instr) (more : List Byte),
    s.pending = .port a word :: rest → decode s.decodeContext .port word = .ok (i, more) → portRefusal a i = none →
    step s = exec i (s.withPending rest)) ∧
  (∀ (s : State) (rest : List Request) (i : Instr), s.pending = .turn :: rest → nextIter s.consumer = some i →
    step s = exec i (s.withPending rest)) ∧
  ∀ s : State, s.pending = [] → step s = .next s

/-- The step never selects a row whose condition does not hold (R85, R162, R163, R182 to R185). -/
def Obligations.StepNeverPicksAWrongRow : Prop :=
  ∀ s : State, step s ≠ .refused .rowNotSelected

/-- Words written out from the spec's encodings (R80, R84, R85, R86, R90) decode to what they stand for. -/
def Obligations.WrittenOutWordsDecode : Prop :=
  decode .afterReset .port [0x01, 0xA5] = .ok (.rx 0xA5, []) ∧
  decode .afterReset .port [0x02, 0x00, 0x00, 0x00, 0x05] = .ok (.getShort 5, []) ∧
  decode .afterReset .port [0x04, 0x5E, 0x01] = .ok (.crcStep 0x5E 0x01, []) ∧
  decode .afterReset .port [0x07] = .ok (.hreset, []) ∧
  decode .afterReset .rxByte [0x58] = .ok (.hdrSof, []) ∧
  decode .afterReset .rxByte [0xA5] = .ok (.hdrNoise 0xA5, []) ∧
  decode .afterReset .frame [0x58, 0x00, 0x00, 0x00, 0x03, 0x01, 0x80, 0x61] = .ok (.frame 0x01 [0x80], []) ∧
  decode .afterReset .command [0xFE] = .ok (.rebootToFel, []) ∧
  decode .afterReset .ack [0x58] = .ok (.ack, [])

/-- Decoding the bytes of a well-formed instruction, in a context where its row's condition holds, gives it back, and
leaves the bytes after it. -/
def Obligations.DecodeInvertsEncode : Prop :=
  ∀ (c : DecodeContext) (i : Instr) (space : Space) (bytes rest : List Byte), i.wellFormed = true →
    selectedIn c i = true → encode i = some (space, bytes) → decode c space (bytes ++ rest) = .ok (i, rest)

/-! ### The machine -/

/-- The invariant holds right after reset, for every well-formed choice of parameters. -/
def Obligations.InvariantHoldsAtReset : Prop :=
  (∀ p : Params, paramsWellFormed p = true → Inv (State.resetWith p) = true) ∧ Inv State.reset = true

/-- R26, R29, R50, R64, R181: every instruction, and so every step, keeps the invariant. -/
def Obligations.EveryStepKeepsTheInvariant : Prop :=
  (∀ (i : Instr) (s t : State), Inv s = true → exec i s = .next t → Inv t = true) ∧
  ∀ s t : State, Inv s = true → step s = .next t → Inv t = true

/-- R145, R218: from a state of the invariant nothing faults; no index leaves `BUF` or `SCRATCH`. -/
def Obligations.NoStepFaultsUnderTheInvariant : Prop :=
  ∀ s : State, Inv s = true → SafeStep s ∧ ∀ (i : Instr) (f : Fault), exec i s ≠ .fault f

/-- R220: no transaction reads the ghost trace: with another trace it does the same, and appends the same labels. -/
def Obligations.NothingReadsTheGhostTrace : Prop :=
  ∀ (i : Instr) (s : State) (tr : List Event),
    match exec i s with
    | .next t => ∃ es, t.trace = s.trace ++ es ∧ exec i (s.withTrace tr) = .next (t.withTrace (tr ++ es))
    | .fault f => exec i (s.withTrace tr) = .fault f
    | .refused r => exec i (s.withTrace tr) = .refused r

/-- R20, R63, R226: the two sides share the queue alone. What the consumer does leaves the parser; what the producer does
leaves the consumer and its calls; nothing changes the parameters or the requests. -/
def Obligations.TheTwoSidesShareTheQueueAlone : Prop :=
  ∀ (i : Instr) (s t : State), exec i s = .next t →
    t.params = s.params ∧ t.pending = s.pending ∧
    (match i with
     | .get _ | .getShort _ | .reset | .iterPrefix | .iterValidate | .iterBody | .iterDispatch | .iterYield
     | .setBrightness | .clearScreen | .blitJpg | .blitPng | .rebootToFel | .unknownCmd _ | .ack
     | .put _ | .putOverflow _ => t.parser = s.parser
     | .rx _ | .hdrSof | .hdrNoise _ | .len0 _ | .len1 _ | .len2 _ | .len3Ok _ | .len3Bad _ | .cmd _ | .dataMore _
     | .dataLast _ | .crcOk _ | .crcBad _ | .frame _ _ => t.consumer = s.consumer ∧ t.calls = s.calls ∧ t.ret = s.ret
     | .nop | .crcStep _ _ | .crcTabgen _ | .crcSum _ _ =>
       t.parser = s.parser ∧ t.queue = s.queue ∧ t.consumer = s.consumer ∧ t.calls = s.calls
     | .reserved110 => False
     | .hreset => True)

/-- R80, R82, R130 to R141, R146: a whole acceptable frame delivered to a parser in `Header` is put, whole and once,
behind what is queued, and the parser is in (`Header`, 0) again, ready for the next frame. `FRAME` as a run is the model's
choice (log 11), the overflow of `PUT` the spec's decision D9, its event under `OVERFLOW_KEEPS_NEW` the model's reading
(log 20). -/
def Obligations.WholeFrameIsEnqueuedOnce : Prop :=
  ∀ (command : Byte) (payload : List Byte) (s : State), Running s → QueueOk s → s.parser.st = .header →
    s.parser.cur = 0 → 1 ≤ payload.length → payload.length + 2 < s.params.maxFrame - 5 →
    ∃ t, exec (.frame command payload) s = .next t ∧
      ParserAt t .header 0 (BitVec.ofNat 32 (payload.length + 2)) ∧
      PutEffect s t (frameBytes command payload) ∧
      t.trace = s.trace ++ putEvents s (frameBytes command payload) ++
        [.frameAccepted (BitVec.ofNat 32 (payload.length + 2))] ∧
      (∀ i, i < payload.length + 7 → t.parser.buf.read i = (frameBytes command payload)[i]?) ∧
      (∀ i, payload.length + 7 ≤ i → t.parser.buf.read i = s.parser.buf.read i) ∧
      t.consumer = s.consumer ∧ t.ret = s.ret ∧ SameOutside s t

/-- R148 (a): one altered byte of the command, the payload or the CRC of an acceptable frame: the frame is not enqueued,
and the parser is in (`Header`, 0) after its last byte, which is the one the event names. -/
def Obligations.OneCorruptedByteDropsTheFrame : Prop :=
  ∀ (command : Byte) (payload : List Byte) (k : Nat) (v : Byte) (s : State), Running s → s.parser.st = .header →
    s.parser.cur = 0 → 1 ≤ payload.length → payload.length + 2 < s.params.maxFrame - 5 →
    5 ≤ k → k < payload.length + 7 → (frameBytes command payload)[k]? ≠ some v →
    ∃ t last, rxAll ((frameBytes command payload).set k v) s = .next t ∧
      ((frameBytes command payload).set k v)[payload.length + 6]? = some last ∧
      ParserAt t .header 0 (BitVec.ofNat 32 (payload.length + 2)) ∧ ParserOnly s t ∧
      t.trace = s.trace ++ [.crcMismatch (BitVec.ofNat 32 (payload.length + 2)) last]

/-- R147: a register that starts at 0 and takes the step with every byte received holds, after each byte of a frame, the
CRC of the bytes received so far; so comparing it in `Crc` is the comparison of R141. -/
def Obligations.RunningCrcEqualsTheBufferWalk : Prop :=
  ∀ (b : Byte) (s t : State), exec (.rx b) s = .next t → t.parser.st ≠ .header →
    crc8 0 (t.bufRange t.parser.cur.toNat) = crcStep (crc8 0 (s.bufRange s.parser.cur.toNat)) b ∧
    (t.parser.st = .crc → t.frameCrc = crc8 0 (t.bufRange t.parser.cur.toNat))

/-- R130, R165, R218: from every state of R26's table any bytes at all are taken, one after another, and some finite input
of at most `MAX_FRAME` bytes returns the parser to `Header`. The clause on `FRAME`, a run of `RX` (R91) also where R91 does
not write it (an empty payload) or R82 does not accept its length, is the model's choice (log 11). -/
def Obligations.ProducerIsNeverBlocked : Prop :=
  ∀ s : State, Running s → parserInv s = true →
    (∀ bytes : List Byte, ∃ t, rxAll bytes s = .next t ∧ parserInv t = true ∧ Running t) ∧
    (∀ command payload, ∃ t, exec (.frame command payload) s = .next t) ∧
    ∃ bytes t, bytes.length ≤ s.params.maxFrame ∧ rxAll bytes s = .next t ∧ t.parser.st = .header

/-- R166: while the consumer follows its loop, the queue stays a concatenation of whole valid frames, preceded by at most
the rest of the frame whose prefix has been removed; it is lost only by an overflow while the consumer holds a prefix. -/
def Obligations.QueueStaysAlignedWithFrames : Prop :=
  ∀ (i : Instr) (s t : State), Inv s = true → Aligned s → exec i s = .next t →
    (i = .iterPrefix ∨ i = .iterValidate ∨ i = .iterBody ∨ i = .iterDispatch ∨ i = .iterYield ∨
      ∃ b, i = .rx b ∧ (NextFrameFits s ∨ ¬ HoldsPrefix s)) →
    Aligned t

/-- R182 to R185, R89: when a whole valid frame is the oldest thing queued and the consumer is at the start of its loop,
steps 1 to 3 remove exactly that frame and leave its command, payload and CRC byte in `scratch`. The steps as transactions
are the model's reading (log 13). -/
def Obligations.ConsumerTakesOneWholeFrame : Prop :=
  ∀ (command : Byte) (payload rest : List Byte) (s : State), Running s → QueueOk s →
    s.consumer.phase = .wantPrefix → s.consumer.point = .read →
    1 ≤ payload.length → payload.length + 2 < s.params.maxFrame - 5 → s.fifo = frameBytes command payload ++ rest →
    ∃ t, execAll [.iterPrefix, .iterValidate, .iterBody] s = .next t ∧ t.fifo = rest ∧
      t.consumer.point = .dispatch ∧ t.consumer.phase = .wantPrefix ∧
      t.consumer.need.toNat = payload.length + 2 ∧
      (∀ i, i < payload.length + 2 → t.consumer.scratch.read i = (frameBytes command payload)[i + 5]?) ∧
      t.parser = s.parser ∧ t.calls = s.calls ∧ t.trace = s.trace

/-- The source's end-to-end scenario (S3): a `SET_BRIGHTNESS` frame delivered to an idle block with room for it, then one
iteration of the consumer: exactly one acknowledgement, and one backlight call with `level * 1000 / 255`. `FRAME` as a run,
the recorded yield and the steps as transactions are the model's (log 11, log 12, log 13). -/
def Obligations.BrightnessFrameYieldsOneAck : Prop :=
  ∀ (level : Byte) (s : State), Running s → QueueOk s → s.parser.st = .header → s.parser.cur = 0 → s.fifo = [] →
    s.consumer.phase = .wantPrefix → s.consumer.point = .read → 3 < s.params.maxFrame - 5 → 8 ≤ s.params.fifoCapacity →
    ∃ t, execAll [.frame 0x01 [level], .iterPrefix, .iterValidate, .iterBody, .iterDispatch, .iterYield] s = .next t ∧
      t.calls = s.calls ++ [.backlightSet (level.toNat * 1000 / 255), .transportSend 0x58, .yield] ∧ t.fifo = [] ∧
      ParserAt t .header 0 3 ∧ t.consumer.phase = .wantPrefix ∧ t.consumer.point = .read
end

