-- ==== Sys2Proof/Laws/State.lean ====
section
/-! SUPPORT. One lemma per field per update of the state, so that no proof unfolds a record update. -/

namespace Sys2Proof.Machine

variable (s : State)

@[simp] theorem State.withParser_withParser (p p' : Parser) : (s.withParser p).withParser p' = s.withParser p' := rfl
@[simp] theorem State.withParser_params (p : Parser) : (s.withParser p).params = s.params := rfl
@[simp] theorem State.withParser_parser (p : Parser) : (s.withParser p).parser = p := rfl
@[simp] theorem State.withParser_queue (p : Parser) : (s.withParser p).queue = s.queue := rfl
@[simp] theorem State.withParser_consumer (p : Parser) : (s.withParser p).consumer = s.consumer := rfl
@[simp] theorem State.withParser_ret (p : Parser) : (s.withParser p).ret = s.ret := rfl
@[simp] theorem State.withParser_trace (p : Parser) : (s.withParser p).trace = s.trace := rfl
@[simp] theorem State.withParser_calls (p : Parser) : (s.withParser p).calls = s.calls := rfl
@[simp] theorem State.withParser_pending (p : Parser) : (s.withParser p).pending = s.pending := rfl
@[simp] theorem State.withParser_epoch (p : Parser) : (s.withParser p).epoch = s.epoch := rfl
@[simp] theorem State.withParser_draws (p : Parser) : (s.withParser p).draws = s.draws := rfl

@[simp] theorem State.withQueue_params (x : Queue) : (s.withQueue x).params = s.params := rfl
@[simp] theorem State.withQueue_parser (x : Queue) : (s.withQueue x).parser = s.parser := rfl
@[simp] theorem State.withQueue_queue (x : Queue) : (s.withQueue x).queue = x := rfl
@[simp] theorem State.withQueue_consumer (x : Queue) : (s.withQueue x).consumer = s.consumer := rfl
@[simp] theorem State.withQueue_ret (x : Queue) : (s.withQueue x).ret = s.ret := rfl
@[simp] theorem State.withQueue_trace (x : Queue) : (s.withQueue x).trace = s.trace := rfl
@[simp] theorem State.withQueue_calls (x : Queue) : (s.withQueue x).calls = s.calls := rfl
@[simp] theorem State.withQueue_pending (x : Queue) : (s.withQueue x).pending = s.pending := rfl
@[simp] theorem State.withQueue_epoch (x : Queue) : (s.withQueue x).epoch = s.epoch := rfl
@[simp] theorem State.withQueue_draws (x : Queue) : (s.withQueue x).draws = s.draws := rfl

@[simp] theorem State.withConsumer_params (c : Consumer) : (s.withConsumer c).params = s.params := rfl
@[simp] theorem State.withConsumer_parser (c : Consumer) : (s.withConsumer c).parser = s.parser := rfl
@[simp] theorem State.withConsumer_queue (c : Consumer) : (s.withConsumer c).queue = s.queue := rfl
@[simp] theorem State.withConsumer_consumer (c : Consumer) : (s.withConsumer c).consumer = c := rfl
@[simp] theorem State.withConsumer_ret (c : Consumer) : (s.withConsumer c).ret = s.ret := rfl
@[simp] theorem State.withConsumer_trace (c : Consumer) : (s.withConsumer c).trace = s.trace := rfl
@[simp] theorem State.withConsumer_calls (c : Consumer) : (s.withConsumer c).calls = s.calls := rfl
@[simp] theorem State.withConsumer_pending (c : Consumer) : (s.withConsumer c).pending = s.pending := rfl
@[simp] theorem State.withConsumer_epoch (c : Consumer) : (s.withConsumer c).epoch = s.epoch := rfl
@[simp] theorem State.withConsumer_draws (c : Consumer) : (s.withConsumer c).draws = s.draws := rfl

@[simp] theorem State.withRet_params (r : Ret) : (s.withRet r).params = s.params := rfl
@[simp] theorem State.withRet_parser (r : Ret) : (s.withRet r).parser = s.parser := rfl
@[simp] theorem State.withRet_queue (r : Ret) : (s.withRet r).queue = s.queue := rfl
@[simp] theorem State.withRet_consumer (r : Ret) : (s.withRet r).consumer = s.consumer := rfl
@[simp] theorem State.withRet_ret (r : Ret) : (s.withRet r).ret = r := rfl
@[simp] theorem State.withRet_trace (r : Ret) : (s.withRet r).trace = s.trace := rfl
@[simp] theorem State.withRet_calls (r : Ret) : (s.withRet r).calls = s.calls := rfl
@[simp] theorem State.withRet_pending (r : Ret) : (s.withRet r).pending = s.pending := rfl
@[simp] theorem State.withRet_epoch (r : Ret) : (s.withRet r).epoch = s.epoch := rfl
@[simp] theorem State.withRet_draws (r : Ret) : (s.withRet r).draws = s.draws := rfl

@[simp] theorem State.emit_params (e : Event) : (s.emit e).params = s.params := rfl
@[simp] theorem State.emit_parser (e : Event) : (s.emit e).parser = s.parser := rfl
@[simp] theorem State.emit_queue (e : Event) : (s.emit e).queue = s.queue := rfl
@[simp] theorem State.emit_consumer (e : Event) : (s.emit e).consumer = s.consumer := rfl
@[simp] theorem State.emit_ret (e : Event) : (s.emit e).ret = s.ret := rfl
@[simp] theorem State.emit_trace (e : Event) : (s.emit e).trace = s.trace ++ [e] := rfl
@[simp] theorem State.emit_calls (e : Event) : (s.emit e).calls = s.calls := rfl
@[simp] theorem State.emit_pending (e : Event) : (s.emit e).pending = s.pending := rfl
@[simp] theorem State.emit_epoch (e : Event) : (s.emit e).epoch = s.epoch := rfl
@[simp] theorem State.emit_draws (e : Event) : (s.emit e).draws = s.draws := rfl

@[simp] theorem State.call_params (cs : List Call) : (s.call cs).params = s.params := rfl
@[simp] theorem State.call_parser (cs : List Call) : (s.call cs).parser = s.parser := rfl
@[simp] theorem State.call_queue (cs : List Call) : (s.call cs).queue = s.queue := rfl
@[simp] theorem State.call_consumer (cs : List Call) : (s.call cs).consumer = s.consumer := rfl
@[simp] theorem State.call_ret (cs : List Call) : (s.call cs).ret = s.ret := rfl
@[simp] theorem State.call_trace (cs : List Call) : (s.call cs).trace = s.trace := rfl
@[simp] theorem State.call_calls (cs : List Call) : (s.call cs).calls = s.calls ++ cs := rfl
@[simp] theorem State.call_pending (cs : List Call) : (s.call cs).pending = s.pending := rfl
@[simp] theorem State.call_epoch (cs : List Call) : (s.call cs).epoch = s.epoch := rfl
@[simp] theorem State.call_draws (cs : List Call) : (s.call cs).draws = s.draws := rfl

@[simp] theorem State.withPending_params (rs : List Request) : (s.withPending rs).params = s.params := rfl
@[simp] theorem State.withPending_parser (rs : List Request) : (s.withPending rs).parser = s.parser := rfl
@[simp] theorem State.withPending_queue (rs : List Request) : (s.withPending rs).queue = s.queue := rfl
@[simp] theorem State.withPending_consumer (rs : List Request) : (s.withPending rs).consumer = s.consumer := rfl
@[simp] theorem State.withPending_ret (rs : List Request) : (s.withPending rs).ret = s.ret := rfl
@[simp] theorem State.withPending_trace (rs : List Request) : (s.withPending rs).trace = s.trace := rfl
@[simp] theorem State.withPending_calls (rs : List Request) : (s.withPending rs).calls = s.calls := rfl
@[simp] theorem State.withPending_pending (rs : List Request) : (s.withPending rs).pending = rs := rfl
@[simp] theorem State.withPending_epoch (rs : List Request) : (s.withPending rs).epoch = s.epoch := rfl
@[simp] theorem State.withPending_draws (rs : List Request) : (s.withPending rs).draws = s.draws := rfl

@[simp] theorem State.nextDraw_params : s.nextDraw.params = s.params := rfl
@[simp] theorem State.nextDraw_parser : s.nextDraw.parser = s.parser := rfl
@[simp] theorem State.nextDraw_queue : s.nextDraw.queue = s.queue := rfl
@[simp] theorem State.nextDraw_consumer : s.nextDraw.consumer = s.consumer := rfl
@[simp] theorem State.nextDraw_ret : s.nextDraw.ret = s.ret := rfl
@[simp] theorem State.nextDraw_trace : s.nextDraw.trace = s.trace := rfl
@[simp] theorem State.nextDraw_calls : s.nextDraw.calls = s.calls := rfl
@[simp] theorem State.nextDraw_pending : s.nextDraw.pending = s.pending := rfl
@[simp] theorem State.nextDraw_epoch : s.nextDraw.epoch = s.epoch := rfl
@[simp] theorem State.nextDraw_draws : s.nextDraw.draws = s.draws + 1 := rfl

@[simp] theorem State.nextEpoch_params : s.nextEpoch.params = s.params := rfl
@[simp] theorem State.nextEpoch_parser : s.nextEpoch.parser = s.parser := rfl
@[simp] theorem State.nextEpoch_queue : s.nextEpoch.queue = s.queue := rfl
@[simp] theorem State.nextEpoch_consumer : s.nextEpoch.consumer = s.consumer := rfl
@[simp] theorem State.nextEpoch_ret : s.nextEpoch.ret = s.ret := rfl
@[simp] theorem State.nextEpoch_trace : s.nextEpoch.trace = s.trace := rfl
@[simp] theorem State.nextEpoch_calls : s.nextEpoch.calls = s.calls := rfl
@[simp] theorem State.nextEpoch_pending : s.nextEpoch.pending = s.pending := rfl
@[simp] theorem State.nextEpoch_epoch : s.nextEpoch.epoch = s.epoch + 1 := rfl
@[simp] theorem State.nextEpoch_draws : s.nextEpoch.draws = s.draws := rfl

@[simp] theorem State.withTrace_params (tr : List Event) : (s.withTrace tr).params = s.params := rfl
@[simp] theorem State.withTrace_parser (tr : List Event) : (s.withTrace tr).parser = s.parser := rfl
@[simp] theorem State.withTrace_queue (tr : List Event) : (s.withTrace tr).queue = s.queue := rfl
@[simp] theorem State.withTrace_consumer (tr : List Event) : (s.withTrace tr).consumer = s.consumer := rfl
@[simp] theorem State.withTrace_ret (tr : List Event) : (s.withTrace tr).ret = s.ret := rfl
@[simp] theorem State.withTrace_trace (tr : List Event) : (s.withTrace tr).trace = tr := rfl
@[simp] theorem State.withTrace_calls (tr : List Event) : (s.withTrace tr).calls = s.calls := rfl
@[simp] theorem State.withTrace_pending (tr : List Event) : (s.withTrace tr).pending = s.pending := rfl
@[simp] theorem State.withTrace_epoch (tr : List Event) : (s.withTrace tr).epoch = s.epoch := rfl
@[simp] theorem State.withTrace_draws (tr : List Event) : (s.withTrace tr).draws = s.draws := rfl

@[simp] theorem State.goTo_params (st : ParserState) (cur : Word) : (s.goTo st cur).params = s.params := rfl
@[simp] theorem State.goTo_parser (st : ParserState) (cur : Word) :
    (s.goTo st cur).parser = { s.parser with st := st, cur := cur } := rfl
@[simp] theorem State.goTo_queue (st : ParserState) (cur : Word) : (s.goTo st cur).queue = s.queue := rfl
@[simp] theorem State.goTo_consumer (st : ParserState) (cur : Word) : (s.goTo st cur).consumer = s.consumer := rfl
@[simp] theorem State.goTo_ret (st : ParserState) (cur : Word) : (s.goTo st cur).ret = s.ret := rfl
@[simp] theorem State.goTo_trace (st : ParserState) (cur : Word) : (s.goTo st cur).trace = s.trace := rfl
@[simp] theorem State.goTo_calls (st : ParserState) (cur : Word) : (s.goTo st cur).calls = s.calls := rfl
@[simp] theorem State.goTo_pending (st : ParserState) (cur : Word) : (s.goTo st cur).pending = s.pending := rfl
@[simp] theorem State.goTo_epoch (st : ParserState) (cur : Word) : (s.goTo st cur).epoch = s.epoch := rfl
@[simp] theorem State.goTo_draws (st : ParserState) (cur : Word) : (s.goTo st cur).draws = s.draws := rfl

@[simp] theorem State.setLen_params (l : Word) : (s.setLen l).params = s.params := rfl
@[simp] theorem State.setLen_parser (l : Word) : (s.setLen l).parser = { s.parser with len := l } := rfl
@[simp] theorem State.setLen_queue (l : Word) : (s.setLen l).queue = s.queue := rfl
@[simp] theorem State.setLen_consumer (l : Word) : (s.setLen l).consumer = s.consumer := rfl
@[simp] theorem State.setLen_ret (l : Word) : (s.setLen l).ret = s.ret := rfl
@[simp] theorem State.setLen_trace (l : Word) : (s.setLen l).trace = s.trace := rfl
@[simp] theorem State.setLen_calls (l : Word) : (s.setLen l).calls = s.calls := rfl
@[simp] theorem State.setLen_pending (l : Word) : (s.setLen l).pending = s.pending := rfl
@[simp] theorem State.setLen_epoch (l : Word) : (s.setLen l).epoch = s.epoch := rfl
@[simp] theorem State.setLen_draws (l : Word) : (s.setLen l).draws = s.draws := rfl

@[simp] theorem State.parserReset_params : s.parserReset.params = s.params := rfl
@[simp] theorem State.parserReset_parser : s.parserReset.parser = { s.parser with st := .header, cur := 0 } := rfl
@[simp] theorem State.parserReset_queue : s.parserReset.queue = s.queue := rfl
@[simp] theorem State.parserReset_consumer : s.parserReset.consumer = s.consumer := rfl
@[simp] theorem State.parserReset_ret : s.parserReset.ret = s.ret := rfl
@[simp] theorem State.parserReset_trace : s.parserReset.trace = s.trace := rfl
@[simp] theorem State.parserReset_calls : s.parserReset.calls = s.calls := rfl
@[simp] theorem State.parserReset_pending : s.parserReset.pending = s.pending := rfl
@[simp] theorem State.parserReset_epoch : s.parserReset.epoch = s.epoch := rfl
@[simp] theorem State.parserReset_draws : s.parserReset.draws = s.draws := rfl

@[simp] theorem State.storeByte_params (b : Byte) : (s.storeByte b).params = s.params := rfl
@[simp] theorem State.storeByte_parser (b : Byte) :
    (s.storeByte b).parser = { s.parser with buf := s.parser.buf.write s.parser.cur.toNat b } := rfl
@[simp] theorem State.storeByte_queue (b : Byte) : (s.storeByte b).queue = s.queue := rfl
@[simp] theorem State.storeByte_consumer (b : Byte) : (s.storeByte b).consumer = s.consumer := rfl
@[simp] theorem State.storeByte_ret (b : Byte) : (s.storeByte b).ret = s.ret := rfl
@[simp] theorem State.storeByte_trace (b : Byte) : (s.storeByte b).trace = s.trace := rfl
@[simp] theorem State.storeByte_calls (b : Byte) : (s.storeByte b).calls = s.calls := rfl
@[simp] theorem State.storeByte_pending (b : Byte) : (s.storeByte b).pending = s.pending := rfl
@[simp] theorem State.storeByte_epoch (b : Byte) : (s.storeByte b).epoch = s.epoch := rfl
@[simp] theorem State.storeByte_draws (b : Byte) : (s.storeByte b).draws = s.draws := rfl

@[simp] theorem State.emptyQueue_params : s.emptyQueue.params = s.params := rfl
@[simp] theorem State.emptyQueue_parser : s.emptyQueue.parser = s.parser := rfl
@[simp] theorem State.emptyQueue_queue : s.emptyQueue.queue = { s.queue with rd := 0, cnt := 0 } := rfl
@[simp] theorem State.emptyQueue_consumer : s.emptyQueue.consumer = s.consumer := rfl
@[simp] theorem State.emptyQueue_ret : s.emptyQueue.ret = s.ret := rfl
@[simp] theorem State.emptyQueue_trace : s.emptyQueue.trace = s.trace := rfl
@[simp] theorem State.emptyQueue_calls : s.emptyQueue.calls = s.calls := rfl
@[simp] theorem State.emptyQueue_pending : s.emptyQueue.pending = s.pending := rfl
@[simp] theorem State.emptyQueue_epoch : s.emptyQueue.epoch = s.epoch := rfl
@[simp] theorem State.emptyQueue_draws : s.emptyQueue.draws = s.draws := rfl

@[simp] theorem State.append_params (bytes : List Byte) : (s.append bytes).params = s.params := rfl
@[simp] theorem State.append_parser (bytes : List Byte) : (s.append bytes).parser = s.parser := rfl
@[simp] theorem State.append_consumer (bytes : List Byte) : (s.append bytes).consumer = s.consumer := rfl
@[simp] theorem State.append_ret (bytes : List Byte) : (s.append bytes).ret = s.ret := rfl
@[simp] theorem State.append_trace (bytes : List Byte) : (s.append bytes).trace = s.trace := rfl
@[simp] theorem State.append_calls (bytes : List Byte) : (s.append bytes).calls = s.calls := rfl
@[simp] theorem State.append_pending (bytes : List Byte) : (s.append bytes).pending = s.pending := rfl
@[simp] theorem State.append_epoch (bytes : List Byte) : (s.append bytes).epoch = s.epoch := rfl
@[simp] theorem State.append_draws (bytes : List Byte) : (s.append bytes).draws = s.draws := rfl

@[simp] theorem State.dropOldest_params (want : Word) : (s.dropOldest want).params = s.params := rfl
@[simp] theorem State.dropOldest_parser (want : Word) : (s.dropOldest want).parser = s.parser := rfl
@[simp] theorem State.dropOldest_consumer (want : Word) : (s.dropOldest want).consumer = s.consumer := rfl
@[simp] theorem State.dropOldest_ret (want : Word) : (s.dropOldest want).ret = s.ret := rfl
@[simp] theorem State.dropOldest_trace (want : Word) : (s.dropOldest want).trace = s.trace := rfl
@[simp] theorem State.dropOldest_calls (want : Word) : (s.dropOldest want).calls = s.calls := rfl
@[simp] theorem State.dropOldest_pending (want : Word) : (s.dropOldest want).pending = s.pending := rfl
@[simp] theorem State.dropOldest_epoch (want : Word) : (s.dropOldest want).epoch = s.epoch := rfl
@[simp] theorem State.dropOldest_draws (want : Word) : (s.dropOldest want).draws = s.draws := rfl

@[simp] theorem State.commandDone_params : s.commandDone.params = s.params := rfl
@[simp] theorem State.commandDone_parser : s.commandDone.parser = s.parser := rfl
@[simp] theorem State.commandDone_queue : s.commandDone.queue = s.queue := rfl
@[simp] theorem State.commandDone_consumer : s.commandDone.consumer = { s.consumer with point := .yield } := rfl
@[simp] theorem State.commandDone_ret : s.commandDone.ret = s.ret := rfl
@[simp] theorem State.commandDone_trace : s.commandDone.trace = s.trace := rfl
@[simp] theorem State.commandDone_calls : s.commandDone.calls = s.calls := rfl
@[simp] theorem State.commandDone_pending : s.commandDone.pending = s.pending := rfl
@[simp] theorem State.commandDone_epoch : s.commandDone.epoch = s.epoch := rfl
@[simp] theorem State.commandDone_draws : s.commandDone.draws = s.draws := rfl

@[simp] theorem State.goToPoint_params (p : IterPoint) : (s.goToPoint p).params = s.params := rfl
@[simp] theorem State.goToPoint_parser (p : IterPoint) : (s.goToPoint p).parser = s.parser := rfl
@[simp] theorem State.goToPoint_queue (p : IterPoint) : (s.goToPoint p).queue = s.queue := rfl
@[simp] theorem State.goToPoint_consumer (p : IterPoint) :
    (s.goToPoint p).consumer = { s.consumer with point := p } := rfl
@[simp] theorem State.goToPoint_ret (p : IterPoint) : (s.goToPoint p).ret = s.ret := rfl
@[simp] theorem State.goToPoint_trace (p : IterPoint) : (s.goToPoint p).trace = s.trace := rfl
@[simp] theorem State.goToPoint_calls (p : IterPoint) : (s.goToPoint p).calls = s.calls := rfl
@[simp] theorem State.goToPoint_pending (p : IterPoint) : (s.goToPoint p).pending = s.pending := rfl
@[simp] theorem State.goToPoint_epoch (p : IterPoint) : (s.goToPoint p).epoch = s.epoch := rfl
@[simp] theorem State.goToPoint_draws (p : IterPoint) : (s.goToPoint p).draws = s.draws := rfl

end Sys2Proof.Machine
end

