-- ==== Sys2Proof/Laws/Memory.lean ====
section
/-! SUPPORT. The laws of the byte memories: read after write, the canonical form and the size are kept, blocks and rings
are written where they should be, and equal readings are equal memories. -/

namespace Sys2Proof.Machine

/-! ### One byte -/

theorem Memory.read_write_same (m : Memory) (a : Nat) (v : Byte) : (m.write a v).read a = some v := by
  induction m with
  | nil => simp [Memory.write, Memory.read]
  | cons c rest ih =>
    obtain ⟨b, w⟩ := c
    simp only [Memory.write]
    split
    · simp [Memory.read]
    · split
      · simp [Memory.read]
      · rename_i h
        simp [Memory.read, h, ih]

theorem Memory.read_write_other (m : Memory) (a x : Nat) (v : Byte) (h : x ≠ a) :
    (m.write a v).read x = m.read x := by
  induction m with
  | nil => simp [Memory.write, Memory.read, h]
  | cons c rest ih =>
    obtain ⟨b, w⟩ := c
    simp only [Memory.write]
    split
    · simp [Memory.read, h]
    · split
      · rename_i hab
        subst hab
        simp [Memory.read, h]
      · simp [Memory.read, ih]

/-- Read after write, both cases. -/
theorem Memory.read_write (m : Memory) (a x : Nat) (v : Byte) :
    (m.write a v).read x = if x = a then some v else m.read x := by
  split
  · rename_i h
    rw [h, Memory.read_write_same]
  · rename_i h
    exact Memory.read_write_other m a x v h

/-! ### The canonical form -/

theorem Memory.risingFrom_mono {low low' : Nat} (h : low' ≤ low) (m : Memory) (hm : Memory.risingFrom low m = true) :
    Memory.risingFrom low' m = true := by
  cases m with
  | nil => rfl
  | cons c rest =>
    simp only [Memory.risingFrom, Bool.and_eq_true, decide_eq_true_eq] at hm ⊢
    exact ⟨le_trans h hm.1, hm.2⟩

theorem Memory.risingFrom_write (m : Memory) (low a : Nat) (v : Byte) (ha : low ≤ a)
    (hm : Memory.risingFrom low m = true) : Memory.risingFrom low (m.write a v) = true := by
  induction m generalizing low with
  | nil => simp [Memory.write, Memory.risingFrom, ha]
  | cons c rest ih =>
    obtain ⟨b, w⟩ := c
    simp only [Memory.risingFrom, Bool.and_eq_true, decide_eq_true_eq] at hm
    simp only [Memory.write]
    split
    · rename_i hlt
      simp only [Memory.risingFrom, Bool.and_eq_true, decide_eq_true_eq]
      exact ⟨ha, hlt, hm.2⟩
    · split
      · rename_i heq
        subst heq
        simp only [Memory.risingFrom, Bool.and_eq_true, decide_eq_true_eq]
        exact ⟨ha, hm.2⟩
      · simp only [Memory.risingFrom, Bool.and_eq_true, decide_eq_true_eq]
        exact ⟨hm.1, ih (b + 1) (by omega) hm.2⟩

/-- Writing one byte keeps the canonical form. -/
theorem Memory.wf_write (m : Memory) (a : Nat) (v : Byte) (hm : m.wf = true) : (m.write a v).wf = true :=
  Memory.risingFrom_write m 0 a v (Nat.zero_le a) hm

theorem Memory.wf_nil : Memory.wf [] = true := rfl

theorem Memory.wf_writeBlock (bytes : List Byte) (m : Memory) (start : Nat) (hm : m.wf = true) :
    (m.writeBlock start bytes).wf = true := by
  induction bytes generalizing m start with
  | nil => exact hm
  | cons v rest ih => exact ih _ _ (Memory.wf_write m start v hm)

theorem Memory.wf_writeRing (bytes : List Byte) (m : Memory) (c start : Nat) (hm : m.wf = true) :
    (m.writeRing c start bytes).wf = true := by
  induction bytes generalizing m start with
  | nil => exact hm
  | cons v rest ih => exact ih _ _ (Memory.wf_write m _ v hm)

/-- Nothing is listed below the least address. -/
theorem Memory.read_below (m : Memory) (low a : Nat) (hm : Memory.risingFrom low m = true) (ha : a < low) :
    m.read a = none := by
  induction m generalizing low with
  | nil => rfl
  | cons c rest ih =>
    obtain ⟨b, w⟩ := c
    simp only [Memory.risingFrom, Bool.and_eq_true, decide_eq_true_eq] at hm
    have hne : a ≠ b := by omega
    simp only [Memory.read, hne, if_false]
    exact ih (b + 1) hm.2 (by omega)

/-- In canonical form, memories that read alike are equal. -/
theorem Memory.ext_of_read (m n : Memory) (low : Nat) (hm : Memory.risingFrom low m = true)
    (hn : Memory.risingFrom low n = true) (h : ∀ a, m.read a = n.read a) : m = n := by
  induction m generalizing n low with
  | nil =>
    cases n with
    | nil => rfl
    | cons c rest =>
      have := h c.1
      simp [Memory.read] at this
  | cons c rest ih =>
    obtain ⟨b, w⟩ := c
    cases n with
    | nil =>
      have := h b
      simp [Memory.read] at this
    | cons d rest' =>
      obtain ⟨b', w'⟩ := d
      simp only [Memory.risingFrom, Bool.and_eq_true, decide_eq_true_eq] at hm hn
      have hbb : b = b' := by
        by_contra hne
        rcases Nat.lt_or_gt_of_ne hne with hlt | hlt
        · have h1 := h b
          simp only [Memory.read, if_true, hne, if_false] at h1
          rw [Memory.read_below rest' (b' + 1) b hn.2 (by omega)] at h1
          exact Option.some_ne_none _ h1
        · have h1 := h b'
          simp only [Memory.read, if_true, Ne.symm hne, if_false] at h1
          rw [Memory.read_below rest (b + 1) b' hm.2 (by omega)] at h1
          exact Option.some_ne_none _ h1.symm
      subst hbb
      have hw : w = w' := by
        have := h b
        simpa [Memory.read] using this
      subst hw
      have hr : rest = rest' := by
        refine ih rest' (b + 1) hm.2 hn.2 fun a => ?_
        by_cases hab : a = b
        · subst hab
          rw [Memory.read_below rest (a + 1) a hm.2 (by omega), Memory.read_below rest' (a + 1) a hn.2 (by omega)]
        · have := h a
          simpa [Memory.read, hab] using this
      rw [hr]

/-! ### The size -/

theorem Memory.within_write (m : Memory) (bound a : Nat) (v : Byte) (ha : a < bound) (hm : m.within bound = true) :
    (m.write a v).within bound = true := by
  induction m with
  | nil => simp [Memory.write, Memory.within, ha]
  | cons c rest ih =>
    obtain ⟨b, w⟩ := c
    simp only [Memory.within, List.all_cons, Bool.and_eq_true, decide_eq_true_eq] at hm ih
    simp only [Memory.write]
    split
    · simp only [Memory.within, List.all_cons, Bool.and_eq_true, decide_eq_true_eq]
      exact ⟨ha, hm⟩
    · split
      · simp only [Memory.within, List.all_cons, Bool.and_eq_true, decide_eq_true_eq]
        exact ⟨ha, hm.2⟩
      · simp only [Memory.within, List.all_cons, Bool.and_eq_true, decide_eq_true_eq]
        exact ⟨hm.1, ih hm.2⟩

theorem Memory.within_writeBlock (bytes : List Byte) (m : Memory) (bound start : Nat)
    (ha : start + bytes.length ≤ bound) (hm : m.within bound = true) : (m.writeBlock start bytes).within bound = true := by
  induction bytes generalizing m start with
  | nil => exact hm
  | cons v rest ih =>
    simp only [List.length_cons] at ha
    exact ih _ _ (by omega) (Memory.within_write m bound start v (by omega) hm)

theorem Memory.within_writeRing (bytes : List Byte) (m : Memory) (c start : Nat) (hc : 0 < c)
    (hm : m.within c = true) : (m.writeRing c start bytes).within c = true := by
  induction bytes generalizing m start with
  | nil => exact hm
  | cons v rest ih => exact ih _ _ (Memory.within_write m c _ v (Nat.mod_lt _ hc) hm)

/-! ### Blocks and rings -/

theorem Memory.read_writeBlock (bytes : List Byte) (m : Memory) (start a : Nat) :
    (m.writeBlock start bytes).read a =
      if start ≤ a ∧ a < start + bytes.length then bytes[a - start]? else m.read a := by
  induction bytes generalizing m start with
  | nil =>
    simp [Memory.writeBlock]
  | cons v rest ih =>
    rw [Memory.writeBlock, ih, Memory.read_write, List.length_cons]
    rcases Nat.lt_trichotomy a start with h | h | h
    · rw [if_neg (by omega), if_neg (by omega), if_neg (by omega)]
    · subst h
      rw [if_neg (by omega), if_pos rfl, if_pos (by omega)]
      simp
    · rw [if_neg (show ¬ a = start by omega)]
      have he : a - start = (a - (start + 1)) + 1 := by omega
      by_cases hb : a < start + 1 + rest.length
      · rw [if_pos (by omega), if_pos (by omega), he, List.getElem?_cons_succ]
      · rw [if_neg (by omega), if_neg (by omega)]

/-- A byte outside the ring positions written reads as before (R56). -/
theorem Memory.read_writeRing_other (bytes : List Byte) (m : Memory) (c start a : Nat)
    (h : ∀ i, i < bytes.length → a ≠ (start + i) % c) : (m.writeRing c start bytes).read a = m.read a := by
  induction bytes generalizing m start with
  | nil => rfl
  | cons v rest ih =>
    rw [Memory.writeRing, ih]
    · have h0 := h 0 (by simp)
      rw [Memory.read_write, if_neg (by simpa using h0)]
    · intro i hi
      have := h (i + 1) (by simpa using hi)
      rwa [show start + 1 + i = start + (i + 1) by omega]

/-- Distinct offsets below the capacity are distinct ring positions. -/
theorem ring_index_injective {c start i j : Nat} (hi : i < c) (hj : j < c)
    (h : (start + i) % c = (start + j) % c) : i = j := by
  have h1 : i ≡ j [MOD c] := Nat.ModEq.add_left_cancel' start h
  have h2 : i % c = j % c := h1
  rwa [Nat.mod_eq_of_lt hi, Nat.mod_eq_of_lt hj] at h2

/-- Byte `i` of a block that fits the ring is read back at its ring position (R56). -/
theorem Memory.read_writeRing (bytes : List Byte) (m : Memory) (c start i : Nat) (hi : i < bytes.length)
    (hc : bytes.length ≤ c) : (m.writeRing c start bytes).read ((start + i) % c) = bytes[i]? := by
  induction bytes generalizing m start i with
  | nil => simp at hi
  | cons v rest ih =>
    simp only [List.length_cons] at hi hc
    rw [Memory.writeRing]
    cases i with
    | zero =>
      rw [Memory.read_writeRing_other]
      · simp [Memory.read_write_same]
      · intro j hj heq
        have : (start + 0) % c = (start + (j + 1)) % c := by
          rw [heq]
          congr 1
          omega
        have := ring_index_injective (by omega) (by omega) this
        omega
    | succ k =>
      rw [show start + (k + 1) = start + 1 + k by omega, ih _ _ _ (by omega) (by omega), List.getElem?_cons_succ]

end Sys2Proof.Machine
end

