-- ==== Sys2Proof/Laws/Ops.lean ====
section
/-! SUPPORT. One lemma per shared operation that says once everything it can do; proofs cite these and do not unfold. -/

namespace Sys2Proof.Machine

/-! ### When a transaction runs -/

theorem whenRunning_of_running {s : State} (h : Running s) (k : Outcome) : whenRunning s k = k := by
  obtain ⟨hp, hr⟩ := h
  simp [whenRunning, hp, hr]

/-- A next state comes only from a running machine, and from the body. -/
theorem whenRunning_next_iff {s t : State} {k : Outcome} :
    whenRunning s k = .next t ↔ Running s ∧ k = .next t := by
  constructor
  · intro h
    unfold whenRunning at h
    split at h
    · cases h
    · split at h
      · cases h
      · rename_i hp hr
        exact ⟨⟨by simpa using hp, hr⟩, h⟩
  · rintro ⟨hr, hk⟩
    rw [whenRunning_of_running hr, hk]

theorem whenRunning_fault_iff {s : State} {k : Outcome} {f : Fault} :
    whenRunning s k = .fault f ↔ Running s ∧ k = .fault f := by
  constructor
  · intro h
    unfold whenRunning at h
    split at h
    · cases h
    · split at h
      · cases h
      · rename_i hp hr
        exact ⟨⟨by simpa using hp, hr⟩, h⟩
  · rintro ⟨hr, hk⟩
    rw [whenRunning_of_running hr, hk]

/-- A row answers a next state exactly where R26's pair holds, the row is the byte's, and the index is in the buffer. -/
theorem rxEntry_next_iff {b : Byte} {s t : State} {selected : Bool} {row : State → State} :
    rxEntry b s selected row = .next t ↔
      Running s ∧ s.parser.pairOk = true ∧ selected = true ∧ s.parser.cur.toNat < s.params.maxFrame ∧
        t = row (s.storeByte b) := by
  rw [rxEntry, whenRunning_next_iff]
  refine and_congr_right fun _ => ?_
  cases hp : s.parser.pairOk <;> cases selected <;> simp only [Bool.not_false, Bool.not_true, if_true, if_false,
    Bool.false_eq_true, false_and, true_and, reduceCtorEq]
  by_cases hi : s.params.maxFrame ≤ s.parser.cur.toNat
  · simp [hi, Nat.not_lt.mpr hi]
  · simp only [hi, if_false, Nat.not_le.mp hi, true_and]
    constructor
    · intro h
      cases h
      rfl
    · rintro rfl
      rfl

/-- A row faults only where R26's pair does not hold, or the index is outside the buffer. -/
theorem rxEntry_fault {b : Byte} {s : State} {selected : Bool} {row : State → State} {f : Fault}
    (h : rxEntry b s selected row = .fault f) :
    s.parser.pairOk = false ∨ s.params.maxFrame ≤ s.parser.cur.toNat := by
  rw [rxEntry, whenRunning_fault_iff] at h
  obtain ⟨-, h⟩ := h
  by_cases hp : s.parser.pairOk = true
  · right
    simp only [hp, Bool.not_true, Bool.false_eq_true, if_false] at h
    split at h
    · cases h
    · split at h
      · assumption
      · cases h
  · left
    simpa using hp

theorem commandEntry_next_iff {s t : State} {selected : Bool} {k : Outcome} :
    commandEntry s selected k = .next t ↔
      Running s ∧ s.consumer.point = .dispatch ∧ selected = true ∧ k = .next t := by
  rw [commandEntry, whenRunning_next_iff]
  refine and_congr_right fun _ => ?_
  by_cases h : s.consumer.point = .dispatch ∧ selected = true
  · simp [h]
  · rw [if_neg h]
    constructor
    · intro h'
      cases h'
    · rintro ⟨h1, h2, -⟩
      exact absurd ⟨h1, h2⟩ h

theorem iterEntry_next_iff {s t : State} {here : Prop} [Decidable here] {k : Outcome} :
    iterEntry s here k = .next t ↔ Running s ∧ here ∧ k = .next t := by
  rw [iterEntry, whenRunning_next_iff]
  refine and_congr_right fun _ => ?_
  by_cases h : here
  · simp [h]
  · rw [if_neg h]
    constructor
    · intro h'
      cases h'
    · rintro ⟨h1, -⟩
      exact absurd h1 h

/-! ### The parser's tests -/

theorem lengthInRange_iff (maxFrame : Nat) (l : Word) :
    lengthInRange maxFrame l = true ↔ 2 < l.toNat ∧ l.toNat < maxFrame - 5 := by
  simp [lengthInRange]

theorem moreData_iff (cur len : Word) : moreData cur len = true ↔ cur.toNat + 1 < len.toNat + 4 := by
  simp [moreData]

theorem lastData_iff (cur len : Word) : lastData cur len = true ↔ cur.toNat + 1 = len.toNat + 4 := by
  simp [lastData]

theorem bodyLengthOk_iff (p : Params) (l : Word) :
    bodyLengthOk p l = true ↔ 0 < l.toNat ∧ l.toNat < p.maxFrame ∧ l.toNat ≤ p.fifoCapacity := by
  simp [bodyLengthOk, and_assoc]

/-! ### The FIFO -/

/-- `fifo` reads only the queue, the capacity and the epoch. -/
theorem State.fifo_congr {s t : State} (hq : t.queue = s.queue) (hp : t.params = s.params) (he : t.epoch = s.epoch) :
    t.fifo = s.fifo := by
  simp only [State.fifo, State.oldest, State.readQ, hq, hp, he]

@[simp] theorem State.fifo_length (s : State) : s.fifo.length = s.queue.cnt.toNat := by
  simp [State.fifo, State.oldest]

@[simp] theorem State.emptyQueue_fifo (s : State) : s.emptyQueue.fifo = [] := by
  simp [State.fifo, State.oldest, State.emptyQueue]

theorem State.freeSpace_le (s : State) : s.freeSpace ≤ s.params.fifoCapacity := Nat.sub_le _ _

theorem wellFormed_capacity {p : Params} (h : paramsWellFormed p = true) :
    1 ≤ p.fifoCapacity ∧ p.fifoCapacity < 2 ^ 32 := by
  simp only [paramsWellFormed, Bool.and_eq_true, decide_eq_true_eq] at h
  omega

theorem wellFormed_maxFrame {p : Params} (h : paramsWellFormed p = true) :
    9 ≤ p.maxFrame ∧ p.maxFrame < 2 ^ 32 := by
  simp only [paramsWellFormed, Bool.and_eq_true, decide_eq_true_eq] at h
  omega

theorem State.append_cnt {s : State} {bytes : List Byte} (hp : paramsWellFormed s.params = true) (hq : QueueOk s)
    (hn : bytes.length ≤ s.freeSpace) : (s.append bytes).queue.cnt.toNat = s.queue.cnt.toNat + bytes.length := by
  have hc := wellFormed_capacity hp
  have h2 := hq.2
  simp only [State.freeSpace] at hn
  simp only [State.append, State.withQueue_queue, BitVec.toNat_ofNat]
  exact Nat.mod_eq_of_lt (by omega)

/-- R160: a block that fits goes after the queued bytes. -/
theorem State.append_fifo {s : State} {bytes : List Byte} (hp : paramsWellFormed s.params = true) (hq : QueueOk s)
    (hn : bytes.length ≤ s.freeSpace) : (s.append bytes).fifo = s.fifo ++ bytes := by
  have hc := wellFormed_capacity hp
  have hcnt := State.append_cnt hp hq hn
  obtain ⟨-, h2⟩ := hq
  simp only [State.freeSpace] at hn
  refine List.ext_getElem (by simp only [State.fifo_length, hcnt, List.length_append]) fun i h1 h2' => ?_
  rw [State.fifo_length, hcnt] at h1
  rw [List.getElem_append]
  simp only [State.fifo, State.oldest, State.readQ, List.getElem_map, List.getElem_range, List.length_map,
    List.length_range]
  simp only [State.append, State.withQueue_queue, State.withQueue_params, State.withQueue_epoch]
  split
  · rename_i hi
    rw [Memory.read_writeRing_other]
    intro j hj heq
    rw [Nat.add_assoc] at heq
    have := ring_index_injective (c := s.params.fifoCapacity) (by omega) (by omega) heq
    omega
  · rename_i hi
    have hi' : s.queue.rd.toNat + i = s.queue.rd.toNat + s.queue.cnt.toNat + (i - s.queue.cnt.toNat) := by omega
    have hlt : i - s.queue.cnt.toNat < bytes.length := by omega
    rw [hi', Memory.read_writeRing bytes _ _ _ _ hlt (by omega), List.getElem?_eq_getElem hlt, Option.getD_some]

/-- R162: the oldest bytes are the first of `fifo`. -/
theorem State.oldest_eq_take {s : State} {n : Nat} (hn : n ≤ s.queue.cnt.toNat) : s.oldest n = s.fifo.take n := by
  simp only [State.fifo, State.oldest, ← List.map_take, List.take_range, Nat.min_eq_left hn]

theorem State.dropOldest_cnt {s : State} {want : Word} (hn : want.toNat ≤ s.queue.cnt.toNat) :
    (s.dropOldest want).queue.cnt.toNat = s.queue.cnt.toNat - want.toNat := by
  simp only [State.dropOldest, State.withQueue_queue]
  exact BitVec.toNat_sub_of_le hn

theorem State.dropOldest_rd {s : State} {want : Word} (hp : paramsWellFormed s.params = true) :
    (s.dropOldest want).queue.rd.toNat = (s.queue.rd.toNat + want.toNat) % s.params.fifoCapacity := by
  have hc := wellFormed_capacity hp
  have := Nat.mod_lt (s.queue.rd.toNat + want.toNat) (show 0 < s.params.fifoCapacity by omega)
  simp only [State.dropOldest, State.withQueue_queue, BitVec.toNat_ofNat]
  exact Nat.mod_eq_of_lt (by omega)

/-- R162: removing the oldest bytes leaves the rest of `fifo`. -/
theorem State.dropOldest_fifo {s : State} {want : Word} (hp : paramsWellFormed s.params = true)
    (hn : want.toNat ≤ s.queue.cnt.toNat) : (s.dropOldest want).fifo = s.fifo.drop want.toNat := by
  have hcnt := State.dropOldest_cnt hn
  have hrd := State.dropOldest_rd (want := want) hp
  refine List.ext_getElem (by simp only [State.fifo_length, hcnt, List.length_drop]) fun i h1 h2 => ?_
  rw [List.getElem_drop]
  simp only [State.fifo, State.oldest, State.readQ, List.getElem_map, List.getElem_range, hrd]
  simp only [State.dropOldest, State.withQueue_queue, State.withQueue_params, State.withQueue_epoch]
  rw [Nat.mod_add_mod, Nat.add_assoc]

/-- Everything `PUT` can do (R160, R161). -/
theorem putBlock_cases (bytes : List Byte) (s : State) :
    (bytes.length ≤ s.freeSpace ∧ putBlock bytes s = (BitVec.ofNat 32 bytes.length, s.append bytes)) ∨
    (s.freeSpace < bytes.length ∧ putBlock bytes s = putOverflowing bytes s) := by
  unfold putBlock
  split
  · exact .inl ⟨‹_›, rfl⟩
  · exact .inr ⟨by omega, rfl⟩

/-- Everything the overflow reset can do (R161). -/
theorem putOverflowing_cases (bytes : List Byte) (s : State) :
    (s.params.overflowKeepsNew = true ∧ bytes.length ≤ s.params.fifoCapacity ∧
      putOverflowing bytes s = (BitVec.ofNat 32 bytes.length,
        (s.emptyQueue.emit (.fifoOverflow bytes.length s.queue.cnt)).append bytes)) ∨
    ((s.params.overflowKeepsNew = false ∨ s.params.fifoCapacity < bytes.length) ∧
      putOverflowing bytes s = (0, s.emptyQueue.emit (.fifoOverflow bytes.length s.queue.cnt))) := by
  unfold putOverflowing
  simp only [Bool.and_eq_true, decide_eq_true_eq]
  split
  · rename_i h
    exact .inl ⟨h.1, h.2, rfl⟩
  · rename_i h
    refine .inr ⟨?_, rfl⟩
    by_cases hk : s.params.overflowKeepsNew = true
    · right
      exact Nat.lt_of_not_le fun hle => h ⟨hk, hle⟩
    · left
      simpa using hk

/-- What no `PUT` touches (R160, R161). -/
theorem putBlock_frame (bytes : List Byte) (s : State) :
    (putBlock bytes s).2.parser = s.parser ∧ (putBlock bytes s).2.consumer = s.consumer ∧
      (putBlock bytes s).2.ret = s.ret ∧ SameOutside s (putBlock bytes s).2 := by
  obtain ⟨-, e⟩ | ⟨-, e⟩ := putBlock_cases bytes s
  · rw [e]
    exact ⟨rfl, rfl, rfl, rfl, rfl, rfl, rfl, rfl⟩
  · rw [e]
    obtain ⟨-, -, e'⟩ | ⟨-, e'⟩ := putOverflowing_cases bytes s <;> rw [e'] <;>
      exact ⟨rfl, rfl, rfl, rfl, rfl, rfl, rfl, rfl⟩

/-- The labels a `PUT` appends (R160, R161). -/
theorem putBlock_trace (bytes : List Byte) (s : State) :
    (putBlock bytes s).2.trace = s.trace ++ putEvents s bytes := by
  unfold putEvents
  obtain ⟨h, e⟩ | ⟨h, e⟩ := putBlock_cases bytes s
  · rw [e, if_pos h]
    simp
  · rw [e, if_neg (by omega)]
    obtain ⟨-, -, e'⟩ | ⟨-, e'⟩ := putOverflowing_cases bytes s <;> rw [e'] <;> simp

/-- Everything `GET` can do (R162, R163). -/
theorem getBlock_cases (want : Word) (s : State) :
    (want.toNat ≤ s.queue.cnt.toNat ∧ getBlock want s =
      (want, s.oldest want.toNat, (s.dropOldest want).withRet (.got want (s.oldest want.toNat)))) ∨
    (s.queue.cnt.toNat < want.toNat ∧ getBlock want s = (0, [], s.withRet (.got 0 []))) := by
  unfold getBlock
  split
  · exact .inl ⟨‹_›, rfl⟩
  · exact .inr ⟨by omega, rfl⟩

/-! ### The parser -/

/-- What the store of R130 does to the buffer. -/
theorem State.storeByte_read (s : State) (b : Byte) (a : Nat) :
    (s.storeByte b).parser.buf.read a = if a = s.parser.cur.toNat then some b else s.parser.buf.read a :=
  Memory.read_write _ _ _ _

/-- The store at the cursor does not touch the bytes before it, which the CRC covers (R141). -/
theorem State.storeByte_bufRange (s : State) (b : Byte) {n : Nat} (hn : n ≤ s.parser.cur.toNat) :
    (s.storeByte b).bufRange n = s.bufRange n := by
  refine List.map_congr_left fun i hi => ?_
  have : i ≠ s.parser.cur.toNat := by
    have := List.mem_range.mp hi
    omega
  simp only [State.readBuf, State.storeByte_read, this, if_false]
  rfl

/-- The CRC is the same before and after the store (R141), in a state of R26's table. -/
theorem State.storeByte_frameCrc (s : State) (b : Byte) (hn : s.parser.len.toNat + 4 ≤ s.parser.cur.toNat) :
    (s.storeByte b).frameCrc = s.frameCrc := by
  simp only [State.frameCrc, State.storeByte_parser, State.storeByte_bufRange s b hn]

/-- The bytes received, with the one just stored (R64). -/
theorem State.storeByte_bufRange_succ (s : State) (b : Byte) :
    (s.storeByte b).bufRange (s.parser.cur.toNat + 1) = s.bufRange s.parser.cur.toNat ++ [b] := by
  have h := State.storeByte_bufRange s b (le_refl s.parser.cur.toNat)
  simp only [State.bufRange, List.range_succ, List.map_append, List.map_cons, List.map_nil] at h ⊢
  rw [h]
  simp [State.readBuf, Memory.read_write_same]

/-! ### The parser's rows, each as one update of the parser (R131 to R140) -/

section Rows
variable (b : Byte) (t : State)

theorem rowHdrSof_eq : rowHdrSof t = t.withParser { t.parser with st := .length0, cur := 1 } := rfl

theorem rowHdrNoise_eq :
    rowHdrNoise b t = (t.withParser { t.parser with st := .header, cur := 0 }).emit (.badSentinel b) := rfl

theorem rowLen0_eq : rowLen0 b t =
    t.withParser { t.parser with len := b.setWidth 32 <<< 24, st := .length1, cur := 2 } := by
  simp only [rowLen0, State.goTo, State.setLen, State.withParser_parser, State.withParser_withParser]

theorem rowLen1_eq : rowLen1 b t = t.withParser
    { t.parser with len := t.parser.len ||| (b.setWidth 32 <<< 16), st := .length2, cur := 3 } := rfl

theorem rowLen2_eq : rowLen2 b t = t.withParser
    { t.parser with len := t.parser.len ||| (b.setWidth 32 <<< 8), st := .length3, cur := 4 } := rfl

theorem rowLen3Ok_eq : rowLen3Ok b t = t.withParser
    { t.parser with len := lengthWith t.parser.len b, st := .command, cur := 5 } := rfl

theorem rowLen3Bad_eq : rowLen3Bad b t = (t.withParser
    { t.parser with len := lengthWith t.parser.len b, st := .header, cur := 0 }).emit
      (.lenRange (lengthWith t.parser.len b)) := rfl

theorem rowCmd_eq : rowCmd t = t.withParser { t.parser with st := .data, cur := 6 } := rfl

theorem rowDataMore_eq :
    rowDataMore t = t.withParser { t.parser with st := .data, cur := t.parser.cur + 1 } := rfl

theorem rowDataLast_eq :
    rowDataLast t = t.withParser { t.parser with st := .crc, cur := t.parser.cur + 1 } := rfl

theorem rowCrcBad_eq : rowCrcBad b t =
    (t.emit (.crcMismatch t.parser.len b)).withParser { t.parser with st := .header, cur := 0 } := rfl

theorem rowCrcOk_eq : rowCrcOk t =
    ((putBlock (t.bufRange (t.parser.len.toNat + 5)) t).2.emit (.frameAccepted t.parser.len)).withParser
      { t.parser with st := .header, cur := 0 } := by
  have h := (putBlock_frame (t.bufRange (t.parser.len.toNat + 5)) t).1
  simp only [rowCrcOk, State.parserReset, Parser.localReset, State.emit_parser, h]

end Rows

/-- Splitting the CRC (R114). -/
theorem crc8_append (seed : Byte) (x y : List Byte) : crc8 seed (x ++ y) = crc8 (crc8 seed x) y :=
  List.foldl_append

/-- A run of `RX` in two parts. -/
theorem rxAll_append (x y : List Byte) (s : State) :
    rxAll (x ++ y) s = match rxAll x s with
      | .next t => rxAll y t
      | .fault f => .fault f
      | .refused r => .refused r := by
  induction x generalizing s with
  | nil => rfl
  | cons b rest ih =>
    simp only [List.cons_append, rxAll]
    cases rxByte b s <;> simp only [ih]

/-! ### The step -/

/-- Everything a step can do: nothing, or the meaning of the transaction that was asked for, or a refusal. -/
theorem step_cases (s : State) :
    (s.pending = [] ∧ step s = .next s) ∨
    (∃ i t, fetch s = .run i t ∧ step s = exec i t) ∨
    (∃ r, fetch s = .refuse r ∧ step s = .refused r) := by
  unfold step
  cases h : fetch s with
  | idle =>
    left
    refine ⟨?_, rfl⟩
    unfold fetch at h
    split at h
    · assumption
    · rename_i a word rest heq
      unfold fetchPort at h
      split at h
      · cases h
      · split at h <;> cases h
    · unfold fetchTurn at h
      split at h <;> cases h
  | run i t => exact .inr (.inl ⟨i, t, rfl, rfl⟩)
  | refuse r => exact .inr (.inr ⟨r, rfl, rfl⟩)

end Sys2Proof.Machine
end

