-- ==== Sys2Proof/Laws/PerInstr.lean ====
section
/-! SUPPORT. One lemma per constructor: the encoder's first byte meets the mask and the match of the instruction's row of
spec/opcode_table.json; a row without a match has no encoding. -/

namespace Sys2Proof.Laws.MatchMask

/-- The table's mask and match, where the row has them. -/
def rowBits : Instr → Option (Byte × Byte)
  | .nop => some (0x7, 0x0)
  | .rx _ => some (0x7, 0x1)
  | .get _ => some (0x7, 0x2)
  | .getShort _ => some (0x7, 0x2)
  | .reset => some (0x7, 0x3)
  | .crcStep _ _ => some (0x7, 0x4)
  | .crcTabgen _ => some (0x7, 0x5)
  | .reserved110 => some (0x7, 0x6)
  | .hreset => some (0x7, 0x7)
  | .put _ => none
  | .putOverflow _ => none
  | .crcSum _ _ => none
  | .hdrSof => some (0xFF, 0x58)
  | .hdrNoise _ => some (0x00, 0x00)
  | .len0 _ => some (0x00, 0x00)
  | .len1 _ => some (0x00, 0x00)
  | .len2 _ => some (0x00, 0x00)
  | .len3Ok _ => some (0x00, 0x00)
  | .len3Bad _ => some (0x00, 0x00)
  | .cmd _ => some (0x00, 0x00)
  | .dataMore _ => some (0x00, 0x00)
  | .dataLast _ => some (0x00, 0x00)
  | .crcOk _ => some (0x00, 0x00)
  | .crcBad _ => some (0x00, 0x00)
  | .frame _ _ => some (0xFF, 0x58)
  | .setBrightness => some (0xFF, 0x01)
  | .clearScreen => some (0xFF, 0x02)
  | .blitJpg => some (0xFF, 0x03)
  | .blitPng => some (0xFF, 0x04)
  | .rebootToFel => some (0xFF, 0xFE)
  | .unknownCmd _ => some (0x00, 0x00)
  | .iterPrefix => none
  | .iterValidate => none
  | .iterBody => none
  | .iterDispatch => none
  | .iterYield => none
  | .ack => some (0xFF, 0x58)

/-- The first byte of the encoding has the row's fixed bits. -/
def Statement (i : Instr) : Prop :=
  match encode i, rowBits i with
  | some (_, b :: _), some (mask, bits) => b &&& mask = bits
  | none, none => True
  | _, _ => False

theorem nop : Statement .nop := rfl

theorem rx (b : Byte) : Statement (.rx b) := rfl

theorem get (want : Word) : Statement (.get want) := rfl

theorem getShort (want : Word) : Statement (.getShort want) := rfl

theorem reset : Statement .reset := rfl

theorem crcStep (c : Byte) (b : Byte) : Statement (.crcStep c b) := rfl

theorem crcTabgen (index : Byte) : Statement (.crcTabgen index) := rfl

theorem reserved110 : Statement .reserved110 := rfl

theorem hreset : Statement .hreset := rfl

theorem put (bytes : List Byte) : Statement (.put bytes) := trivial

theorem putOverflow (bytes : List Byte) : Statement (.putOverflow bytes) := trivial

theorem crcSum (seed : Byte) (bytes : List Byte) : Statement (.crcSum seed bytes) := trivial

theorem hdrSof : Statement .hdrSof := rfl

theorem hdrNoise (b : Byte) : Statement (.hdrNoise b) := BitVec.and_zero

theorem len0 (b : Byte) : Statement (.len0 b) := BitVec.and_zero

theorem len1 (b : Byte) : Statement (.len1 b) := BitVec.and_zero

theorem len2 (b : Byte) : Statement (.len2 b) := BitVec.and_zero

theorem len3Ok (b : Byte) : Statement (.len3Ok b) := BitVec.and_zero

theorem len3Bad (b : Byte) : Statement (.len3Bad b) := BitVec.and_zero

theorem cmd (b : Byte) : Statement (.cmd b) := BitVec.and_zero

theorem dataMore (b : Byte) : Statement (.dataMore b) := BitVec.and_zero

theorem dataLast (b : Byte) : Statement (.dataLast b) := BitVec.and_zero

theorem crcOk (b : Byte) : Statement (.crcOk b) := BitVec.and_zero

theorem crcBad (b : Byte) : Statement (.crcBad b) := BitVec.and_zero

theorem frame (command : Byte) (payload : List Byte) : Statement (.frame command payload) := rfl

theorem setBrightness : Statement .setBrightness := rfl

theorem clearScreen : Statement .clearScreen := rfl

theorem blitJpg : Statement .blitJpg := rfl

theorem blitPng : Statement .blitPng := rfl

theorem rebootToFel : Statement .rebootToFel := rfl

theorem unknownCmd (opcode : Byte) : Statement (.unknownCmd opcode) := BitVec.and_zero

theorem iterPrefix : Statement .iterPrefix := trivial

theorem iterValidate : Statement .iterValidate := trivial

theorem iterBody : Statement .iterBody := trivial

theorem iterDispatch : Statement .iterDispatch := trivial

theorem iterYield : Statement .iterYield := trivial

theorem ack : Statement .ack := rfl

end Sys2Proof.Laws.MatchMask
end

