-- ==== Sys2Proof/Laws/Run.lean ====
section
/-! SUPPORT. What one moment of a run can do: the two actions that fairness speaks of as instructions, what the others leave
of the consumer, and the invariant over the requests. -/

namespace Sys2Proof.Machine

@[simp] theorem State.withPending_withPending (s : State) (r r' : List Request) :
    (s.withPending r).withPending r' = s.withPending r' := rfl

/-- No invariant speaks of what the agents will ask for. -/
@[simp] theorem Inv_withPending (s : State) (r : List Request) : Inv (s.withPending r) = Inv s := rfl

/-- The producer's moment is one `RX` (R130). -/
theorem step_deliver (s : State) (b : Byte) :
    step (s.withPending [.port .producer [0x01, b]]) = exec (.rx b) (s.withPending []) := rfl

/-- The consumer's moment is its next step of `ITER`. -/
theorem step_turn {s : State} {i : Instr} (h : nextIter s.consumer = some i) :
    step (s.withPending [.turn]) = exec i (s.withPending []) := by
  simp only [step, fetch, State.withPending_pending, fetchTurn, State.withPending_consumer, h,
    State.withPending_withPending]

/-- An empty word is no instruction, and a word names a port operation (R90). -/
theorem decodePort_cases {c : DecodeContext} {word more : List Byte} {i : Instr}
    (h : decode c .port word = .ok (i, more)) :
    i = .nop ∨ (∃ b, i = .rx b) ∨ (∃ want, i = .get want ∨ i = .getShort want) ∨ i = .reset ∨
      (∃ x b, i = .crcStep x b) ∨ (∃ x, i = .crcTabgen x) ∨ i = .reserved110 ∨ i = .hreset := by
  cases word with
  | nil => cases h
  | cons first operands =>
    simp only [decode, decodePort] at h
    split at h
    · cases h
      simp
    · split at h <;> cases h
      simp
    · split at h <;> cases h
      split <;> simp
    · cases h
      simp
    · split at h <;> cases h
      simp
    · split at h <;> cases h
      simp
    · cases h
      simp
    · cases h
      simp

/-- No port operation but `HRESET` touches the consumer (R20, R63). -/
theorem exec_port_consumer {c : DecodeContext} {word more : List Byte} {i : Instr} {s t : State}
    (hd : decode c .port word = .ok (i, more)) (hr : i ≠ .hreset) (hrx : ∀ b, i ≠ .rx b) (h : exec i s = .next t) :
    t.consumer = s.consumer := by
  obtain rfl | ⟨b, rfl⟩ | ⟨want, rfl | rfl⟩ | rfl | ⟨x, b, rfl⟩ | ⟨x, rfl⟩ | rfl | rfl := decodePort_cases hd
  · obtain ⟨-, h⟩ := whenRunning_next_iff.mp h
    cases h
    rfl
  · exact absurd rfl (hrx b)
  · obtain ⟨-, h⟩ := whenRunning_next_iff.mp h
    cases h
    obtain ⟨-, e⟩ | ⟨-, e⟩ := getBlock_cases want s <;> rw [e] <;> rfl
  · obtain ⟨-, h⟩ := whenRunning_next_iff.mp h
    split at h <;> cases h
    rfl
  · obtain ⟨-, h⟩ := whenRunning_next_iff.mp h
    cases h
    rfl
  · obtain ⟨-, h⟩ := whenRunning_next_iff.mp h
    cases h
    rfl
  · obtain ⟨-, h⟩ := whenRunning_next_iff.mp h
    cases h
    rfl
  · obtain ⟨-, h⟩ := whenRunning_next_iff.mp h
    cases h
  · exact absurd rfl hr

end Sys2Proof.Machine
end

