-- ==== Sys2Proof/Tests/Slice0.lean ====
section
/-! SUPPORT. The model's own tests. Expected results are the spec's vectors (95_test_vectors, named V-… in the comments) or
worked out by hand from the rule named; and for each obligation that has hypotheses, a state that meets them. -/

namespace Sys2Proof.Tests

open Sys2Proof.Machine

/-! ### Helpers -/

/-- What a next state shows; nothing for a fault or a refusal. -/
def after {α : Type} (o : Outcome) (f : State → α) : Option α :=
  match o with
  | .next t => some (f t)
  | .fault _ => none
  | .refused _ => none

def refusalOf (o : Outcome) : Option Refusal :=
  match o with
  | .refused r => some r
  | _ => none

def faultOf (o : Outcome) : Option Fault :=
  match o with
  | .fault f => some f
  | _ => none

/-- The machine after reset with a ring of `c` bytes. -/
def withRing (c : Nat) : State := State.resetWith { Config.params with fifoCapacity := c }

/-- The machine after reset with buffers of `m` bytes and a ring of `c`. -/
def sized (m c : Nat) : State := State.resetWith { Config.params with maxFrame := m, fifoCapacity := c }

/-- The parser after `bytes`. -/
def parserIn (s : State) (st : ParserState) (len : Word) (bytes : List Byte) : State :=
  s.withParser ⟨st, BitVec.ofNat 32 bytes.length, len, Memory.writeBlock [] 0 bytes⟩

/-- The queue holding `bytes` from ring position `rd`. -/
def queued (s : State) (rd : Nat) (bytes : List Byte) : State :=
  s.withQueue ⟨Memory.writeRing [] s.params.fifoCapacity rd bytes, BitVec.ofNat 32 rd,
    BitVec.ofNat 32 bytes.length⟩

/-- The consumer at a step, with a body in `scratch`. -/
def consumerAt (s : State) (phase : Phase) (need : Word) (point : IterPoint) (body : List Byte) : State :=
  s.withConsumer ⟨phase, need, Memory.writeBlock [] 0 body, point⟩

/-- At step 4 with a body of `Lc` bytes. -/
def dispatching (body : List Byte) : State :=
  consumerAt (withRing 64) .wantPrefix (BitVec.ofNat 32 body.length) .dispatch body

def parserOf (s : State) : ParserState × Word × Word := (s.parser.st, s.parser.cur, s.parser.len)

/-- Frame A of 95_test_vectors (brightness 0x80). -/
def frameA : List Byte := [0x58, 0x00, 0x00, 0x00, 0x03, 0x01, 0x80, 0x61]

/-- Frame B of 95_test_vectors (clear to red). -/
def frameB : List Byte := [0x58, 0x00, 0x00, 0x00, 0x05, 0x02, 0xFF, 0x00, 0x00, 0x3A]

/-! ### Well-formedness: an ill-formed term for each check -/

theorem test_wellFormed_hdrNoise : (Instr.hdrNoise 0x58).wellFormed = false := by decide
theorem test_wellFormed_unknownCmd : (Instr.unknownCmd 0xFE).wellFormed = false := by decide
theorem test_wellFormed_put : (Instr.put [1, 2, 3, 4, 5, 6, 7]).wellFormed = false := by decide
theorem test_wellFormed_putOverflow : (Instr.putOverflow []).wellFormed = false := by decide
theorem test_wellFormed_frame : (Instr.frame 0x01 []).wellFormed = false := by decide
theorem test_wellFormed_accepts : (Instr.frame 0x01 [0x80]).wellFormed = true ∧
    (Instr.hdrNoise 0xA5).wellFormed = true ∧ (Instr.put frameA).wellFormed = true := by decide

/-! ### Decoding words written out from the spec -/

/-- R90: op = 000, 001, 011, 110. -/
theorem test_decode_port_plain :
    decode .afterReset .port [0x00] = .ok (.nop, []) ∧ decode .afterReset .port [0x01, 0x58] = .ok (.rx 0x58, []) ∧
    decode .afterReset .port [0x03] = .ok (.reset, []) ∧
    decode .afterReset .port [0x06] = .ok (.reserved110, []) := by decide

/-- R90: op = 010, `want` = 5, with 5 bytes queued and with 4 (R162, R163). -/
theorem test_decode_get :
    decode { DecodeContext.afterReset with cnt := 5 } .port [0x02, 0x00, 0x00, 0x00, 0x05] = .ok (.get 5, []) ∧
    decode { DecodeContext.afterReset with cnt := 4 } .port [0x02, 0x00, 0x00, 0x00, 0x05] =
      .ok (.getShort 5, []) := by decide

/-- R90: op = 100, 101, 111. -/
theorem test_decode_port_crc :
    decode .afterReset .port [0x04, 0x5E, 0x01] = .ok (.crcStep 0x5E 0x01, []) ∧
    decode .afterReset .port [0x05, 0x80] = .ok (.crcTabgen 0x80, []) ∧
    decode .afterReset .port [0x07] = .ok (.hreset, []) := by decide

/-- R85: the header rows. -/
theorem test_decode_header :
    decode .afterReset .rxByte [0x58] = .ok (.hdrSof, []) ∧
    decode .afterReset .rxByte [0x59] = .ok (.hdrNoise 0x59, []) := by decide

/-- R85: a byte 0x58 is a length byte in the length states. -/
theorem test_decode_length :
    decode { DecodeContext.afterReset with st := .length0 } .rxByte [0x58] = .ok (.len0 0x58, []) ∧
    decode { DecodeContext.afterReset with st := .length1 } .rxByte [0x58] = .ok (.len1 0x58, []) ∧
    decode { DecodeContext.afterReset with st := .length2 } .rxByte [0x58] = .ok (.len2 0x58, []) := by decide

/-- R85, R82: the length is accepted from 3 on. -/
theorem test_decode_length3 :
    decode { DecodeContext.afterReset with st := .length3 } .rxByte [0x03] = .ok (.len3Ok 0x03, []) ∧
    decode { DecodeContext.afterReset with st := .length3 } .rxByte [0x02] = .ok (.len3Bad 0x02, []) := by decide

/-- R85: with `len` = 5, indices 6 and 7 are not the last payload byte, index 8 is. -/
theorem test_decode_data :
    decode { DecodeContext.afterReset with st := .command } .rxByte [0x01] = .ok (.cmd 0x01, []) ∧
    decode { DecodeContext.afterReset with st := .data, cur := 7, len := 5 } .rxByte [0xFF] =
      .ok (.dataMore 0xFF, []) ∧
    decode { DecodeContext.afterReset with st := .data, cur := 8, len := 5 } .rxByte [0x00] =
      .ok (.dataLast 0x00, []) := by decide

/-- R85: the CRC rows, and U10: no row describes `Data` past the end. -/
theorem test_decode_crc :
    decode { DecodeContext.afterReset with st := .crc, crc := 0x61 } .rxByte [0x61] = .ok (.crcOk 0x61, []) ∧
    decode { DecodeContext.afterReset with st := .crc, crc := 0x3F } .rxByte [0x61] = .ok (.crcBad 0x61, []) ∧
    decode { DecodeContext.afterReset with st := .data, cur := 9, len := 5 } .rxByte [0x00] = .error .noRow := by
  decide

/-- R80: frame A, and what is no frame. -/
theorem test_decode_frame :
    decode .afterReset .frame frameA = .ok (.frame 0x01 [0x80], []) ∧
    decode .afterReset .frame [0x58, 0x00, 0x00, 0x00, 0x02, 0x01, 0x61] = .error .badLength ∧
    decode .afterReset .frame [0x58, 0x00, 0x00, 0x00, 0x03, 0x01, 0x81, 0x61] = .error .badCrc ∧
    decode .afterReset .frame [0x59, 0x00, 0x00, 0x00, 0x03, 0x01, 0x80, 0x61] = .error .badSentinel := by
  decide +kernel

/-- R84: every opcode of the table, and another. -/
theorem test_decode_command :
    decode .afterReset .command [0x01] = .ok (.setBrightness, []) ∧
    decode .afterReset .command [0x02] = .ok (.clearScreen, []) ∧
    decode .afterReset .command [0x03] = .ok (.blitJpg, []) ∧
    decode .afterReset .command [0x04] = .ok (.blitPng, []) ∧
    decode .afterReset .command [0xFE] = .ok (.rebootToFel, []) ∧
    decode .afterReset .command [0x7F] = .ok (.unknownCmd 0x7F, []) := by decide

/-- R86. -/
theorem test_decode_ack :
    decode .afterReset .ack [0x58] = .ok (.ack, []) ∧ decode .afterReset .ack [0x59] = .error .notAck := by decide

/-- Missing operand bytes are refused by name. -/
theorem test_decode_truncated :
    decode .afterReset .port [] = .error .truncated ∧ decode .afterReset .port [0x01] = .error .truncated ∧
    decode .afterReset .port [0x02, 0x00, 0x00, 0x05] = .error .truncated := by decide

/-- R80: frame B is what the encoder makes of it. -/
theorem test_encode_frame : encode (.frame 0x02 [0xFF, 0x00, 0x00]) = some (.frame, frameB) := by decide +kernel

/-- The table's words, operands zero, right after reset. -/
theorem test_table_words :
    decodeTableWord 8 0x00 = some .nop ∧ decodeTableWord 8 0x02 = some (.get 0) ∧
    decodeTableWord 8 0x07 = some .hreset ∧ decodeTableWord 8 0x58 = some .hdrSof ∧
    decodeTableWord 8 0xFE = some .rebootToFel := by decide

/-! ### The port operations and the CRC engine -/

/-- R90: NOP. -/
theorem test_nop : after (exec .nop (withRing 16)) id = some (withRing 16) := by decide

/-- V-CRC-2, V-CRC-3, V-CRC-5. -/
theorem test_crcTabgen : [0x01, 0x80, 0xFF].map (fun i => after (exec (.crcTabgen i) (withRing 16)) State.ret) =
    [some (.byte 0x5E), some (.byte 0x8C), some (.byte 0x35)] := by decide +kernel

/-- V-CRC-7, V-CRC-9. -/
theorem test_crcStep :
    after (exec (.crcStep 0x00 0x01) (withRing 16)) State.ret = some (.byte 0x5E) ∧
    after (exec (.crcStep 0x5E 0x5E) (withRing 16)) State.ret = some (.byte 0x00) := by decide +kernel

/-- V-CRC-10, V-CRC-13. -/
theorem test_crcSum :
    after (exec (.crcSum 0x37 []) (withRing 16)) State.ret = some (.byte 0x37) ∧
    after (exec (.crcSum 0xA5 [0x01, 0x02, 0x03]) (withRing 16)) State.ret = some (.byte 0x1B) := by
  decide +kernel

/-- R90. -/
theorem test_reserved110 : refusalOf (exec .reserved110 (withRing 16)) = some .reservedOperation := by decide

/-- R240: the queue and the parser are as after reset, and the run goes on after the reboot call. -/
theorem test_hreset :
    after (exec .hreset (consumerAt (queued (parserIn (withRing 16) .data 3 frameA) 8 frameA) .wantBody 3 .rebooting []))
      (fun t => (parserOf t, t.queue, t.consumer.phase, t.consumer.point)) =
    some ((.header, 0, 0), ⟨[], 0, 0⟩, .wantPrefix, .read) := by decide

/-! ### The FIFO -/

/-- V-FIFO-12: writing wraps around the ring. -/
theorem test_put_wraps :
    after (exec (.put frameB) (queued (withRing 16) 8 []))
      (fun t => (t.ret, t.queue.cnt, t.queue.q.read 15, t.queue.q.read 0, t.queue.q.read 1)) =
    some (.count 10, 10, some 0x00, some 0x00, some 0x3A) := by decide

/-- V-FIFO-2: a block that does not fit is dropped with all that was queued. -/
theorem test_put_overflow :
    after (exec (.put frameA) (queued (withRing 16) 0 frameB)) (fun t => (t.ret, t.queue.rd, t.queue.cnt, t.trace)) =
    some (.count 0, 0, 0, [.fifoOverflow 8 10]) := by decide

/-- V-FIFO-13: the parameter `OVERFLOW_KEEPS_NEW`. -/
theorem test_putOverflow_keeps_new :
    after (exec (.putOverflow frameA)
      (queued (State.resetWith { Config.params with fifoCapacity := 16, overflowKeepsNew := true }) 0 frameB))
      (fun t => (t.ret, t.queue.cnt, t.queue.q.read 7)) = some (.count 8, 8, some 0x61) := by decide

/-- V-FIFO-12: reading wraps around the ring. -/
theorem test_get_wraps :
    after (exec (.get 5) (queued (withRing 16) 13 [0x02, 0xFF, 0x00, 0x00, 0x3A])) (fun t => (t.ret, t.queue.rd, t.queue.cnt)) =
    some (.got 5 [0x02, 0xFF, 0x00, 0x00, 0x3A], 2, 0) := by decide

/-- V-FIFO-7. -/
theorem test_getShort :
    after (exec (.getShort 5) (queued (withRing 16) 5 [0x01, 0x80, 0x61])) (fun t => (t.ret, t.queue.rd, t.queue.cnt)) =
    some (.got 0 [], 5, 3) := by decide

/-- V-FIFO-11. -/
theorem test_reset :
    after (exec .reset (queued (withRing 16) 5 [0x01, 0x80, 0x61])) (fun t => (t.queue.rd, t.queue.cnt, t.queue.q.read 5)) =
    some (0, 0, some 0x01) := by decide

/-! ### The parser -/

/-- V-PAR-1. -/
theorem test_rx_sentinel :
    after (exec (.rx 0x58) (withRing 16)) (fun t => (parserOf t, t.parser.buf.read 0)) =
    some ((.length0, 1, 0), some 0x58) := by decide

/-- V-PAR-2. -/
theorem test_hdrNoise :
    after (exec (.hdrNoise 0xA5) (withRing 16)) (fun t => (parserOf t, t.trace)) =
    some ((.header, 0, 0), [.badSentinel 0xA5]) := by decide

/-- V-PAR-1, for the row. -/
theorem test_hdrSof : after (exec .hdrSof (withRing 16)) parserOf = some (.length0, 1, 0) := by decide

/-- V-PAR-4, with a stale `len` (D24). -/
theorem test_len0 : after (exec (.len0 0x12) (parserIn (withRing 16) .length0 0x78 [0x58])) parserOf =
    some (.length1, 2, 0x12000000) := by decide

/-- V-PAR-5. -/
theorem test_len1 : after (exec (.len1 0x34) (parserIn (withRing 16) .length1 0x12000000 [0x58, 0x12])) parserOf =
    some (.length2, 3, 0x12340000) := by decide

/-- V-PAR-6. -/
theorem test_len2 :
    after (exec (.len2 0x56) (parserIn (withRing 16) .length2 0x12340000 [0x58, 0x12, 0x34])) parserOf =
    some (.length3, 4, 0x12345600) := by decide

/-- V-PAR-22: the smallest `MAX_FRAME`, where only L = 3 is acceptable. -/
theorem test_len3Ok : after (exec (.len3Ok 0x03) (parserIn (sized 9 16) .length3 0 [0x58, 0, 0, 0])) parserOf =
    some (.command, 5, 3) := by decide

/-- V-PAR-7. -/
theorem test_len3Bad :
    after (exec (.len3Bad 0x78) (parserIn (withRing 16) .length3 0x12345600 [0x58, 0x12, 0x34, 0x56]))
      (fun t => (parserOf t, t.trace)) = some ((.header, 0, 0x12345678), [.lenRange 0x12345678]) := by decide

/-- V-PAR-11. -/
theorem test_cmd : after (exec (.cmd 0x58) (parserIn (withRing 16) .command 3 [0x58, 0, 0, 0, 3])) parserOf =
    some (.data, 6, 3) := by decide

/-- V-PAR-13. -/
theorem test_dataMore : after (exec (.dataMore 0xFF) (parserIn (withRing 16) .data 5 [0x58, 0, 0, 0, 5, 2])) parserOf =
    some (.data, 7, 5) := by decide

/-- V-PAR-12. -/
theorem test_dataLast : after (exec (.dataLast 0x80) (parserIn (withRing 16) .data 3 [0x58, 0, 0, 0, 3, 1])) parserOf =
    some (.crc, 7, 3) := by decide

/-- V-PAR-15. -/
theorem test_crcOk :
    after (exec (.crcOk 0x61) (parserIn (withRing 16) .crc 3 [0x58, 0, 0, 0, 3, 0x01, 0x80]))
      (fun t => (parserOf t, t.fifo, t.trace)) = some ((.header, 0, 3), frameA, [.frameAccepted 3]) := by
  decide +kernel

/-- V-PAR-16. -/
theorem test_crcBad :
    after (exec (.crcBad 0x61) (parserIn (withRing 16) .crc 3 [0x58, 0, 0, 0, 3, 0x01, 0x81]))
      (fun t => (parserOf t, t.queue.cnt, t.trace)) = some ((.header, 0, 3), 0, [.crcMismatch 3 0x61]) := by
  decide +kernel

/-- U10: a pair outside R26's table. -/
theorem test_rx_unreachable :
    faultOf (exec (.rx 0x00) (parserIn (withRing 16) .command 3 [0x58])) = some .unreachableParserState := by decide

/-- V-PAR-23: the eight bytes of A. -/
theorem test_frame : after (exec (.frame 0x01 [0x80]) (withRing 16)) (fun t => (parserOf t, t.fifo, t.trace)) =
    some ((.header, 0, 3), frameA, [.frameAccepted 3]) := by decide +kernel

/-! ### The consumer -/

/-- V-CON-12: nothing queued. -/
theorem test_iterPrefix_short :
    after (exec .iterPrefix (withRing 16)) (fun t => (t.consumer.phase, t.consumer.point, t.ret)) =
    some (.wantPrefix, .yield, .got 0 []) := by decide

/-- V-FIFO-6: the five bytes of A's prefix. -/
theorem test_iterPrefix :
    after (exec .iterPrefix (queued (withRing 16) 0 frameA)) (fun t => (t.consumer.point, t.queue.rd, t.queue.cnt)) =
    some (.validate ⟨0x58, 0, 0, 0, 3⟩, 5, 3) := by decide

/-- V-CON-14: a length that the queue cannot hold. -/
theorem test_iterValidate_resets :
    after (exec .iterValidate (consumerAt (queued (withRing 12) 5 [1, 2, 3]) .wantPrefix 0 (.validate ⟨0x58, 0, 0, 0, 13⟩) []))
      (fun t => (t.consumer.point, t.consumer.phase, t.queue.cnt)) = some (.yield, .wantPrefix, 0) := by decide

/-- R183: the largest length a ring of 12 can hold. -/
theorem test_iterValidate :
    after (exec .iterValidate (consumerAt (withRing 12) .wantPrefix 0 (.validate ⟨0x00, 0, 0, 0, 12⟩) []))
      (fun t => (t.consumer.point, t.consumer.phase, t.consumer.need)) = some (.read, .wantBody, 12) := by decide

/-- V-CON-15. -/
theorem test_iterBody_waits :
    after (exec .iterBody (consumerAt (withRing 16) .wantBody 5 .read []))
      (fun t => (t.consumer.point, t.consumer.phase, t.consumer.need)) = some (.yield, .wantBody, 5) := by decide

/-- V-FIFO-8, into `scratch`. -/
theorem test_iterBody :
    after (exec .iterBody (consumerAt (queued (withRing 16) 5 [0x01, 0x80, 0x61]) .wantBody 3 .read [9, 9, 9, 9]))
      (fun t => (t.consumer.point, t.consumer.phase, t.queue.cnt, t.consumer.scratch.read 1, t.consumer.scratch.read 3)) =
    some (.dispatch, .wantPrefix, 0, some 0x80, some 9) := by decide

/-- R185: opcode 0x01 runs `SET_BRIGHTNESS`. -/
theorem test_iterDispatch : after (exec .iterDispatch (dispatching [0x01, 0x01, 0xB3])) State.calls =
    some [.backlightSet 3, .transportSend 0x58] := by decide

/-- R186. -/
theorem test_iterYield : after (exec .iterYield (consumerAt (withRing 16) .wantBody 5 .yield []))
    (fun t => (t.calls, t.consumer.point, t.consumer.phase)) = some ([.yield], .read, .wantBody) := by decide

/-- V-CON-3: levels 254 and 255. -/
theorem test_setBrightness : [0xFE, 0xFF].map (fun l => after (exec .setBrightness (dispatching [0x01, l, 0x00])) State.calls) =
    [some [.backlightSet 996, .transportSend 0x58], some [.backlightSet 1000, .transportSend 0x58]] := by decide

/-- V-CON-5. -/
theorem test_clearScreen : after (exec .clearScreen (dispatching [0x02, 0xFF, 0x00, 0x00, 0x3A])) State.calls =
    some [.screenFillOpaque 0xFF 0x00 0x00, .present, .transportSend 0x58] := by decide

/-- V-CON-6. -/
theorem test_clearScreen_short : after (exec .clearScreen (dispatching [0x02, 0xFF, 0x8D])) State.calls = some [] := by
  decide

/-- V-CON-10: a decoder that fails; the CRC byte is not handed to it (D19). -/
theorem test_blitJpg_failure :
    after (.next (doBlit (.jpegDecode (dispatching [0x03, 0x11, 0x22, 0x33]).imageStream) none
      (dispatching [0x03, 0x11, 0x22, 0x33]))) State.calls = some [.jpegDecode [0x11, 0x22]] := by decide

/-- V-CON-11: a 100×50 surface on the 320×240 screen. -/
theorem test_blitPng_success :
    after (.next (doBlit (.pngDecode []) (some ⟨100, 50⟩) (dispatching [0x04, 0x11, 0x22]))) State.calls =
    some [.pngDecode [], .blit ⟨100, 50⟩ 110 95, .present, .free ⟨100, 50⟩, .transportSend 0x58] := by decide

/-- V-CON-7. -/
theorem test_reboot : after (exec .rebootToFel (dispatching [0xFE, 0x46, 0x45, 0x4C, 0xEA]))
    (fun t => (t.calls, t.consumer.point)) = some ([.transportSend 0x58, .rebootToBootloader], .rebooting) := by decide

/-- V-CON-8. -/
theorem test_reboot_mismatch : after (exec .rebootToFel (dispatching [0xFE, 0x46, 0x45, 0x4D, 0xB4]))
    (fun t => (t.calls, t.consumer.point)) = some ([], .yield) := by decide

/-- V-CON-9. -/
theorem test_unknownCmd : after (exec (.unknownCmd 0x7F) (dispatching [0x7F, 0x00, 0x87])) State.calls = some [] := by
  decide

/-- R193. -/
theorem test_ack : after (exec .ack (withRing 16)) State.calls = some [.transportSend 0x58] := by decide

/-! ### The step -/

/-- R3, R57: nothing is asked for. -/
theorem test_step_idle : after (step State.reset) id = some State.reset := by decide

/-- R225: `RX` belongs to the producer; a further context is refused (R244). -/
theorem test_step_ownership :
    after (step ((withRing 16).withPending [.port .producer [0x01, 0x58]])) parserOf = some (.length0, 1, 0) ∧
    refusalOf (step ((withRing 16).withPending [.port .consumer [0x01, 0x58]])) = some .wrongAgent ∧
    refusalOf (step ((withRing 16).withPending [.port (.other 0) [0x01, 0x58]])) = some .secondProducer := by decide

/-- A word of the table runs as the next transaction. -/
theorem test_withFetchWord :
    after (step (State.reset.withFetchWord 8 0x58)) parserOf = some (.length0, 1, 0) ∧
    after (step (State.reset.withFetchWord 8 0x03)) State.trace = some [.fifoReset] ∧
    after (step (State.reset.withFetchWord 8 0x05)) State.ret = some (.byte 0x00) := by decide +kernel

/-! ### Witnesses: states and operands that meet an obligation's hypotheses, each clause at its boundary -/

theorem witness_NopChangesNothing : Running State.reset := by decide
theorem witness_TabgenReturnsTheListedEntry : Running (sized 9 1) := by decide
theorem witness_CrcStepIndexesTheTableByXor : Running (sized (2 ^ 32 - 1) (2 ^ 32 - 1)) := by decide
theorem witness_CrcSumFoldsTheBytesInOrder : Running State.reset ∧ frameA = [0x58, 0, 0, 0, 3, 0x01, 0x80] ++ [0x61] ∧
    frameA = [0x58, 0, 0, 0, 3] ++ [0x01, 0x80, 0x61] := by decide
theorem witness_CrcDetectsOneAlteredByte : (0x80 : Byte) ≠ 0x81 := by decide
theorem witness_ReservedCodeIsRefused : Running (withRing 16) := by decide
theorem witness_AckSendsOneByte : Running (dispatching [0x01, 0x80, 0x61]) := by decide
theorem witness_ResetEmptiesTheQueueAndIsIdempotent : Running (queued (withRing 16) 5 [0x01, 0x80, 0x61]) := by decide
theorem witness_HresetReturnsToTheResetValues :
    paramsWellFormed (consumerAt (withRing 16) .wantPrefix 5 .rebooting []).params = true := by decide

/-- The last byte of the payload, and the first byte of a frame. -/
theorem witness_RxRunsExactlyOneRow :
    (let s := parserIn (sized 9 1) .data 3 [0x58, 0, 0, 0, 3, 1]
     Running s ∧ s.parser.pairOk = true ∧ s.parser.cur.toNat < s.params.maxFrame) ∧
    Running State.reset ∧ State.reset.parser.pairOk = true ∧
      State.reset.parser.cur.toNat < State.reset.params.maxFrame := by decide

theorem witness_HdrSofOpensAFrame :
    Running State.reset ∧ State.reset.parser.st = .header ∧ State.reset.parser.cur = 0 := by decide
theorem witness_HdrNoiseIsDiscarded : Running State.reset ∧ State.reset.parser.st = .header ∧
    State.reset.parser.cur = 0 ∧ (0x59 : Byte) ≠ 0x58 := by decide
theorem witness_Len0OverwritesTheLength :
    let s := parserIn (withRing 16) .length0 0x78 [0x58]
    Running s ∧ s.parser.st = .length0 ∧ s.parser.cur = 1 := by decide
theorem witness_Len1AndLen2AssembleTheLength :
    (let s := parserIn (withRing 16) .length1 0x12000000 [0x58, 0x12]
     Running s ∧ s.parser.st = .length1 ∧ s.parser.cur = 2) ∧
    (let s := parserIn (withRing 16) .length2 0x12340000 [0x58, 0x12, 0x34]
     Running s ∧ s.parser.st = .length2 ∧ s.parser.cur = 3) := by decide

/-- With `MAX_FRAME` = 16, lengths 3 and 10 are accepted. -/
theorem witness_Len3InRangeIsAccepted :
    let s := parserIn (sized 16 16) .length3 0 [0x58, 0, 0, 0]
    Running s ∧ s.parser.st = .length3 ∧ s.parser.cur = 4 ∧
    ∀ b ∈ [(3 : Byte), 10], 2 < (s.parser.len ||| b.setWidth 32).toNat ∧
      (s.parser.len ||| b.setWidth 32).toNat < s.params.maxFrame - 5 := by decide

/-- With `MAX_FRAME` = 16, lengths 2 and 11 are rejected. -/
theorem witness_Len3OutOfRangeIsRejected :
    let s := parserIn (sized 16 16) .length3 0 [0x58, 0, 0, 0]
    Running s ∧ s.parser.st = .length3 ∧ s.parser.cur = 4 ∧ (s.parser.len ||| (2 : Byte).setWidth 32).toNat ≤ 2 ∧
    s.params.maxFrame - 5 ≤ (s.parser.len ||| (11 : Byte).setWidth 32).toNat := by decide

theorem witness_CmdStoresTheOpcode :
    let s := parserIn (withRing 16) .command 3 [0x58, 0, 0, 0, 3]
    Running s ∧ s.parser.st = .command ∧ s.parser.cur = 5 := by decide

/-- With `len` = 5, the first payload byte and the last but one. -/
theorem witness_DataMoreStaysInData :
    ∀ bytes ∈ [[0x58, 0, 0, 0, 5, 2], [(0x58 : Byte), 0, 0, 0, 5, 2, 0xFF]],
      let s := parserIn (withRing 16) .data 5 bytes
      Running s ∧ s.parser.st = .data ∧ 6 ≤ s.parser.cur.toNat ∧ s.parser.cur.toNat + 1 < s.parser.len.toNat + 4 ∧
        s.parser.cur.toNat < s.params.maxFrame := by decide

/-- With `len` = 5, index 8 is the last of the payload, and index 9 is beyond it. -/
theorem witness_DataLastGoesToCrc :
    (let s := parserIn (withRing 16) .data 5 [0x58, 0, 0, 0, 5, 2, 0xFF, 0]
     Running s ∧ s.parser.st = .data ∧ 6 ≤ s.parser.cur.toNat ∧ s.parser.cur.toNat + 1 = s.parser.len.toNat + 4 ∧
       s.parser.cur.toNat < s.params.maxFrame) ∧
    (let s := parserIn (withRing 16) .data 5 [0x58, 0, 0, 0, 5, 2, 0xFF, 0, 0]
     Running s ∧ s.parser.st = .data ∧ s.parser.len.toNat + 4 < s.parser.cur.toNat + 1) := by decide

/-- A complete frame, for a ring it just fits. -/
theorem witness_CrcOkEnqueuesTheFrame :
    let s := parserIn (withRing 8) .crc 3 [0x58, 0, 0, 0, 3, 0x01, 0x80]
    Running s ∧ QueueOk s ∧ s.parser.st = .crc ∧ s.parser.cur.toNat = s.parser.len.toNat + 4 ∧
      s.parser.cur.toNat < s.params.maxFrame ∧ (0x61 : Byte) = crc8 0 (s.bufRange (s.parser.len.toNat + 4)) ∧
      (s.bufRange (s.parser.len.toNat + 4) ++ [0x61]).length = s.freeSpace := by decide +kernel

theorem witness_CrcBadDropsTheFrame :
    let s := parserIn (withRing 8) .crc 3 [0x58, 0, 0, 0, 3, 0x01, 0x81]
    Running s ∧ s.parser.st = .crc ∧ s.parser.cur.toNat = s.parser.len.toNat + 4 ∧
      s.parser.cur.toNat < s.params.maxFrame ∧ (0x61 : Byte) ≠ crc8 0 (s.bufRange (s.parser.len.toNat + 4)) := by
  decide +kernel

/-- Each clause: a pair outside R26's table, an index at the end of the buffer, a body one byte too long. -/
theorem witness_FaultsAreForUnreachableStates :
    (let s := parserIn (withRing 16) .command 3 [0x58]
     Running s ∧ s.parser.pairOk = false) ∧
    (let s := parserIn (sized 9 16) .data 6 [0x58, 0, 0, 0, 6, 1, 2, 3, 4]
     Running s ∧ s.parser.pairOk = true ∧ s.params.maxFrame ≤ s.parser.cur.toNat) ∧
    (let s := consumerAt (queued (sized 9 16) 0 frameB) .wantBody 10 .read []
     Running s ∧ s.params.maxFrame < s.consumer.need.toNat ∧ s.consumer.phase = .wantBody ∧
       s.consumer.point = .read ∧ s.consumer.need.toNat ≤ s.queue.cnt.toNat) ∧
    ∀ op ∈ [(0x03 : Byte), 0x04],
      let s := consumerAt (sized 9 16) .wantPrefix 10 .dispatch [op]
      Running s ∧ s.params.maxFrame < s.consumer.need.toNat ∧ s.consumer.point = .dispatch ∧
        s.readScratch 0 = op := by decide

/-- Each clause. -/
theorem witness_RowsRefuseWhereTheirConditionFails :
    (let s := parserIn (withRing 16) .length0 0 [0x58]
     Running s ∧ s.parser.pairOk = true ∧ encode .hdrSof = some (.rxByte, [0x58]) ∧
       selectedIn s.decodeContext .hdrSof = false) ∧
    (let s := queued (withRing 16) 0 frameA
     (8 : Word).toNat ≤ s.queue.cnt.toNat ∧ frameA.length ≤ s.freeSpace) ∧
    encode .setBrightness = some (.command, [0x01]) ∧ (withRing 16).consumer.point ≠ .dispatch ∧
    (dispatching [0x02]).readScratch 0 ≠ 0x01 ∧ nextIter (withRing 16).consumer ≠ some .iterBody := by decide

/-- All that is queued. -/
theorem witness_GetRemovesTheOldestBytes :
    let s := queued (withRing 16) 13 frameA
    Running s ∧ (8 : Word).toNat ≤ s.queue.cnt.toNat := by decide

/-- One byte more than is queued. -/
theorem witness_ShortGetRemovesNothing :
    let s := queued (withRing 16) 13 frameA
    Running s ∧ s.queue.cnt.toNat < (9 : Word).toNat := by decide

/-- An exact fit (V-FIFO-3), one byte too many, and the two sides of `OVERFLOW_KEEPS_NEW`. -/
theorem witness_PutIsAllOrNothing :
    (let s := queued (withRing 16) 5 frameA
     Running s ∧ QueueOk s ∧ frameA.length ≤ s.freeSpace) ∧
    (let s := queued (withRing 15) 5 frameA
     Running s ∧ QueueOk s ∧ s.freeSpace < frameA.length ∧ s.params.overflowKeepsNew = false) ∧
    (let s := queued (State.resetWith { Config.params with fifoCapacity := 8, overflowKeepsNew := true }) 0 [1]
     Running s ∧ QueueOk s ∧ s.freeSpace < frameA.length ∧ s.params.overflowKeepsNew = true ∧
       frameA.length ≤ s.params.fifoCapacity ∧ s.params.fifoCapacity < frameB.length) := by decide

/-- One byte too many, under both values of `OVERFLOW_KEEPS_NEW`, where the block fits an empty ring and where not. -/
theorem witness_PutOverflowEmptiesTheQueue :
    (let s := queued (withRing 15) 5 frameA
     Running s ∧ s.freeSpace < frameA.length ∧ s.params.overflowKeepsNew = false) ∧
    (let s := queued (State.resetWith { Config.params with fifoCapacity := 8, overflowKeepsNew := true }) 0 [1]
     Running s ∧ s.freeSpace < frameA.length ∧ s.params.overflowKeepsNew = true ∧
       frameA.length ≤ s.params.fifoCapacity ∧ s.freeSpace < frameB.length ∧
       s.params.fifoCapacity < frameB.length) := by decide

/-- Five bytes queued, and four. -/
theorem witness_IterPrefixReadsFiveBytesOrYields :
    (let s := queued (withRing 16) 14 [0x58, 0, 0, 0, 3]
     Running s ∧ s.consumer.phase = .wantPrefix ∧ s.consumer.point = .read ∧ 5 ≤ s.queue.cnt.toNat) ∧
    (let s := queued (withRing 16) 14 [0x58, 0, 0, 0]
     Running s ∧ s.consumer.phase = .wantPrefix ∧ s.consumer.point = .read ∧ s.queue.cnt.toNat < 5) := by decide

/-- Lengths 1 and 12 pass with a ring of 12, lengths 0 and 13 do not. -/
theorem witness_IterValidateKeepsTheLengthOrResets :
    ∀ (l : Byte), l ∈ [(0 : Byte), 1, 12, 13] →
      let s := consumerAt (withRing 12) .wantPrefix 0 (.validate ⟨0x58, 0, 0, 0, l⟩) []
      Running s ∧ s.consumer.point = .validate ⟨0x58, 0, 0, 0, l⟩ ∧
      (bodyLengthOk s.params (be32 0 0 0 l) = true ↔ l = 1 ∨ l = 12) := by decide

/-- The body queued to its last byte, one byte missing, and `need` zero. -/
theorem witness_IterBodyMovesTheBodyOrKeepsWaiting :
    (let s := consumerAt (queued (withRing 16) 5 [0x01, 0x80, 0x61]) .wantBody 3 .read []
     Running s ∧ s.consumer.phase = .wantBody ∧ s.consumer.point = .read ∧ 0 < s.consumer.need.toNat ∧
       s.consumer.need.toNat ≤ s.params.maxFrame ∧ s.consumer.need.toNat ≤ s.queue.cnt.toNat) ∧
    (let s := consumerAt (queued (withRing 16) 5 [0x01, 0x80]) .wantBody 3 .read []
     Running s ∧ s.consumer.phase = .wantBody ∧ s.consumer.point = .read ∧
       s.queue.cnt.toNat < s.consumer.need.toNat) ∧
    (let s := consumerAt (withRing 16) .wantBody 0 .read []
     Running s ∧ s.consumer.phase = .wantBody ∧ s.consumer.point = .read ∧ s.consumer.need = 0) := by decide

theorem witness_IterDispatchRunsTheNamedCommand :
    let s := dispatching [0xFE, 0x46, 0x45, 0x4C, 0xEA]
    Running s ∧ s.consumer.point = .dispatch ∧ s.consumer.need.toNat ≤ s.params.maxFrame := by decide

theorem witness_EveryIterationYields :
    (let s := consumerAt (withRing 16) .wantBody 5 .yield []
     Running s ∧ s.consumer.point = .yield) ∧
    ∃ t, exec .iterYield (consumerAt (withRing 16) .wantBody 5 .yield []) = .next t ∧
      (consumerAt (withRing 16) .wantBody 5 .yield []).consumer.point ≠ .read ∧ t.consumer.point = .read :=
  ⟨by decide, _, rfl, by decide, by decide⟩

/-! A fair run: the producer delivers a noise byte at every even moment, the consumer takes a turn at every odd one. -/

/-- The consumer in its loop over an empty queue, the parser in `Header`. -/
def humming (busy : Bool) (buf : Memory) (ret : Ret) (trace : List Event) (calls : List Call) : State :=
  { withRing 16 with parser := ⟨.header, 0, 0, buf⟩, consumer := ⟨.wantPrefix, 0, [], if busy then .yield else .read⟩,
                     ret := ret, trace := trace, calls := calls }

def humAct (n : Nat) : Act := if n % 2 = 0 then .deliver else .turn

def humInbox (n : Nat) : List Byte := if n % 2 = 0 then [0xA5] else []

/-- The state after the step with one request. -/
def afterRequest (s : State) (r : Request) : State := (after (step (s.withPending [r])) id).getD s

def humState : Nat → State
  | 0 => humming false [] .nothing [] []
  | n + 1 => afterRequest (humState n) (if n % 2 = 0 then .port .producer [0x01, 0xA5] else .turn)

/-- Every state of the run hums, and has one more step. -/
theorem humState_hums (n : Nat) :
    (∃ busy buf ret trace calls, (buf = [] ∨ buf = [(0, 0xA5)]) ∧ humState n = humming busy buf ret trace calls) ∧
    step ((humState n).withPending [if n % 2 = 0 then .port .producer [0x01, 0xA5] else .turn]) =
      .next (humState (n + 1)) := by
  have both : ∀ busy buf ret trace calls, (buf = [] ∨ buf = [(0, 0xA5)]) →
      (∃ ret' trace', step ((humming busy buf ret trace calls).withPending [.port .producer [0x01, 0xA5]]) =
        .next (humming busy [(0, 0xA5)] ret' trace' calls)) ∧
      ∃ busy' ret' calls', step ((humming busy buf ret trace calls).withPending [.turn]) =
        .next (humming busy' buf ret' trace calls') := by
    rintro (_ | _) _ ret trace calls (rfl | rfl)
    · exact ⟨⟨_, _, rfl⟩, true, _, _, rfl⟩
    · exact ⟨⟨_, _, rfl⟩, true, _, _, rfl⟩
    · exact ⟨⟨_, _, rfl⟩, false, _, _, rfl⟩
    · exact ⟨⟨_, _, rfl⟩, false, _, _, rfl⟩
  have form : ∀ n, ∃ busy buf ret trace calls, (buf = [] ∨ buf = [(0, 0xA5)]) ∧
      humState n = humming busy buf ret trace calls := by
    intro n
    induction n with
    | zero => exact ⟨false, [], .nothing, [], [], .inl rfl, rfl⟩
    | succ n ih =>
      obtain ⟨busy, buf, ret, trace, calls, hb, h⟩ := ih
      obtain ⟨⟨r, tr, hd⟩, bu, r', ca, ht⟩ := both busy buf ret trace calls hb
      rw [humState, h, afterRequest]
      split
      · exact ⟨_, _, _, _, _, .inr rfl, by rw [hd]; rfl⟩
      · exact ⟨_, _, _, _, _, hb, by rw [ht]; rfl⟩
  refine ⟨form n, ?_⟩
  obtain ⟨busy, buf, ret, trace, calls, hb, h⟩ := form n
  obtain ⟨⟨r, tr, hd⟩, bu, r', ca, ht⟩ := both busy buf ret trace calls hb
  rw [humState, h, afterRequest]
  split
  · rw [hd]
    rfl
  · rw [ht]
    rfl

theorem humState_inv (n : Nat) : Inv (humState n) = true := by
  obtain ⟨⟨busy, _, ret, trace, calls, rfl | rfl, h⟩, -⟩ := humState_hums n <;> rw [h] <;> cases busy <;> rfl

/-- The run meets the third clause's hypotheses at every moment, with a byte waiting at the even ones. -/
theorem witness_EveryIterationYields_fairRun :
    FairRun humState humAct humInbox ∧ (∀ m, Inv (humState m) = true) ∧
      (∀ m word, 0 ≤ m → humAct m ≠ .ask .platform word) ∧ humInbox 0 ≠ [] := by
  refine ⟨⟨fun n => ?_, fun n _ => ⟨2 * n, by omega, ?_⟩, fun n _ => ⟨2 * n + 1, by omega, ?_⟩⟩, humState_inv, ?_,
    by decide⟩
  · have h := (humState_hums n).2
    rcases Nat.mod_two_eq_zero_or_one n with hn | hn
    · have hn' : (n + 1) % 2 = 1 := by omega
      simp only [hn, if_true] at h
      simp only [humAct, humInbox, hn, hn', if_true]
      exact ⟨[], [], ⟨0xA5, rfl, h⟩, rfl⟩
    · have hn' : (n + 1) % 2 = 0 := by omega
      simp only [hn, one_ne_zero, if_false] at h
      simp only [humAct, humInbox, hn, hn', one_ne_zero, if_true, if_false]
      exact ⟨[], [0xA5], ⟨rfl, h⟩, rfl⟩
  · simp [humAct]
  · simp [humAct, Nat.add_mod]
  · intro m word _
    unfold humAct
    split <;> nofun

theorem witness_SetBrightnessSetsTheBacklightAndAcks :
    let s := dispatching [0x01, 0xFF, 0x35]
    Running s ∧ s.consumer.point = .dispatch ∧ s.readScratch 0 = 0x01 := by decide

/-- Bodies of five bytes and of four. -/
theorem witness_ClearScreenFillsOrIgnores :
    ∀ body ∈ [[(0x02 : Byte), 0xFF, 0, 0, 0x3A], [0x02, 0xFF, 0, 0]],
      let s := dispatching body
      Running s ∧ s.consumer.point = .dispatch ∧ s.readScratch 0 = 0x02 := by decide

theorem witness_BlitsShowTheImageOnlyWhenItDecodes :
    ∀ jpg : Bool,
      let s := dispatching [if jpg then 0x03 else 0x04, 0x11, 0x22]
      Running s ∧ s.consumer.point = .dispatch ∧ s.readScratch 0 = (if jpg then 0x03 else 0x04) ∧
        s.consumer.need.toNat ≤ s.params.maxFrame := by decide

/-- The literal, and one letter off. -/
theorem witness_RebootNeedsItsLiteralAndAcksFirst :
    ∀ body ∈ [[(0xFE : Byte), 0x46, 0x45, 0x4C, 0xEA], [0xFE, 0x46, 0x45, 0x4D, 0xB4]],
      let s := dispatching body
      Running s ∧ s.consumer.point = .dispatch ∧ s.readScratch 0 = 0xFE := by decide

theorem witness_UnknownOpcodeIsIgnored :
    let s := dispatching [0x05, 0x00, 0x87]
    Running s ∧ s.consumer.point = .dispatch ∧ s.readScratch 0 = 0x05 ∧ (0x05 : Byte) ≠ 0x01 ∧ (0x05 : Byte) ≠ 0x02 ∧
      (0x05 : Byte) ≠ 0x03 ∧ (0x05 : Byte) ≠ 0x04 ∧ (0x05 : Byte) ≠ 0xFE := by decide

/-- A smaller image, a larger one, and one larger by an odd number. -/
theorem witness_CenteringHalvesTheSignedDifference :
    (100 ≤ 320) ∧ ((320 : Nat) : Int) - (324 : Nat) = 2 * (-2) ∧ ((320 : Nat) : Int) - (321 : Nat) = 2 * (-1) + 1 ∧
      (-1 : Int) < 0 := by decide

theorem witness_AtMostOneAckPerCommand :
    ∃ t, exec .setBrightness (dispatching [0x01, 0x80, 0x61]) = .next t ∧ Instr.setBrightness ≠ .ack :=
  ⟨_, rfl, by decide⟩

/-- `MAX_FRAME` = 8 is too small; and the state in the reboot call. -/
theorem witness_NothingRunsWithoutMeaning :
    paramsWellFormed (sized 8 16).params = false ∧
    (let s := consumerAt (withRing 16) .wantPrefix 5 .rebooting []
     paramsWellFormed s.params = true ∧ s.consumer.point = .rebooting ∧ Instr.nop ≠ .hreset) := by decide

/-- Each clause. -/
theorem witness_PortsBelongToTheirAgents :
    ∀ r ∈ [(Agent.consumer, [0x01, 0x58], Instr.rx 0x58), (.producer, [0x02, 0, 0, 0, 5], .getShort 5),
        (.other 0, [0x02, 0, 0, 0, 0], .get 0), (.other 1, [0x03], .reset), (.producer, [0x07], .hreset)],
      let s := (withRing 16).withPending [.port r.1 r.2.1]
      s.pending = [.port r.1 r.2.1] ∧ decode s.decodeContext .port r.2.1 = .ok (r.2.2, []) ∧
        r.1 ≠ .platform := by decide

/-- Each clause. -/
theorem witness_StepRunsTheRequestedTransaction :
    (let s := (withRing 16).withPending [.port .producer [0x01, 0x58]]
     s.pending = [.port .producer [0x01, 0x58]] ∧ decode s.decodeContext .port [0x01, 0x58] = .ok (.rx 0x58, []) ∧
       portRefusal .producer (.rx 0x58) = none) ∧
    nextIter ((withRing 16).withPending [.turn]).consumer = some .iterPrefix ∧ (withRing 16).pending = [] := by decide

theorem witness_DecodeInvertsEncode :
    (Instr.dataLast 0x80).wellFormed = true ∧
    selectedIn { DecodeContext.afterReset with st := .data, cur := 6, len := 3 } (.dataLast 0x80) = true ∧
    encode (.dataLast 0x80) = some (.rxByte, [0x80]) ∧ (Instr.frame 0x01 [0x80]).wellFormed = true ∧
    selectedIn .afterReset (.frame 0x01 [0x80]) = true ∧ encode (.frame 0x01 [0x80]) = some (.frame, frameA) := by
  decide +kernel

theorem witness_InvariantHoldsAtReset : paramsWellFormed (sized 9 1).params = true := by decide

/-- A state in the middle of things: a frame half received, another half consumed. -/
def midway : State :=
  consumerAt (queued (parserIn (withRing 16) .data 5 [0x58, 0, 0, 0, 5, 2, 0xFF]) 5 [0x01, 0x80, 0x61])
    .wantBody 3 .read []

theorem witness_EveryStepKeepsTheInvariant : Inv midway = true ∧ ∃ t, exec (.dataMore 0x00) midway = .next t :=
  ⟨by decide +kernel, _, rfl⟩

theorem witness_NoStepFaultsUnderTheInvariant : Inv midway = true := by decide +kernel

theorem witness_TheTwoSidesShareTheQueueAlone : ∃ t, exec .iterBody midway = .next t := ⟨_, rfl⟩

/-- The shortest payload, and with `MAX_FRAME` = 9 the only one. -/
theorem witness_WholeFrameIsEnqueuedOnce :
    let s := sized 9 16
    Running s ∧ QueueOk s ∧ s.parser.st = .header ∧ s.parser.cur = 0 ∧ 1 ≤ [(0x80 : Byte)].length ∧
      [(0x80 : Byte)].length + 2 < s.params.maxFrame - 5 := by decide

/-- The command byte, and the CRC byte, of frame A. -/
theorem witness_OneCorruptedByteDropsTheFrame :
    let s := withRing 16
    Running s ∧ s.parser.st = .header ∧ s.parser.cur = 0 ∧ 1 ≤ [(0x80 : Byte)].length ∧
      [(0x80 : Byte)].length + 2 < s.params.maxFrame - 5 ∧ (frameBytes 0x01 [0x80])[5]? ≠ some 0x02 ∧
      (frameBytes 0x01 [0x80])[7]? ≠ some 0x60 := by decide +kernel

theorem witness_RunningCrcEqualsTheBufferWalk :
    ∃ t, exec (.rx 0x80) (parserIn (withRing 16) .data 3 [0x58, 0, 0, 0, 3, 1]) = .next t ∧ t.parser.st ≠ .header ∧
      t.parser.st = .crc := ⟨_, rfl, by decide, by decide⟩

theorem witness_ProducerIsNeverBlocked : Running midway ∧ parserInv midway = true := by decide

/-- The rest of frame A, whose prefix has been removed. -/
theorem witness_QueueStaysAlignedWithFrames : Inv midway = true ∧ Aligned midway ∧ NextFrameFits midway ∧
    (∃ t, exec (.rx 0x00) midway = .next t) ∧ ∃ t, exec .iterBody midway = .next t := by
  refine ⟨by decide +kernel, ⟨⟨0x58, 0, 0, 0, 3⟩, ⟨[0x01, 0x80, 0x61], [], by decide +kernel, ?_, ?_⟩, by decide⟩,
    nofun, ⟨_, rfl⟩, _, rfl⟩
  · exact ⟨0x01, [0x80], by decide +kernel, by decide, by decide⟩
  · exact ⟨[], by simp, rfl⟩

theorem witness_ConsumerTakesOneWholeFrame :
    let s := queued (sized 9 16) 10 (frameA ++ [0x58])
    Running s ∧ QueueOk s ∧ s.consumer.phase = .wantPrefix ∧ s.consumer.point = .read ∧ 1 ≤ [(0x80 : Byte)].length ∧
      [(0x80 : Byte)].length + 2 < s.params.maxFrame - 5 ∧ s.fifo = frameBytes 0x01 [0x80] ++ [0x58] := by
  decide +kernel

theorem witness_BrightnessFrameYieldsOneAck :
    let s := sized 9 8
    Running s ∧ QueueOk s ∧ s.parser.st = .header ∧ s.parser.cur = 0 ∧ s.fifo = [] ∧
      s.consumer.phase = .wantPrefix ∧ s.consumer.point = .read ∧ 3 < s.params.maxFrame - 5 ∧
      8 ≤ s.params.fifoCapacity := by decide

end Sys2Proof.Tests
end

section
/-! PROOFS. What runs at all (00_scope, R7; R191, U17): every instruction but `HRESET` goes through `whenRunning`, which
refuses ill-formed parameters first and the reboot call second. -/

namespace Sys2Proof.Machine

/-! ### The refusals of `whenRunning` -/

theorem whenRunning_of_illFormed {s : State} (hp : paramsWellFormed s.params = false) (k : Outcome) :
    whenRunning s k = .refused .illFormedParameters := by
  simp [whenRunning, hp]

theorem whenRunning_of_rebooting {s : State} (hp : paramsWellFormed s.params = true)
    (hr : s.consumer.point = .rebooting) (k : Outcome) : whenRunning s k = .refused .runEnded := by
  simp [whenRunning, hp, hr]

/-! ### Which instructions it guards -/

/-- `ITER.VALIDATE` looks at the place in the loop first; both of its branches are guarded. -/
theorem execIterValidate_eq_whenRunning (s : State) : ∃ k, execIterValidate s = whenRunning s k := by
  unfold execIterValidate
  split
  · exact ⟨_, rfl⟩
  · exact ⟨_, rfl⟩

/-- Every instruction but `HRESET` is some body under the guard. -/
theorem exec_eq_whenRunning {i : Instr} (hi : i ≠ .hreset) (s : State) : ∃ k, exec i s = whenRunning s k := by
  cases i
  case hreset => exact absurd rfl hi
  case iterValidate => exact execIterValidate_eq_whenRunning s
  all_goals exact ⟨_, rfl⟩

theorem execHreset_of_illFormed {s : State} (hp : paramsWellFormed s.params = false) :
    execHreset s = .refused .illFormedParameters := by
  simp [execHreset, hp]

/-! ### No instruction runs without meaning -/

theorem exec_of_illFormed (i : Instr) {s : State} (hp : paramsWellFormed s.params = false) :
    exec i s = .refused .illFormedParameters := by
  by_cases hi : i = .hreset
  · rw [hi]
    exact execHreset_of_illFormed hp
  · obtain ⟨k, hk⟩ := exec_eq_whenRunning hi s
    rw [hk, whenRunning_of_illFormed hp]

theorem exec_of_rebooting {i : Instr} {s : State} (hp : paramsWellFormed s.params = true)
    (hr : s.consumer.point = .rebooting) (hi : i ≠ .hreset) : exec i s = .refused .runEnded := by
  obtain ⟨k, hk⟩ := exec_eq_whenRunning hi s
  rw [hk, whenRunning_of_rebooting hp hr]

/-- R7's bounds, as the model tests them. -/
theorem paramsWellFormed_iff (p : Params) :
    paramsWellFormed p = true ↔
      (9 ≤ p.maxFrame ∧ p.maxFrame ≤ 2 ^ 32 - 1 ∧ 1 ≤ p.fifoCapacity ∧ p.fifoCapacity ≤ 2 ^ 32 - 1) := by
  simp only [paramsWellFormed, Bool.and_eq_true, decide_eq_true_eq, and_assoc]

/-- Settles O43: the guard answers for every instruction but `HRESET`, and `HRESET` makes R7's test itself. -/
theorem nothingRunsWithoutMeaning : Obligations.NothingRunsWithoutMeaning :=
  ⟨fun i _ hp => exec_of_illFormed i hp, fun _ _ hp hr hi => exec_of_rebooting hp hr hi, paramsWellFormed_iff⟩

end Sys2Proof.Machine
end

section
/-! PROOFS. The two sides (10_state, R20; 20_memory, R63; 60_exceptions, R226): the producer's instructions are runs of `RX`,
the commands are cases of step 4, and each family leaves what the other side owns. -/

namespace Sys2Proof.Machine

theorem whenRunning_next {s t u : State} (h : whenRunning s (.next u) = .next t) : t = u := by
  obtain ⟨-, hu⟩ := whenRunning_next_iff.mp h
  cases hu
  rfl

/-! ### Rows that are cases of another transaction -/

theorem rxAll_singleton (b : Byte) (s : State) : rxAll [b] s = rxByte b s := by
  simp only [rxAll]
  cases rxByte b s <;> rfl

theorem rxByte_next_iff {b : Byte} {s t : State} : rxByte b s = .next t ↔
    Running s ∧ s.parser.pairOk = true ∧ s.parser.cur.toNat < s.params.maxFrame ∧ t = rxRow b (s.storeByte b) := by
  simp only [rxByte, rxEntry_next_iff, true_and]

/-- A row of R85 that answers is the one that `RX` runs on its byte. -/
theorem rxAll_of_rxEntry {b : Byte} {s t : State} {selected : Bool} {row : State → State}
    (h : rxEntry b s selected row = .next t)
    (hrow : selected = true → s.parser.pairOk = true → rxRow b (s.storeByte b) = row (s.storeByte b)) :
    rxAll [b] s = .next t := by
  obtain ⟨hr, hp, hsel, hc, rfl⟩ := rxEntry_next_iff.mp h
  rw [rxAll_singleton, rxByte_next_iff]
  exact ⟨hr, hp, hc, (hrow hsel hp).symm⟩

/-- The bytes that an instruction of the producer's side delivers to the parser (R85, R91, R130). -/
def bytesDelivered : Instr → Option (List Byte)
  | .hdrSof => some [Config.sentinel]
  | .rx b | .hdrNoise b | .len0 b | .len1 b | .len2 b | .len3Ok b | .len3Bad b | .cmd b | .dataMore b | .dataLast b
  | .crcOk b | .crcBad b => some [b]
  | .frame command payload => some (frameBytes command payload)
  | _ => none

theorem storeByte_frameCrc_of_crc {s : State} (b : Byte) (hst : s.parser.st = .crc) (hp : s.parser.pairOk = true) :
    (s.storeByte b).frameCrc = s.frameCrc := by
  have hcur : s.parser.cur.toNat = s.parser.len.toNat + 4 := by simpa [Parser.pairOk, hst] using hp
  exact State.storeByte_frameCrc s b hcur.ge

/-- Every instruction of the producer's side is a run of `RX` over its bytes. -/
theorem rxAll_of_exec {i : Instr} {bytes : List Byte} {s t : State} (hi : bytesDelivered i = some bytes)
    (h : exec i s = .next t) : rxAll bytes s = .next t := by
  cases i <;> cases hi
  case rx b => rwa [rxAll_singleton]
  case frame => exact (whenRunning_next_iff.mp h).2
  all_goals refine rxAll_of_rxEntry h fun hsel hp => ?_
  case dataMore =>
    obtain ⟨hst, hmore⟩ : s.parser.st = .data ∧ _ := by simpa using hsel
    have hlast : lastData s.parser.cur s.parser.len = false := by
      rw [moreData_iff] at hmore
      rw [← Bool.not_eq_true, lastData_iff]
      omega
    simp [rxRow, hst, hlast]
  case crcOk b =>
    obtain ⟨hst, hb⟩ : s.parser.st = .crc ∧ b = s.frameCrc := by simpa using hsel
    simp [rxRow, hst, storeByte_frameCrc_of_crc b hst hp, ← hb]
  case crcBad b =>
    obtain ⟨hst, hb⟩ : s.parser.st = .crc ∧ b ≠ s.frameCrc := by simpa using hsel
    simp [rxRow, hst, storeByte_frameCrc_of_crc b hst hp, hb]
  case hdrSof => simp_all [rxRow, isSentinel]
  all_goals simp_all [rxRow]

/-- The commands of R84's table. -/
def isCommand : Instr → Bool
  | .setBrightness | .clearScreen | .blitJpg | .blitPng | .rebootToFel | .unknownCmd _ => true
  | _ => false

theorem runCommand_of_commandEntry {s t : State} {selected : Bool} {k : Outcome}
    (h : commandEntry s selected k = .next t) (hk : selected = true → runCommand s.opcode s = k) :
    s.consumer.point = .dispatch ∧ runCommand s.opcode s = .next t := by
  obtain ⟨-, hd, hsel, hkt⟩ := commandEntry_next_iff.mp h
  exact ⟨hd, (hk hsel).trans hkt⟩

/-- A command that answers is the one that step 4 runs (R185). -/
theorem runCommand_of_exec {i : Instr} {s t : State} (hi : isCommand i = true) (h : exec i s = .next t) :
    s.consumer.point = .dispatch ∧ runCommand s.opcode s = .next t := by
  cases i <;> cases hi
  all_goals refine runCommand_of_commandEntry h fun hsel => ?_
  case unknownCmd op =>
    obtain ⟨hop, hn⟩ : s.opcode = op ∧ knownOpcodes.contains op = false := by simpa using hsel
    simp_all [runCommand, knownOpcodes]
  all_goals simp [runCommand, eq_of_beq hsel]

/-! ### What the two sides leave alone (R20, R63) -/

/-- What only the producer's side owns stays, with the parameters, the requests and the epoch (R63). -/
def ParserKept (s t : State) : Prop :=
  t.parser = s.parser ∧ t.params = s.params ∧ t.pending = s.pending ∧ t.epoch = s.epoch

/-- What only the consumer's side owns stays, with what was handed back and everything outside (R63). -/
def ConsumerKept (s t : State) : Prop :=
  t.consumer = s.consumer ∧ t.ret = s.ret ∧ SameOutside s t

theorem ConsumerKept.refl (s : State) : ConsumerKept s s := ⟨rfl, rfl, rfl, rfl, rfl, rfl, rfl⟩

theorem ConsumerKept.trans {s t u : State} (hst : ConsumerKept s t) (htu : ConsumerKept t u) : ConsumerKept s u := by
  obtain ⟨c, r, p, k, q, e, d⟩ := hst
  obtain ⟨c', r', p', k', q', e', d'⟩ := htu
  exact ⟨c'.trans c, r'.trans r, p'.trans p, k'.trans k, q'.trans q, e'.trans e, d'.trans d⟩

theorem QueueOnly.parserKept {s t : State} (h : QueueOnly s t) : ParserKept s t := by
  obtain ⟨hparser, -, hparams, -, hpending, hepoch, -⟩ := h
  exact ⟨hparser, hparams, hpending, hepoch⟩

theorem CommandOnly.parserKept {s t : State} (h : CommandOnly s t) : ParserKept s t := by
  obtain ⟨hparams, hparser, -, -, -, -, -, -, hpending, hepoch⟩ := h
  exact ⟨hparser, hparams, hpending, hepoch⟩

/-- Only the parser's sequencing state and `len` move, and the ghost trace: `BUF` stays too. -/
def SequencingOnly (s t : State) : Prop :=
  ParserOnly s t ∧ t.parser.buf = s.parser.buf

/-- Everything R130's case distinction can do after the store: move the parser on or back, or R141's `PUT`. -/
theorem rxRow_cases (b : Byte) (t : State) : SequencingOnly t (rxRow b t) ∨ rxRow b t = rowCrcOk t := by
  unfold rxRow
  split
  case h_1 => split <;> exact .inl ⟨⟨rfl, rfl, rfl, rfl, rfl, rfl, rfl, rfl⟩, rfl⟩
  case h_2 =>
    rw [rowLen0_eq]
    exact .inl ⟨⟨rfl, rfl, rfl, rfl, rfl, rfl, rfl, rfl⟩, rfl⟩
  case h_5 => split <;> exact .inl ⟨⟨rfl, rfl, rfl, rfl, rfl, rfl, rfl, rfl⟩, rfl⟩
  case h_7 => split <;> exact .inl ⟨⟨rfl, rfl, rfl, rfl, rfl, rfl, rfl, rfl⟩, rfl⟩
  case h_8 =>
    split
    · exact .inr rfl
    · exact .inl ⟨⟨rfl, rfl, rfl, rfl, rfl, rfl, rfl, rfl⟩, rfl⟩
  all_goals exact .inl ⟨⟨rfl, rfl, rfl, rfl, rfl, rfl, rfl, rfl⟩, rfl⟩

/-- Every row leaves the consumer's side (R63, R145). -/
theorem rxRow_consumerKept (b : Byte) (t : State) : ConsumerKept t (rxRow b t) := by
  obtain ⟨⟨-, hkept⟩, -⟩ | e := rxRow_cases b t
  · exact hkept
  · rw [e, rowCrcOk_eq]
    exact (putBlock_frame (t.bufRange (t.parser.len.toNat + 5)) t).2

theorem rxByte_consumerKept {b : Byte} {s t : State} (h : rxByte b s = .next t) : ConsumerKept s t := by
  obtain ⟨-, -, -, rfl⟩ := rxByte_next_iff.mp h
  exact rxRow_consumerKept b (s.storeByte b)

/-- What every `RX` keeps, a run of `RX` keeps. -/
theorem rxAll_keeps {P : State → Prop} (hP : ∀ {b s t}, P s → rxByte b s = .next t → P t) {bytes : List Byte}
    {s t : State} (hs : P s) (h : rxAll bytes s = .next t) : P t := by
  induction bytes generalizing s with
  | nil =>
    cases h
    exact hs
  | cons b rest ih =>
    simp only [rxAll] at h
    split at h
    · exact ih (hP hs ‹_›) h
    · cases h
    · cases h

theorem rxAll_consumerKept {bytes : List Byte} {s t : State} (h : rxAll bytes s = .next t) : ConsumerKept s t :=
  rxAll_keeps (P := ConsumerKept s) (fun hs hb => hs.trans (rxByte_consumerKept hb)) (ConsumerKept.refl s) h

theorem putBlock_queueOnly (bytes : List Byte) (s : State) : QueueOnly s (putBlock bytes s).2 := by
  obtain ⟨hparser, hconsumer, -, hout⟩ := putBlock_frame bytes s
  exact ⟨hparser, hconsumer, hout⟩

theorem getBlock_queueOnly (want : Word) (s : State) : QueueOnly s (getBlock want s).2.2 := by
  obtain ⟨-, e⟩ | ⟨-, e⟩ := getBlock_cases want s <;> rw [e] <;> exact ⟨rfl, rfl, rfl, rfl, rfl, rfl, rfl⟩

/-- The consumer has gone to step 5 or into the reboot call, and nothing else changed but its calls and the count of the
decoders' draws. -/
def CommandEnds (s t : State) : Prop :=
  CommandOnly s t ∧ (t.consumer.point = .yield ∨ t.consumer.point = .rebooting)

theorem commandDone_commandEnds (s : State) : CommandEnds s s.commandDone :=
  ⟨⟨rfl, rfl, rfl, rfl, rfl, rfl, rfl, rfl, rfl, rfl⟩, .inl rfl⟩

theorem call_commandDone_commandEnds (s : State) (cs : List Call) : CommandEnds s (s.call cs).commandDone :=
  ⟨⟨rfl, rfl, rfl, rfl, rfl, rfl, rfl, rfl, rfl, rfl⟩, .inl rfl⟩

theorem doClearScreen_commandEnds (s : State) : CommandEnds s (doClearScreen s) := by
  unfold doClearScreen
  split
  · exact call_commandDone_commandEnds s _
  · exact commandDone_commandEnds s

theorem doRebootToFel_commandEnds (s : State) : CommandEnds s (doRebootToFel s) := by
  unfold doRebootToFel
  split
  · exact ⟨⟨rfl, rfl, rfl, rfl, rfl, rfl, rfl, rfl, rfl, rfl⟩, .inr rfl⟩
  · exact commandDone_commandEnds s

theorem blitEntry_commandEnds {decode : Call} {result : Option Surface} {s t : State}
    (h : blitEntry decode result s = .next t) : CommandEnds s t := by
  unfold blitEntry at h
  split at h <;> cases h
  cases result <;> exact ⟨⟨rfl, rfl, rfl, rfl, rfl, rfl, rfl, rfl, rfl, rfl⟩, .inl rfl⟩

/-- Step 4's case distinction, row by row (R185, R187 to R192). -/
theorem runCommand_commandEnds {op : Byte} {s t : State} (h : runCommand op s = .next t) : CommandEnds s t := by
  unfold runCommand at h
  split at h
  · cases h
    exact call_commandDone_commandEnds s _
  split at h
  · cases h
    exact doClearScreen_commandEnds s
  split at h
  · exact blitEntry_commandEnds h
  split at h
  · exact blitEntry_commandEnds h
  split at h
  · cases h
    exact doRebootToFel_commandEnds s
  · cases h
    exact commandDone_commandEnds s

/-! ### The consumer's steps (R182 to R186) -/

theorem readPrefix_cases (s : State) :
    ∃ p, readPrefix s = (getBlock 5 s).2.2.goToPoint p ∧ p ≠ .dispatch := by
  cases h : frameHeadOf (getBlock 5 s).2.1 with
  | none => exact ⟨.yield, by simp only [readPrefix, h], nofun⟩
  | some head => exact ⟨.validate head, by simp only [readPrefix, h], nofun⟩

theorem execIterPrefix_next {s t : State} (h : exec .iterPrefix s = .next t) :
    s.consumer.phase = .wantPrefix ∧ t = readPrefix s := by
  obtain ⟨-, ⟨hphase, -⟩, ht⟩ := iterEntry_next_iff.mp h
  cases ht
  exact ⟨hphase, rfl⟩

theorem execIterValidate_next {s t : State} (h : exec .iterValidate s = .next t) :
    ∃ head, s.consumer.point = .validate head ∧ t = validatePrefix head s := by
  simp only [exec, execIterValidate] at h
  split at h
  · exact ⟨_, ‹_›, whenRunning_next h⟩
  · obtain ⟨-, ht⟩ := whenRunning_next_iff.mp h
    cases ht

theorem execIterYield_next {s t : State} (h : exec .iterYield s = .next t) :
    s.consumer.point = .yield ∧ t = (s.call [.yield]).goToPoint .read := by
  obtain ⟨-, hat, ht⟩ := iterEntry_next_iff.mp h
  cases ht
  exact ⟨hat, rfl⟩

theorem State.oldest_length (s : State) (n : Nat) : (s.oldest n).length = n := by
  rw [State.oldest, List.length_map, List.length_range]

/-- What step 3 can do (R184): the body stays queued, or it goes to `SCRATCH`, into which it fits. -/
theorem readBody_cases {s t : State} (h : readBody s = .next t) :
    t = (getBlock s.consumer.need s).2.2.goToPoint .yield ∨
    ((getBlock s.consumer.need s).2.1.length ≤ s.params.maxFrame ∧
      t = (getBlock s.consumer.need s).2.2.withConsumer { s.consumer with
        scratch := s.consumer.scratch.writeBlock 0 (getBlock s.consumer.need s).2.1,
        phase := .wantPrefix, point := .dispatch }) := by
  unfold readBody at h
  obtain ⟨hn, e⟩ | ⟨hn, e⟩ := getBlock_cases s.consumer.need s
  · rw [e] at h ⊢
    simp only at h
    split at h
    · cases h
      exact .inl rfl
    · split at h
      · cases h
      · cases h
        refine .inr ⟨?_, rfl⟩
        rw [State.oldest_length]
        exact Nat.le_of_not_lt ‹_›
  · rw [e] at h ⊢
    cases h
    exact .inl rfl

theorem validatePrefix_parserKept (head : FrameHead) (s : State) : ParserKept s (validatePrefix head s) := by
  unfold validatePrefix
  split <;> exact ⟨rfl, rfl, rfl, rfl⟩

/-- `GET`'s frame, when the consumer moves on after it (R182, R184). -/
theorem getBlock_withConsumer_parserKept (want : Word) (s : State) (c : Consumer) :
    ParserKept s ((getBlock want s).2.2.withConsumer c) := (getBlock_queueOnly want s).parserKept

theorem readPrefix_parserKept (s : State) : ParserKept s (readPrefix s) := by
  obtain ⟨p, e, -⟩ := readPrefix_cases s
  rw [e]
  exact getBlock_withConsumer_parserKept 5 s _

theorem readBody_parserKept {s t : State} (h : readBody s = .next t) : ParserKept s t := by
  obtain rfl | ⟨-, rfl⟩ := readBody_cases h <;> exact getBlock_withConsumer_parserKept _ s _

/-! ### `TheTwoSidesShareTheQueueAlone` -/

/-- The instructions of the consumer's side, and those on the queue alone (R20, R63). -/
def sparesParser : Instr → Bool
  | .get _ | .getShort _ | .reset | .iterPrefix | .iterValidate | .iterBody | .iterDispatch | .iterYield => true
  | .setBrightness | .clearScreen | .blitJpg | .blitPng | .rebootToFel | .unknownCmd _ | .ack => true
  | .put _ | .putOverflow _ => true
  | _ => false

/-- `GET.SHORT` is `GET` where the queue is too short (R163). -/
theorem execGet_of_execGetShort {want : Word} {s t : State} (h : exec (.getShort want) s = .next t) :
    exec (.get want) s = .next t := by
  obtain ⟨hr, hk⟩ := whenRunning_next_iff.mp h
  refine whenRunning_next_iff.mpr ⟨hr, ?_⟩
  split at hk
  · obtain ⟨hle, -⟩ | ⟨-, e⟩ := getBlock_cases want s
    · omega
    · rw [e]
      exact hk
  · cases hk

/-- `PUT.OVERFLOW` is `PUT` where the block does not fit (R161). -/
theorem execPut_of_execPutOverflow {bytes : List Byte} {s t : State} (h : exec (.putOverflow bytes) s = .next t) :
    exec (.put bytes) s = .next t := by
  obtain ⟨hr, hk⟩ := whenRunning_next_iff.mp h
  refine whenRunning_next_iff.mpr ⟨hr, ?_⟩
  split at hk
  · obtain ⟨hle, -⟩ | ⟨-, e⟩ := putBlock_cases bytes s
    · omega
    · rw [e]
      exact hk
  · cases hk

theorem exec_parserKept {i : Instr} {s t : State} (hi : sparesParser i = true) (h : exec i s = .next t) :
    ParserKept s t := by
  cases i <;> cases hi
  case get want =>
    rw [whenRunning_next h]
    exact (getBlock_queueOnly want s).parserKept
  case getShort want =>
    rw [whenRunning_next (execGet_of_execGetShort h)]
    exact (getBlock_queueOnly want s).parserKept
  case put bytes =>
    rw [whenRunning_next h]
    exact (putBlock_queueOnly bytes s).parserKept
  case putOverflow bytes =>
    rw [whenRunning_next (execPut_of_execPutOverflow h)]
    exact (putBlock_queueOnly bytes s).parserKept
  case reset | ack =>
    rw [whenRunning_next h]
    exact ⟨rfl, rfl, rfl, rfl⟩
  case iterPrefix =>
    obtain ⟨-, rfl⟩ := execIterPrefix_next h
    exact readPrefix_parserKept s
  case iterValidate =>
    obtain ⟨head, -, rfl⟩ := execIterValidate_next h
    exact validatePrefix_parserKept head s
  case iterBody =>
    obtain ⟨-, -, hbody⟩ := iterEntry_next_iff.mp h
    exact readBody_parserKept hbody
  case iterYield =>
    obtain ⟨-, rfl⟩ := execIterYield_next h
    exact ⟨rfl, rfl, rfl, rfl⟩
  case iterDispatch =>
    obtain ⟨-, -, hrun⟩ := iterEntry_next_iff.mp h
    exact (runCommand_commandEnds hrun).1.parserKept
  all_goals
    obtain ⟨-, hrun⟩ := runCommand_of_exec rfl h
    exact (runCommand_commandEnds hrun).1.parserKept

theorem execHreset_next {s t : State} (h : exec .hreset s = .next t) :
    paramsWellFormed s.params = true ∧ t = hardwareReset s := by
  simp only [exec, execHreset] at h
  split at h <;> cases h
  exact ⟨‹_›, rfl⟩

/-- Settles O53: by family of instructions; the producer's are runs of `RX`, and the consumer's spare the parser. -/
theorem theTwoSidesShareTheQueueAlone : Obligations.TheTwoSidesShareTheQueueAlone := by
  intro i s t h
  cases i
  case nop | crcStep | crcTabgen | crcSum =>
    rw [whenRunning_next h]
    exact ⟨rfl, rfl, rfl, rfl, rfl, rfl⟩
  case reserved110 => cases (whenRunning_next_iff.mp h).2
  case hreset =>
    obtain ⟨-, rfl⟩ := execHreset_next h
    exact ⟨rfl, rfl, trivial⟩
  case rx | hdrSof | hdrNoise | len0 | len1 | len2 | len3Ok | len3Bad | cmd | dataMore | dataLast | crcOk | crcBad
      | frame =>
    obtain ⟨hconsumer, hret, hparams, hcalls, hpending, -⟩ := rxAll_consumerKept (rxAll_of_exec rfl h)
    exact ⟨hparams, hpending, hconsumer, hcalls, hret⟩
  all_goals
    obtain ⟨hparser, hparams, hpending, -⟩ := exec_parserKept rfl h
    exact ⟨hparams, hpending, hparser⟩

end Sys2Proof.Machine
end

section
/-! PROOFS. The invariant taken apart along the two sides and the queue between them (10_state, R26, R29; 20_memory, R50,
R64; 43_consumer_dispatch, R181), and what each share needs to be kept. -/

namespace Sys2Proof.Machine

/-- R25, R26, R50: the invariant's share in the parser. -/
structure ParserSide (s : State) : Prop where
  table : parserInv s = true
  held : frameHeld s = true
  wf : s.parser.buf.wf = true
  within : s.parser.buf.within s.params.maxFrame = true

/-- R29, R50: the invariant's share in the queue. -/
structure QueueSide (s : State) : Prop where
  ring : queueInv s = true
  wf : s.queue.q.wf = true
  within : s.queue.q.within s.params.fifoCapacity = true

/-- R181, R50: the invariant's share in the consumer. -/
structure ConsumerSide (s : State) : Prop where
  loop : consumerInv s = true
  wf : s.consumer.scratch.wf = true
  within : s.consumer.scratch.within s.params.maxFrame = true

/-- The invariant, taken apart along the two sides and the queue that they share (R63). -/
structure Sides (s : State) : Prop where
  wellFormed : paramsWellFormed s.params = true
  parser : ParserSide s
  queue : QueueSide s
  consumer : ConsumerSide s

theorem inv_iff_sides (s : State) : Inv s = true ↔ Sides s := by
  simp only [Inv, memoryInv, Bool.and_eq_true]
  constructor
  · rintro ⟨⟨⟨⟨⟨hp, htable⟩, hring⟩, hloop⟩, ⟨⟨hbuf, hbuf'⟩, hq, hq'⟩, hscratch, hscratch'⟩, hheld⟩
    exact ⟨hp, ⟨htable, hheld, hbuf, hbuf'⟩, ⟨hring, hq, hq'⟩, ⟨hloop, hscratch, hscratch'⟩⟩
  · rintro ⟨hp, ⟨htable, hheld, hbuf, hbuf'⟩, ⟨hring, hq, hq'⟩, ⟨hloop, hscratch, hscratch'⟩⟩
    exact ⟨⟨⟨⟨⟨hp, htable⟩, hring⟩, hloop⟩, ⟨⟨hbuf, hbuf'⟩, hq, hq'⟩, hscratch, hscratch'⟩, hheld⟩

theorem ParserSide.of_kept {s t : State} (hs : ParserSide s) (h : ParserKept s t) : ParserSide t := by
  obtain ⟨hparser, hparams, -, hepoch⟩ := h
  obtain ⟨htable, hheld, hwf, hwithin⟩ := hs
  constructor
  · simpa only [parserInv, hparser, hparams] using htable
  · simpa only [frameHeld, State.readBuf, hparser, hepoch] using hheld
  · rwa [hparser]
  · rwa [hparser, hparams]

theorem QueueSide.congr {s t : State} (hs : QueueSide s) (hq : t.queue = s.queue) (hp : t.params = s.params) :
    QueueSide t := by
  obtain ⟨hring, hwf, hwithin⟩ := hs
  constructor
  · simpa only [queueInv, QueueOk, hq, hp] using hring
  · rwa [hq]
  · rwa [hq, hp]

theorem ConsumerSide.congr {s t : State} (hs : ConsumerSide s) (hc : t.consumer = s.consumer)
    (hp : t.params = s.params) : ConsumerSide t := by
  obtain ⟨hloop, hwf, hwithin⟩ := hs
  constructor
  · simpa only [consumerInv, hc, hp] using hloop
  · rwa [hc]
  · rwa [hc, hp]

/-! ### The queue's share -/

theorem queueInv_iff (s : State) : queueInv s = true ↔ QueueOk s ∧ ∀ i, i < s.queue.cnt.toNat →
    (s.queue.q.read ((s.queue.rd.toNat + i) % s.params.fifoCapacity)).isSome = true := by
  simp only [queueInv, Bool.and_eq_true, decide_eq_true_eq, List.all_eq_true, List.mem_range]

theorem Memory.isSome_read_write (m : Memory) (a x : Nat) (v : Byte) (h : (m.read x).isSome = true) :
    ((m.write a v).read x).isSome = true := by
  rw [Memory.read_write]
  split
  · rfl
  · exact h

/-- What has been written stays written. -/
theorem Memory.isSome_read_writeRing (bytes : List Byte) (m : Memory) (c start x : Nat)
    (h : (m.read x).isSome = true) : ((m.writeRing c start bytes).read x).isSome = true := by
  induction bytes generalizing m start with
  | nil => exact h
  | cons v rest ih => exact ih _ _ (Memory.isSome_read_write m _ x v h)

theorem QueueSide.queueOk {s : State} (hs : QueueSide s) : QueueOk s := ((queueInv_iff s).mp hs.ring).1

/-- R160: a block that fits. -/
theorem QueueSide.append {s : State} {bytes : List Byte} (hp : paramsWellFormed s.params = true) (hs : QueueSide s)
    (hn : bytes.length ≤ s.freeSpace) : QueueSide (s.append bytes) := by
  obtain ⟨hok, hwritten⟩ := (queueInv_iff s).mp hs.ring
  have hc := wellFormed_capacity hp
  have hcnt := State.append_cnt hp hok hn
  have hle := hok.2
  simp only [State.freeSpace] at hn
  refine ⟨(queueInv_iff _).mpr ⟨⟨hok.1, ?_⟩, fun i hi => ?_⟩, Memory.wf_writeRing bytes _ _ _ hs.wf,
    Memory.within_writeRing bytes _ _ _ hc.1 hs.within⟩
  · rw [hcnt, State.append_params]
    omega
  · rw [hcnt] at hi
    simp only [State.append, State.withQueue_queue, State.withQueue_params]
    by_cases hold : i < s.queue.cnt.toNat
    · exact Memory.isSome_read_writeRing bytes _ _ _ _ (hwritten i hold)
    · obtain ⟨j, rfl⟩ := Nat.exists_eq_add_of_le (Nat.le_of_not_lt hold)
      rw [← Nat.add_assoc, Memory.read_writeRing bytes _ _ _ _ (by omega) (by omega),
        List.getElem?_eq_getElem (by omega)]
      rfl

/-- R161, R164: an emptied queue. -/
theorem QueueSide.of_empty {s : State} (hp : paramsWellFormed s.params = true) (hrd : s.queue.rd = 0)
    (hcnt : s.queue.cnt = 0) (hwf : s.queue.q.wf = true) (hwithin : s.queue.q.within s.params.fifoCapacity = true) :
    QueueSide s := by
  have hc := wellFormed_capacity hp
  refine ⟨(queueInv_iff s).mpr ⟨⟨?_, ?_⟩, ?_⟩, hwf, hwithin⟩
  · rw [hrd]
    exact hc.1
  · simp [hcnt]
  · simp [hcnt]

theorem QueueSide.emptyQueue {s : State} (hp : paramsWellFormed s.params = true) (hs : QueueSide s) :
    QueueSide s.emptyQueue := QueueSide.of_empty hp rfl rfl hs.wf hs.within

/-- R160, R161: whatever `PUT` does. -/
theorem QueueSide.putBlock {s : State} (hp : paramsWellFormed s.params = true) (hs : QueueSide s) (bytes : List Byte) :
    QueueSide (putBlock bytes s).2 := by
  have hempty : QueueSide (s.emptyQueue.emit (.fifoOverflow bytes.length s.queue.cnt)) :=
    (hs.emptyQueue hp).congr rfl rfl
  obtain ⟨hn, e⟩ | ⟨-, e⟩ := putBlock_cases bytes s
  · rw [e]
    exact hs.append hp hn
  · obtain ⟨-, hn, e'⟩ | ⟨-, e'⟩ := putOverflowing_cases bytes s
    · rw [e, e']
      exact hempty.append hp (by simpa [State.freeSpace] using hn)
    · rw [e, e']
      exact hempty

/-- R162: the oldest bytes are removed. -/
theorem QueueSide.dropOldest {s : State} {want : Word} (hp : paramsWellFormed s.params = true) (hs : QueueSide s)
    (hn : want.toNat ≤ s.queue.cnt.toNat) : QueueSide (s.dropOldest want) := by
  obtain ⟨⟨-, hle⟩, hwritten⟩ := (queueInv_iff s).mp hs.ring
  have hc := wellFormed_capacity hp
  have hcnt := State.dropOldest_cnt hn
  have hrd := State.dropOldest_rd (want := want) hp
  refine ⟨(queueInv_iff _).mpr ⟨⟨?_, ?_⟩, fun i hi => ?_⟩, hs.wf, hs.within⟩
  · rw [hrd]
    exact Nat.mod_lt _ hc.1
  · rw [hcnt, State.dropOldest_params]
    omega
  · rw [hcnt] at hi
    rw [hrd, State.dropOldest_params, Nat.mod_add_mod, Nat.add_assoc]
    exact hwritten _ (by omega)

/-- R162, R163: whatever `GET` does. -/
theorem QueueSide.getBlock {s : State} (hp : paramsWellFormed s.params = true) (hs : QueueSide s) (want : Word) :
    QueueSide (getBlock want s).2.2 := by
  obtain ⟨hn, e⟩ | ⟨-, e⟩ := getBlock_cases want s
  · rw [e]
    exact (hs.dropOldest hp hn).congr rfl rfl
  · rw [e]
    exact hs.congr rfl rfl

/-! ### The consumer's share -/

/-- R181 to R184, by what each place in the loop needs. -/
theorem consumerInv_iff (s : State) : consumerInv s = true ↔
    (s.consumer.phase = .wantBody → s.consumer.point = .read ∨ s.consumer.point = .yield) ∧
    (s.consumer.phase = .wantBody ∨ s.consumer.point = .dispatch → bodyLengthOk s.params s.consumer.need = true) := by
  simp only [consumerInv]
  cases s.consumer.phase <;> cases s.consumer.point <;> simp

/-- A consumer at any other place than step 1, step 3 and step 5 waits for no body. -/
theorem wantPrefix_of_point {s : State} (h : consumerInv s = true) (hr : s.consumer.point ≠ .read)
    (hy : s.consumer.point ≠ .yield) : s.consumer.phase = .wantPrefix := by
  cases hphase : s.consumer.phase with
  | wantPrefix => rfl
  | wantBody => exact absurd (((consumerInv_iff s).mp h).1 hphase) (not_or.mpr ⟨hr, hy⟩)

/-- At a place of the loop other than step 4 a consumer that waits for no body meets R181 whatever `need` is. -/
theorem consumerInv_of_wantPrefix {s : State} (hphase : s.consumer.phase = .wantPrefix)
    (hd : s.consumer.point ≠ .dispatch) : consumerInv s = true := by
  rw [consumerInv_iff]
  simp [hphase, hd]

end Sys2Proof.Machine
end

section
/-! PROOFS. The parser's rows keep R26's table and the frame in progress (10_state, R24 to R26; 20_memory, R64;
41_parser, R145). -/

namespace Sys2Proof.Machine

/-! ### The length bytes (R24, R26) -/

/-- The low bits of the length are zero until their bytes arrive, as R26's column `len` says it. -/
theorem lowBits_zero_iff (l : Word) (k : Nat) :
    l.extractLsb' 0 k = 0#k ↔ ∀ i, i < k → l.getLsbD i = false := by
  constructor
  · intro h i hi
    have hbit := congrArg (fun x => BitVec.getLsbD x i) h
    simpa [hi] using hbit
  · intro h
    refine BitVec.eq_of_getLsbD_eq fun i hi => ?_
    simp [hi, h i hi]

/-- A byte shifted into its place leaves the bits below it alone. -/
theorem lowBits_or_shifted {l : Word} {k n : Nat} (b : Byte) (h : l.extractLsb' 0 k = 0#k) (hn : n ≤ k) :
    (l ||| (b.setWidth 32 <<< n)).extractLsb' 0 n = 0#n := by
  rw [lowBits_zero_iff] at h ⊢
  intro i hi
  simp [h i (by omega), hi]

theorem lowBits_shifted (b : Byte) (n : Nat) : (b.setWidth 32 <<< n).extractLsb' 0 n = 0#n := by
  rw [lowBits_zero_iff]
  intro i hi
  simp [hi]

theorem be32_first (b1 : Byte) : b1.setWidth 32 <<< 24 = be32 b1 0#8 0#8 0#8 := by simp [be32]

theorem be32_second (b1 b2 : Byte) : be32 b1 0#8 0#8 0#8 ||| (b2.setWidth 32 <<< 16) = be32 b1 b2 0#8 0#8 := by
  simp [be32]

theorem be32_third (b1 b2 b3 : Byte) : be32 b1 b2 0#8 0#8 ||| (b3.setWidth 32 <<< 8) = be32 b1 b2 b3 0#8 := by
  simp [be32]

theorem be32_fourth (b1 b2 b3 b4 : Byte) : lengthWith (be32 b1 b2 b3 0#8) b4 = be32 b1 b2 b3 b4 := by
  simp [be32, lengthWith]

/-! ### The store of R130 -/

theorem State.storeByte_readBuf (s : State) (b : Byte) (i : Nat) :
    (s.storeByte b).readBuf i = if i = s.parser.cur.toNat then b else s.readBuf i := by
  simp only [State.readBuf, State.storeByte_read, State.storeByte_epoch]
  split <;> rfl

/-! ### R26's table -/

theorem parserInv_of_header {s : State} (hst : s.parser.st = .header) (hcur : s.parser.cur = 0) :
    parserInv s = true := by
  simp [parserInv, Parser.pairOk, hst, hcur]

theorem frameHeld_of_header {s : State} (hst : s.parser.st = .header) (hcur : s.parser.cur = 0) :
    frameHeld s = true := by
  simp [frameHeld, hst, hcur]

/-- The cursor after one more byte, where it stays inside the buffer (R145). -/
theorem cur_add_one_toNat {cur : Word} {maxFrame : Nat} (hc : cur.toNat < maxFrame) (hm : maxFrame < 2 ^ 32) :
    (cur + 1#32).toNat = cur.toNat + 1 :=
  BitVec.toNat_add_of_lt (show cur.toNat + 1 < 2 ^ 32 by omega)

/-- Every row keeps R26's table. -/
theorem rxRow_parserInv {s : State} (b : Byte) (h : parserInv s = true) (hc : s.parser.cur.toNat < s.params.maxFrame)
    (hm : s.params.maxFrame < 2 ^ 32) : parserInv (rxRow b (s.storeByte b)) = true := by
  have hsucc := cur_add_one_toNat hc hm
  cases hst : s.parser.st with
  | header =>
    simp only [rxRow, State.storeByte_parser, hst]
    split
    · rw [rowHdrSof_eq]
      rfl
    · exact parserInv_of_header rfl rfl
  | length0 =>
    simp only [rxRow, State.storeByte_parser, hst, rowLen0_eq]
    simp [parserInv, Parser.pairOk, lowBits_shifted]
  | length1 =>
    obtain ⟨-, hlen⟩ : _ ∧ s.parser.len.extractLsb' 0 24 = 0#24 := by simpa [parserInv, hst] using h
    simp only [rxRow, State.storeByte_parser, hst, rowLen1_eq]
    simp [parserInv, Parser.pairOk, lowBits_or_shifted b hlen]
  | length2 =>
    obtain ⟨-, hlen⟩ : _ ∧ s.parser.len.extractLsb' 0 16 = 0#16 := by simpa [parserInv, hst] using h
    simp only [rxRow, State.storeByte_parser, hst, rowLen2_eq]
    simp [parserInv, Parser.pairOk, lowBits_or_shifted b hlen]
  | length3 =>
    simp only [rxRow, State.storeByte_parser, State.storeByte_params, hst]
    split
    · rw [rowLen3Ok_eq]
      simpa [parserInv, Parser.pairOk]
    · exact parserInv_of_header rfl rfl
  | command =>
    obtain ⟨-, hlen⟩ : _ ∧ lengthInRange s.params.maxFrame s.parser.len = true := by simpa [parserInv, hst] using h
    simp only [rxRow, State.storeByte_parser, hst, rowCmd_eq]
    have hlow : 6 ≤ s.parser.len.toNat + 3 := by
      rw [lengthInRange_iff] at hlen
      omega
    simp [parserInv, Parser.pairOk, hlen, hlow]
  | data =>
    obtain ⟨⟨hlow, hhigh⟩, hlen⟩ : (6 ≤ s.parser.cur.toNat ∧ s.parser.cur.toNat ≤ s.parser.len.toNat + 3) ∧
        lengthInRange s.params.maxFrame s.parser.len = true := by
      simpa [parserInv, Parser.pairOk, hst] using h
    simp only [rxRow, State.storeByte_parser, hst]
    split
    · rename_i hlast
      rw [lastData_iff, ← hsucc] at hlast
      simp [-BitVec.toNat_add, rowDataLast_eq, parserInv, Parser.pairOk, hlen, hlast]
    · rename_i hlast
      rw [lastData_iff] at hlast
      have hlow' : 6 ≤ (s.parser.cur + 1#32).toNat := by omega
      have hhigh' : (s.parser.cur + 1#32).toNat ≤ s.parser.len.toNat + 3 := by omega
      simp [-BitVec.toNat_add, rowDataMore_eq, parserInv, Parser.pairOk, hlen, hlow', hhigh']
  | crc =>
    simp only [rxRow, State.storeByte_parser, hst]
    split
    · rw [rowCrcOk_eq]
      exact parserInv_of_header rfl rfl
    · exact parserInv_of_header rfl rfl

/-! ### The bytes of the frame in progress (R24, R25, R64) -/

/-- After the store the bytes held are those before the cursor and the one at it. -/
theorem State.storeByte_held {s : State} (b : Byte)
    (h : ∀ i, i < s.parser.cur.toNat → (s.parser.buf.read i).isSome = true) :
    ∀ i, i < s.parser.cur.toNat + 1 → ((s.storeByte b).parser.buf.read i).isSome = true := by
  intro i hi
  rw [State.storeByte_read]
  split
  · rfl
  · exact h i (by omega)

/-- What the length bytes received so far make of `len`, by the parser's state (R24). -/
def lengthHeld (st : ParserState) (len : Word) (read : Nat → Byte) : Prop :=
  match st with
  | .header | .length0 => True
  | .length1 => len = be32 (read 1) 0 0 0
  | .length2 => len = be32 (read 1) (read 2) 0 0
  | .length3 => len = be32 (read 1) (read 2) (read 3) 0
  | .command | .data | .crc => len = be32 (read 1) (read 2) (read 3) (read 4)

theorem frameHeld_iff (s : State) : frameHeld s = true ↔
    (∀ i, i < s.parser.cur.toNat → (s.parser.buf.read i).isSome = true) ∧
    (s.parser.st = .header ∨ s.readBuf 0 = Config.sentinel) ∧ lengthHeld s.parser.st s.parser.len s.readBuf := by
  simp only [frameHeld, Bool.and_eq_true, List.all_eq_true, List.mem_range, Bool.or_eq_true, beq_iff_eq, and_assoc]
  refine and_congr_right fun _ => and_congr_right fun _ => ?_
  cases s.parser.st <;> simp [lengthHeld]

/-- A byte stored after the length bytes does not touch them. -/
theorem lengthHeld_storeByte {s : State} {len : Word} (b : Byte) (hc : 5 ≤ s.parser.cur.toNat)
    (h : lengthHeld .command len s.readBuf) : lengthHeld .command len (s.storeByte b).readBuf := by
  have hread : ∀ i, i < 5 → (s.storeByte b).readBuf i = s.readBuf i := fun i hi => by
    rw [State.storeByte_readBuf, if_neg (by omega)]
  simpa only [lengthHeld, hread, Nat.reduceLT] using h

/-- The parser moves on by one byte: what `frameHeld` asks of the state and the length it moves on to. -/
theorem frameHeld_next_field {s : State} {b : Byte} {st : ParserState} {cur len : Word}
    (hold : ∀ i, i < s.parser.cur.toNat → (s.parser.buf.read i).isSome = true)
    (hcur : cur.toNat = s.parser.cur.toNat + 1) (hsof : (s.storeByte b).readBuf 0 = Config.sentinel)
    (hlen : lengthHeld st len (s.storeByte b).readBuf) :
    frameHeld ((s.storeByte b).withParser { (s.storeByte b).parser with st := st, cur := cur, len := len }) = true :=
  (frameHeld_iff _).mpr ⟨fun i hi => State.storeByte_held b hold i (hcur ▸ hi), .inr hsof, hlen⟩

/-- The same past the sentinel, which the store does not touch. -/
theorem frameHeld_next_field_of_pos {s : State} {b : Byte} {st : ParserState} {cur len : Word} (h : frameHeld s = true)
    (hst : s.parser.st ≠ .header) (hpos : 0 < s.parser.cur.toNat) (hcur : cur.toNat = s.parser.cur.toNat + 1)
    (hlen : lengthHeld st len (s.storeByte b).readBuf) :
    frameHeld ((s.storeByte b).withParser { (s.storeByte b).parser with st := st, cur := cur, len := len }) = true := by
  obtain ⟨hold, hsof, -⟩ := (frameHeld_iff s).mp h
  refine frameHeld_next_field hold hcur ?_ hlen
  rw [State.storeByte_readBuf, if_neg (by omega)]
  exact hsof.resolve_left hst

/-- Every row keeps the frame in progress in `BUF`. -/
theorem rxRow_frameHeld {s : State} (b : Byte) (h : frameHeld s = true) (hp : s.parser.pairOk = true)
    (hc : s.parser.cur.toNat < s.params.maxFrame) (hm : s.params.maxFrame < 2 ^ 32) :
    frameHeld (rxRow b (s.storeByte b)) = true := by
  have hsucc := cur_add_one_toNat hc hm
  have hread := State.storeByte_readBuf s b
  obtain ⟨hold, -, hlen⟩ := (frameHeld_iff s).mp h
  cases hst : s.parser.st with
  | header =>
    have hcur : s.parser.cur.toNat = 0 := by simpa [Parser.pairOk, hst] using hp
    simp only [rxRow, State.storeByte_parser, hst]
    split
    · rename_i hb
      refine frameHeld_next_field hold (by rw [hcur]; rfl) ?_ trivial
      simpa [hread, hcur, isSentinel] using hb
    · exact frameHeld_of_header rfl rfl
  | length0 =>
    have hcur : s.parser.cur.toNat = 1 := by simpa [Parser.pairOk, hst] using hp
    simp only [rxRow, State.storeByte_parser, hst, rowLen0_eq]
    refine frameHeld_next_field_of_pos h (by simp [hst]) (by omega) (by rw [hcur]; rfl) ?_
    simp [lengthHeld, hread, hcur, be32_first]
  | length1 =>
    have hcur : s.parser.cur.toNat = 2 := by simpa [Parser.pairOk, hst] using hp
    simp only [rxRow, State.storeByte_parser, hst]
    refine frameHeld_next_field_of_pos h (by simp [hst]) (by omega) (by rw [hcur]; rfl) ?_
    simp only [lengthHeld, hst] at hlen
    simp [lengthHeld, hread, hcur, hlen, be32_second]
  | length2 =>
    have hcur : s.parser.cur.toNat = 3 := by simpa [Parser.pairOk, hst] using hp
    simp only [rxRow, State.storeByte_parser, hst]
    refine frameHeld_next_field_of_pos h (by simp [hst]) (by omega) (by rw [hcur]; rfl) ?_
    simp only [lengthHeld, hst] at hlen
    simp [lengthHeld, hread, hcur, hlen, be32_third]
  | length3 =>
    have hcur : s.parser.cur.toNat = 4 := by simpa [Parser.pairOk, hst] using hp
    simp only [rxRow, State.storeByte_parser, hst]
    split
    · refine frameHeld_next_field_of_pos h (by simp [hst]) (by omega) (by rw [hcur]; rfl) ?_
      simp only [lengthHeld, hst] at hlen
      simp [lengthHeld, hread, hcur, hlen, be32_fourth]
    · exact frameHeld_of_header rfl rfl
  | command =>
    have hcur : s.parser.cur.toNat = 5 := by simpa [Parser.pairOk, hst] using hp
    simp only [rxRow, State.storeByte_parser, hst]
    refine frameHeld_next_field_of_pos h (by simp [hst]) (by omega) (by rw [hcur]; rfl) ?_
    rw [hst] at hlen
    exact lengthHeld_storeByte b hcur.ge hlen
  | data =>
    obtain ⟨hcur, -⟩ : 6 ≤ s.parser.cur.toNat ∧ _ := by simpa [Parser.pairOk, hst] using hp
    rw [hst] at hlen
    have hlen' := lengthHeld_storeByte b (by omega) hlen
    simp only [rxRow, State.storeByte_parser, hst]
    split <;> exact frameHeld_next_field_of_pos h (by simp [hst]) (by omega) hsucc hlen'
  | crc =>
    simp only [rxRow, State.storeByte_parser, hst]
    split
    · rw [rowCrcOk_eq]
      exact frameHeld_of_header rfl rfl
    · exact frameHeld_of_header rfl rfl

end Sys2Proof.Machine
end

section
/-! PROOFS. The invariant holds at reset, and every instruction and every step keeps it (10_state, R26, R29, R35). -/

namespace Sys2Proof.Machine

/-! ### The consumer's steps -/

/-- A consumer that moves in its loop and leaves `SCRATCH`. -/
theorem ConsumerSide.of_scratch {s t : State} (hs : ConsumerSide s) (hparams : t.params = s.params)
    (hscratch : t.consumer.scratch = s.consumer.scratch) (hloop : consumerInv t = true) : ConsumerSide t := by
  refine ⟨hloop, ?_, ?_⟩
  · rw [hscratch]
    exact hs.wf
  · rw [hscratch, hparams]
    exact hs.within

theorem Sides.of_parserKept {s t : State} (hs : Sides s) (hk : ParserKept s t) (hq : QueueSide t)
    (hc : ConsumerSide t) : Sides t := by
  refine ⟨?_, hs.parser.of_kept hk, hq, hc⟩
  have ⟨_, hparams, _, _⟩ := hk
  rw [hparams]
  exact hs.wellFormed

theorem Sides.of_queueOnly {s t : State} (hs : Sides s) (h : QueueOnly s t) (hq : QueueSide t) : Sides t := by
  have ⟨_, hconsumer, hparams, _⟩ := h
  exact hs.of_parserKept h.parserKept hq (hs.consumer.congr hconsumer hparams)

theorem Sides.withRet {s : State} (hs : Sides s) (r : Ret) : Sides (s.withRet r) :=
  hs.of_queueOnly ⟨rfl, rfl, rfl, rfl, rfl, rfl, rfl⟩ (hs.queue.congr rfl rfl)

theorem Sides.call {s : State} (hs : Sides s) (cs : List Call) : Sides (s.call cs) :=
  hs.of_parserKept ⟨rfl, rfl, rfl, rfl⟩ (hs.queue.congr rfl rfl) (hs.consumer.congr rfl rfl)

theorem Sides.put {s : State} (hs : Sides s) (bytes : List Byte) : Sides (putBlock bytes s).2 :=
  hs.of_queueOnly (putBlock_queueOnly bytes s) (hs.queue.putBlock hs.wellFormed bytes)

theorem Sides.get {s : State} (hs : Sides s) (want : Word) : Sides (getBlock want s).2.2 :=
  hs.of_queueOnly (getBlock_queueOnly want s) (hs.queue.getBlock hs.wellFormed want)

theorem Sides.reset {s : State} (hs : Sides s) : Sides (resetQueue s) :=
  hs.of_queueOnly ⟨rfl, rfl, rfl, rfl, rfl, rfl, rfl⟩ ((hs.queue.emptyQueue hs.wellFormed).congr rfl rfl)

/-- The consumer changes, and its share still holds. -/
theorem Sides.withConsumer {s : State} {c : Consumer} (hs : Sides s) (hc : ConsumerSide (s.withConsumer c)) :
    Sides (s.withConsumer c) :=
  hs.of_parserKept ⟨rfl, rfl, rfl, rfl⟩ (hs.queue.congr rfl rfl) hc

/-- The consumer goes to another place of its loop. -/
theorem Sides.goToPoint {s : State} {p : IterPoint} (hs : Sides s) (hloop : consumerInv (s.goToPoint p) = true) :
    Sides (s.goToPoint p) :=
  hs.withConsumer (hs.consumer.of_scratch rfl rfl hloop)

theorem getBlock_consumer (want : Word) (s : State) : (getBlock want s).2.2.consumer = s.consumer :=
  have ⟨_, hconsumer, _⟩ := getBlock_queueOnly want s
  hconsumer

theorem getBlock_params (want : Word) (s : State) : (getBlock want s).2.2.params = s.params :=
  have ⟨_, _, hparams, _⟩ := getBlock_queueOnly want s
  hparams

/-- A command ends at step 5 or in the reboot call, with no body awaited. -/
theorem Sides.commandEnds {s t : State} (hs : Sides s) (hd : s.consumer.point = .dispatch) (h : CommandEnds s t) :
    Sides t := by
  obtain ⟨honly, hpoint⟩ := h
  have ⟨hparams, _, hqueue, hphase, _, hscratch, _⟩ := honly
  have hwant := wantPrefix_of_point hs.consumer.loop (by simp [hd]) (by simp [hd])
  refine hs.of_parserKept honly.parserKept (hs.queue.congr hqueue hparams) (hs.consumer.of_scratch hparams hscratch ?_)
  refine consumerInv_of_wantPrefix (hphase.trans hwant) ?_
  rcases hpoint with h | h <;> simp [h]

/-- Step 1 (R182). -/
theorem Sides.readPrefix {s : State} (hs : Sides s) (hphase : s.consumer.phase = .wantPrefix) :
    Sides (readPrefix s) := by
  obtain ⟨p, e, hp⟩ := readPrefix_cases s
  rw [e]
  refine (hs.get 5).goToPoint (consumerInv_of_wantPrefix ?_ hp)
  simpa [getBlock_consumer] using hphase

/-- Step 2 (R183): step 1 has just read, hence no body is awaited. -/
theorem Sides.validatePrefix {s : State} {head : FrameHead} (hs : Sides s) (hat : s.consumer.point = .validate head) :
    Sides (validatePrefix head s) := by
  have hwant := wantPrefix_of_point hs.consumer.loop (by simp [hat]) (by simp [hat])
  unfold Machine.validatePrefix
  split
  · refine hs.withConsumer (hs.consumer.of_scratch rfl rfl ?_)
    simpa [consumerInv_iff]
  · exact hs.reset.goToPoint (consumerInv_of_wantPrefix hwant nofun)

/-- Step 3 (R184): a body that is taken has the length that step 2 accepted. -/
theorem Sides.readBody {s t : State} (hs : Sides s) (hphase : s.consumer.phase = .wantBody)
    (h : readBody s = .next t) : Sides t := by
  have hget := hs.get s.consumer.need
  have hneed := ((consumerInv_iff s).mp hs.consumer.loop).2 (.inl hphase)
  obtain rfl | ⟨hfit, rfl⟩ := readBody_cases h
  · refine hget.goToPoint ?_
    simp [consumerInv_iff, getBlock_consumer, getBlock_params, hneed]
  · refine hget.withConsumer ⟨?_, Memory.wf_writeBlock _ _ 0 hs.consumer.wf, ?_⟩
    · simpa [consumerInv_iff, getBlock_params]
    · rw [State.withConsumer_params, getBlock_params]
      exact Memory.within_writeBlock _ _ _ 0 (by omega) hs.consumer.within

/-- Step 5 (R186). -/
theorem Sides.yield {s : State} (hs : Sides s) (hat : s.consumer.point = .yield) :
    Sides ((s.call [.yield]).goToPoint .read) := by
  refine (hs.call [.yield]).goToPoint ?_
  have hloop := (consumerInv_iff s).mp hs.consumer.loop
  simpa [consumerInv_iff, hat] using hloop

/-! ### `RX` -/

theorem rxRow_buf (b : Byte) (t : State) : (rxRow b t).parser.buf = t.parser.buf := by
  obtain ⟨-, hbuf⟩ | e := rxRow_cases b t
  · exact hbuf
  · rw [e, rowCrcOk_eq]
    rfl

theorem ParserSide.rxRow {s : State} (hp : paramsWellFormed s.params = true) (hs : ParserSide s) (b : Byte)
    (hpair : s.parser.pairOk = true) (hc : s.parser.cur.toNat < s.params.maxFrame) :
    ParserSide (rxRow b (s.storeByte b)) := by
  obtain ⟨-, hm⟩ := wellFormed_maxFrame hp
  obtain ⟨-, -, hparams, -⟩ := rxRow_consumerKept b (s.storeByte b)
  refine ⟨rxRow_parserInv b hs.table hc hm, rxRow_frameHeld b hs.held hpair hc hm, ?_, ?_⟩
  · rw [rxRow_buf]
    exact Memory.wf_write _ _ b hs.wf
  · rw [rxRow_buf, hparams]
    exact Memory.within_write _ _ _ b hc hs.within

theorem QueueSide.rxRow {t : State} (hp : paramsWellFormed t.params = true) (ht : QueueSide t) (b : Byte) :
    QueueSide (rxRow b t) := by
  obtain ⟨⟨hqueue, -, -, hparams, -⟩, -⟩ | e := rxRow_cases b t
  · exact ht.congr hqueue hparams
  · rw [e]
    exact (ht.putBlock hp _).congr rfl rfl

theorem Sides.rxByte {b : Byte} {s t : State} (hs : Sides s) (h : rxByte b s = .next t) : Sides t := by
  obtain ⟨-, hpair, hc, rfl⟩ := rxByte_next_iff.mp h
  obtain ⟨hconsumer, -, hparams, -⟩ := rxRow_consumerKept b (s.storeByte b)
  refine ⟨?_, hs.parser.rxRow hs.wellFormed b hpair hc, ?_, hs.consumer.congr hconsumer hparams⟩
  · rw [hparams]
    exact hs.wellFormed
  · have hstored : QueueSide (s.storeByte b) := hs.queue.congr rfl rfl
    exact QueueSide.rxRow (t := s.storeByte b) hs.wellFormed hstored b

/-! ### Reset -/

/-- R35's values meet every share, whatever `need` holds. -/
theorem sides_of_resetValues {s : State} {need : Word} (hp : paramsWellFormed s.params = true)
    (hparser : s.parser = ⟨.header, 0, 0, []⟩) (hqueue : s.queue = ⟨[], 0, 0⟩)
    (hconsumer : s.consumer = ⟨.wantPrefix, need, [], .read⟩) : Sides s where
  wellFormed := hp
  parser := ⟨parserInv_of_header (by rw [hparser]) (by rw [hparser]),
    frameHeld_of_header (by rw [hparser]) (by rw [hparser]), by rw [hparser]; rfl, by rw [hparser]; rfl⟩
  queue := QueueSide.of_empty hp (by rw [hqueue]) (by rw [hqueue]) (by rw [hqueue]; rfl) (by rw [hqueue]; rfl)
  consumer := ⟨consumerInv_of_wantPrefix (by rw [hconsumer]) (by rw [hconsumer]; nofun), by rw [hconsumer]; rfl,
    by rw [hconsumer]; rfl⟩

/-- Settles O28: the fields of `State.resetWith` and of `Config.params`. -/
theorem resetStateHasTheListedValues : Obligations.ResetStateHasTheListedValues :=
  ⟨fun _ => ⟨⟨rfl, rfl, rfl⟩, rfl, rfl, rfl, rfl, rfl⟩, rfl, rfl, rfl⟩

theorem inv_resetWith {p : Params} (hp : paramsWellFormed p = true) : Inv (State.resetWith p) = true :=
  (inv_iff_sides _).mpr (sides_of_resetValues hp rfl rfl rfl)

/-- Settles O49: R35's values meet the invariant, and the default parameters are well-formed. -/
theorem invariantHoldsAtReset : Obligations.InvariantHoldsAtReset :=
  ⟨fun _ hp => inv_resetWith hp, inv_resetWith (by decide)⟩

/-! ### Every instruction and every step -/

theorem exec_keeps_sides {i : Instr} {s t : State} (hs : Sides s) (h : exec i s = .next t) : Sides t := by
  cases i
  case nop =>
    rw [whenRunning_next h]
    exact hs
  case crcStep | crcTabgen | crcSum =>
    rw [whenRunning_next h]
    exact hs.withRet _
  case ack =>
    rw [whenRunning_next h]
    exact hs.call _
  case reserved110 => cases (whenRunning_next_iff.mp h).2
  case hreset =>
    obtain ⟨hp, rfl⟩ := execHreset_next h
    exact sides_of_resetValues hp rfl rfl rfl
  case get want =>
    rw [whenRunning_next h]
    exact hs.get want
  case getShort want =>
    rw [whenRunning_next (execGet_of_execGetShort h)]
    exact hs.get want
  case put bytes =>
    rw [whenRunning_next h]
    exact (hs.put bytes).withRet _
  case putOverflow bytes =>
    rw [whenRunning_next (execPut_of_execPutOverflow h)]
    exact (hs.put bytes).withRet _
  case reset =>
    rw [whenRunning_next h]
    exact hs.reset
  case iterPrefix =>
    obtain ⟨hphase, rfl⟩ := execIterPrefix_next h
    exact hs.readPrefix hphase
  case iterValidate =>
    obtain ⟨head, hat, rfl⟩ := execIterValidate_next h
    exact hs.validatePrefix hat
  case iterBody =>
    obtain ⟨-, ⟨hphase, -⟩, hbody⟩ := iterEntry_next_iff.mp h
    exact hs.readBody hphase hbody
  case iterYield =>
    obtain ⟨hat, rfl⟩ := execIterYield_next h
    exact hs.yield hat
  case iterDispatch =>
    obtain ⟨-, hd, hrun⟩ := iterEntry_next_iff.mp h
    exact hs.commandEnds hd (runCommand_commandEnds hrun)
  case setBrightness | clearScreen | blitJpg | blitPng | rebootToFel | unknownCmd =>
    obtain ⟨hd, hrun⟩ := runCommand_of_exec rfl h
    exact hs.commandEnds hd (runCommand_commandEnds hrun)
  all_goals exact rxAll_keeps Sides.rxByte hs (rxAll_of_exec rfl h)

theorem exec_keeps_inv {i : Instr} {s t : State} (hs : Inv s = true) (h : exec i s = .next t) : Inv t = true :=
  (inv_iff_sides t).mpr (exec_keeps_sides ((inv_iff_sides s).mp hs) h)

/-- A transaction runs on the state from which its request has been taken. -/
theorem fetch_run {i : Instr} {s u : State} (h : fetch s = .run i u) : ∃ rest, u = s.withPending rest := by
  unfold fetch at h
  split at h
  · cases h
  · unfold fetchPort at h
    split at h
    · cases h
    · split at h <;> cases h
      exact ⟨_, rfl⟩
  · unfold fetchTurn at h
    split at h <;> cases h
    exact ⟨_, rfl⟩

theorem step_keeps_inv {s t : State} (hs : Inv s = true) (h : step s = .next t) : Inv t = true := by
  obtain ⟨-, e⟩ | ⟨i, u, hf, e⟩ | ⟨r, -, e⟩ := step_cases s <;> rw [e] at h
  · cases h
    exact hs
  · obtain ⟨rest, rfl⟩ := fetch_run hf
    exact exec_keeps_inv (by rwa [Inv_withPending]) h
  · cases h

/-- Settles O50: each side's share of the invariant is kept by what that side does, and by the queue's operations. -/
theorem everyStepKeepsTheInvariant : Obligations.EveryStepKeepsTheInvariant :=
  ⟨fun _ _ _ hs h => exec_keeps_inv hs h, fun _ _ hs h => step_keeps_inv hs h⟩

end Sys2Proof.Machine
end

section
/-! PROOFS. Where the machine faults (20_memory, R50, R55; 93_implementation_defined, U10, U11): the guards around the
operations let a transaction through to its fault. -/

namespace Sys2Proof.Machine

/-! ### The guards let a transaction through -/

theorem iterEntry_of_here {s : State} {here : Prop} [Decidable here] (hr : Running s) (hh : here) (k : Outcome) :
    iterEntry s here k = k := by
  rw [iterEntry, whenRunning_of_running hr, if_pos hh]

theorem commandEntry_of_selected {s : State} {selected : Bool} (hr : Running s) (hd : s.consumer.point = .dispatch)
    (hsel : selected = true) (k : Outcome) : commandEntry s selected k = k := by
  rw [commandEntry, whenRunning_of_running hr, if_pos ⟨hd, hsel⟩]

/-! ### The faults -/

/-- U10: a pair outside R26's table is a fault for every row of R85. -/
theorem rxEntry_of_not_pairOk {s : State} (hr : Running s) (hp : s.parser.pairOk = false) (b : Byte)
    (selected : Bool) (row : State → State) : rxEntry b s selected row = .fault .unreachableParserState := by
  rw [rxEntry, whenRunning_of_running hr]
  simp [hp]

/-- U11, R55: the row that the byte belongs to has an index outside `BUF`. -/
theorem rxEntry_of_maxFrame_le_cur {s : State} (hr : Running s) (hp : s.parser.pairOk = true)
    (hc : s.params.maxFrame ≤ s.parser.cur.toNat) (b : Byte) (row : State → State) :
    rxEntry b s true row = .fault .bufIndexOutOfRange := by
  rw [rxEntry, whenRunning_of_running hr]
  simp [hp, hc]

/-- R50, R184: a queued body that is longer than `SCRATCH`. -/
theorem readBody_of_maxFrame_lt_need {s : State} (hlong : s.params.maxFrame < s.consumer.need.toNat)
    (hq : s.consumer.need.toNat ≤ s.queue.cnt.toNat) : readBody s = .fault .scratchIndexOutOfRange := by
  have hne : s.consumer.need ≠ 0 := by
    intro h
    simp [h] at hlong
  obtain ⟨-, e⟩ | ⟨hshort, -⟩ := getBlock_cases s.consumer.need s
  · simp only [readBody, e, if_neg hne, if_pos hlong]
  · omega

/-- R50, R189: a blit whose body is longer than `SCRATCH`, whatever the decoder would answer. -/
theorem blitEntry_of_maxFrame_lt_need {s : State} (hlong : s.params.maxFrame < s.consumer.need.toNat)
    (decode : Call) (result : Option Surface) : blitEntry decode result s = .fault .scratchIndexOutOfRange :=
  if_pos hlong

/-- Settles O20: each fault stands behind the guard of its transaction. -/
theorem faultsAreForUnreachableStates : Obligations.FaultsAreForUnreachableStates := by
  intro s hr
  refine ⟨fun b hp => rxEntry_of_not_pairOk hr hp b _ _, fun b hp hc => rxEntry_of_maxFrame_le_cur hr hp hc b _,
    fun hlong => ⟨?iterBody, ?blitJpg, ?blitPng⟩⟩
  case iterBody =>
    intro hphase hpoint hq
    exact (iterEntry_of_here hr ⟨hphase, hpoint⟩ _).trans (readBody_of_maxFrame_lt_need hlong hq)
  case blitJpg | blitPng =>
    intro hd hop
    exact (commandEntry_of_selected hr hd (beq_iff_eq.mpr hop) _).trans (blitEntry_of_maxFrame_lt_need hlong _ _)

end Sys2Proof.Machine
end

section
/-! PROOFS. Which transaction a step runs (00_scope, R3; 20_memory, R57, R58): the request at the head of `pending`, on the
state from which it has been taken. -/

namespace Sys2Proof.Machine

/-- What decoding depends on is not what the agents will ask for. -/
@[simp] theorem State.withPending_decodeContext (s : State) (rs : List Request) :
    (s.withPending rs).decodeContext = s.decodeContext := rfl

theorem fetchPort_of_decode {a : Agent} {word more : List Byte} {s : State} {i : Instr}
    (hd : decode s.decodeContext .port word = .ok (i, more)) (ha : portRefusal a i = none) :
    fetchPort a word s = .run i s := by
  simp only [fetchPort, hd, ha]

theorem fetchTurn_of_nextIter {s : State} {i : Instr} (h : nextIter s.consumer = some i) :
    fetchTurn s = .run i s := by
  simp only [fetchTurn, h]

theorem fetch_of_port {s : State} {a : Agent} {word : List Byte} {rest : List Request}
    (h : s.pending = .port a word :: rest) : fetch s = fetchPort a word (s.withPending rest) := by
  simp only [fetch, h]

theorem fetch_of_turn {s : State} {rest : List Request} (h : s.pending = .turn :: rest) :
    fetch s = fetchTurn (s.withPending rest) := by
  simp only [fetch, h]

theorem step_of_fetch_run {s u : State} {i : Instr} (h : fetch s = .run i u) : step s = exec i u := by
  simp only [step, h]

/-- R3: the block has no spontaneous step. -/
theorem step_of_no_request {s : State} (h : s.pending = []) : step s = .next s := by
  simp only [step, fetch, h]

/-- Settles O45: by the kind of the next request; taking it off changes neither the decoder's context nor the consumer. -/
theorem stepRunsTheRequestedTransaction : Obligations.StepRunsTheRequestedTransaction := by
  refine ⟨?port, ?turn, fun _ h => step_of_no_request h⟩
  case port =>
    intro s a word rest i more hpending hd ha
    rw [← State.withPending_decodeContext s rest] at hd
    exact step_of_fetch_run ((fetch_of_port hpending).trans (fetchPort_of_decode hd ha))
  case turn =>
    intro s rest i hpending hi
    rw [← State.withPending_consumer s rest] at hi
    exact step_of_fetch_run ((fetch_of_turn hpending).trans (fetchTurn_of_nextIter hi))

end Sys2Proof.Machine
end

section
/-! PROOFS. The byte order and the codec (30_encoding, R80, R81, R84 to R86, R90): the decoder names an instruction exactly
where its row's condition holds, space by space. -/

namespace Sys2Proof.Machine

/-! ### Byte order (R81) -/

/-- The four bytes stand side by side, the first one on top. -/
theorem be32_eq_append (b1 b2 b3 b4 : Byte) : be32 b1 b2 b3 b4 = ((b1 ++ b2 : BitVec 16) ++ b3 : BitVec 24) ++ b4 := by
  refine BitVec.eq_of_getLsbD_eq fun i hi => ?_
  simp only [be32, BitVec.getLsbD_or, BitVec.getLsbD_shiftLeft, BitVec.getLsbD_setWidth, BitVec.getLsbD_append]
  grind

theorem toNat_append_byte {n : Nat} (x : BitVec n) (b : Byte) : (x ++ b).toNat = x.toNat * 256 + b.toNat := by
  rw [BitVec.toNat_append, ← Nat.shiftLeft_add_eq_or_of_lt b.isLt, Nat.shiftLeft_eq]

theorem be32_toNat (b1 b2 b3 b4 : Byte) :
    (be32 b1 b2 b3 b4).toNat = b1.toNat * 2 ^ 24 + b2.toNat * 2 ^ 16 + b3.toNat * 2 ^ 8 + b4.toNat := by
  simp only [be32_eq_append, toNat_append_byte]
  omega

theorem be32_extractLsb' (v : Word) :
    be32 (v.extractLsb' 24 8) (v.extractLsb' 16 8) (v.extractLsb' 8 8) (v.extractLsb' 0 8) = v := by
  refine BitVec.eq_of_toNat_eq ?_
  simp only [be32_toNat, BitVec.extractLsb'_toNat, Nat.shiftRight_eq_div_pow]
  omega

/-- Settles O7: the bytes side by side, in arithmetic. -/
theorem lengthIsBigEndian : Obligations.LengthIsBigEndian :=
  ⟨be32_toNat, fun v => ⟨_, _, _, _, rfl, be32_extractLsb' v⟩⟩

/-! ### A byte at the parser (R85) -/

/-- A row of R85 is one byte. -/
theorem bytes_of_encode_rxByte {i : Instr} {bytes : List Byte} (he : encode i = some (.rxByte, bytes)) :
    ∃ b, bytes = [b] := by
  cases i <;> cases he <;> exact ⟨_, rfl⟩

theorem classify_of_selectedIn {c : DecodeContext} {b : Byte} {i : Instr} (he : encode i = some (.rxByte, [b]))
    (hs : selectedIn c i = true) : classify c b = .ok i := by
  cases i <;> cases he
  case dataLast =>
    obtain ⟨hst, hlast⟩ : c.st = .data ∧ lastData c.cur c.len = true := by simpa [selectedIn] using hs
    have hmore : moreData c.cur c.len = false := by
      rw [lastData_iff] at hlast
      rw [← Bool.not_eq_true, moreData_iff]
      omega
    simp [classify, hst, hmore, hlast]
  all_goals simp_all [selectedIn, classify, isSentinel]

theorem selectedIn_of_classify {c : DecodeContext} {b : Byte} {i : Instr} (h : classify c b = .ok i) :
    encode i = some (.rxByte, [b]) ∧ selectedIn c i = true := by
  cases hst : c.st <;> simp only [classify, hst] at h
  case data =>
    split at h
    · cases h
      simp_all [encode, selectedIn]
    · split at h <;> cases h
      simp_all [encode, selectedIn]
  case header | length3 | crc => split at h <;> cases h <;> simp_all [encode, selectedIn, isSentinel]
  all_goals
    cases h
    simp [encode, selectedIn, hst]

/-! ### A word at the port (R90) -/

theorem decodePort_of_selectedIn {c : DecodeContext} {i : Instr} {bytes : List Byte}
    (he : encode i = some (.port, bytes)) (hs : selectedIn c i = true) (rest : List Byte) :
    decodePort c (bytes ++ rest) = .ok (i, rest) := by
  cases i <;> cases he
  case get want =>
    have hle : want.toNat ≤ c.cnt.toNat := by simpa [selectedIn] using hs
    simp [beBytes, decodePort, be32_extractLsb', hle]
  case getShort want =>
    have hlt : c.cnt.toNat < want.toNat := by simpa [selectedIn] using hs
    simp [beBytes, decodePort, be32_extractLsb', hlt]
  all_goals rfl

theorem selectedIn_of_decodePort {c : DecodeContext} {word more : List Byte} {i : Instr}
    (h : decode c .port word = .ok (i, more)) : selectedIn c i = true := by
  cases word with
  | nil => cases h
  | cons first operands =>
    simp only [decode, decodePort] at h
    split at h
    case h_3 =>
      split at h <;> cases h
      split <;> simp_all [selectedIn]
    case h_2 | h_5 | h_6 =>
      split at h <;> cases h
      rfl
    all_goals
      cases h
      rfl

/-! ### An opcode at the consumer (R84) -/

theorem bytes_of_encode_command {i : Instr} {bytes : List Byte} (he : encode i = some (.command, bytes)) :
    ∃ op, bytes = [op] := by
  cases i <;> cases he <;> exact ⟨_, rfl⟩

theorem decodeCommand_of_encode {i : Instr} {op : Byte} (hw : i.wellFormed = true)
    (he : encode i = some (.command, [op])) : decodeCommand op = i := by
  cases i <;> cases he
  case unknownCmd => simp_all [Instr.wellFormed, knownOpcodes, decodeCommand]
  all_goals rfl

/-! ### A frame on the wire (R80) -/

/-- The bytes that the CRC covers, field by field. -/
theorem frameBody_eq (command : Byte) (payload : List Byte) :
    ∃ l1 l2 l3 l4, be32 l1 l2 l3 l4 = BitVec.ofNat 32 (payload.length + 2) ∧
      frameBody command payload = Config.sentinel :: l1 :: l2 :: l3 :: l4 :: command :: payload :=
  ⟨_, _, _, _, be32_extractLsb' _, rfl⟩

theorem lengthField_toNat {n : Nat} (h : n + 2 < 2 ^ 32) : (BitVec.ofNat 32 (n + 2)).toNat = n + 2 := by
  rw [BitVec.toNat_ofNat]
  exact Nat.mod_eq_of_lt h

theorem decodeFrame_of_selectedIn {c : DecodeContext} {command : Byte} {payload : List Byte}
    (hw : (Instr.frame command payload).wellFormed = true) (hs : selectedIn c (.frame command payload) = true)
    (rest : List Byte) :
    decodeFrame c (frameBytes command payload ++ rest) = .ok (.frame command payload, rest) := by
  obtain ⟨-, hlong⟩ : _ ∧ payload.length + 2 ≤ 4294967289 := by simpa [Instr.wellFormed] using hw
  obtain ⟨hpos, hmax⟩ : 0 < payload.length ∧ payload.length + 2 < c.maxFrame - 5 := by simpa [selectedIn] using hs
  obtain ⟨l1, l2, l3, l4, hfield, hbody⟩ := frameBody_eq command payload
  have hlen : (be32 l1 l2 l3 l4).toNat = payload.length + 2 := by rw [hfield, lengthField_toNat (by omega)]
  have hrange : lengthInRange c.maxFrame (be32 l1 l2 l3 l4) = true := by
    rw [lengthInRange_iff]
    omega
  simp [frameBytes, hbody, decodeFrame, hlen, hrange, isSentinel]

/-! ### Every space -/

/-- Settles O48: space by space; in each, the condition of the row picks the branch of the decoder. -/
theorem decodeInvertsEncode : Obligations.DecodeInvertsEncode := by
  intro c i space bytes rest hw hs he
  cases space with
  | port => exact decodePort_of_selectedIn he hs rest
  | rxByte =>
    obtain ⟨b, rfl⟩ := bytes_of_encode_rxByte he
    simp [decode, classify_of_selectedIn he hs]
  | frame =>
    cases i <;> cases he
    exact decodeFrame_of_selectedIn hw hs rest
  | command =>
    obtain ⟨op, rfl⟩ := bytes_of_encode_command he
    simp [decode, decodeCommand_of_encode hw he]
  | ack =>
    cases i <;> cases he
    simp [decode]

/-- Settles O47: nine closed words; the kernel evaluates the frame's CRC. -/
theorem writtenOutWordsDecode : Obligations.WrittenOutWordsDecode :=
  ⟨rfl, rfl, rfl, rfl, rfl, rfl, by decide +kernel, rfl, rfl⟩

end Sys2Proof.Machine
end

section
/-! PROOFS. Which row of the opcode table runs (30_encoding, R85, R90; 42_fifo, R161 to R163; 43_consumer_dispatch, R182
to R186): a row runs exactly where its condition holds, and the step names no other. -/

namespace Sys2Proof.Machine

/-! ### Port operations that are the guard alone -/

/-- Settles O1: a running state passes the guard, and behind it `NOP` answers the state itself. -/
theorem nopChangesNothing : Obligations.NopChangesNothing := fun _ hr => whenRunning_of_running hr _

/-- Settles O42: a running state passes the guard, and behind it stands the refusal. -/
theorem reservedCodeIsRefused : Obligations.ReservedCodeIsRefused := fun _ hr => whenRunning_of_running hr _

theorem whenRunning_rowNotSelected {s : State} {k : Outcome} (h : whenRunning s k = .refused .rowNotSelected) :
    k = .refused .rowNotSelected := by
  unfold whenRunning at h
  split at h
  · cases h
  · split at h
    · cases h
    · exact h

/-! ### The rows of R85 -/

/-- The condition of a row of R85 is the one that the decoder goes by. -/
theorem exec_eq_rxEntry {i : Instr} {b : Byte} (he : encode i = some (.rxByte, [b])) (s : State) :
    ∃ row, exec i s = rxEntry b s (selectedIn s.decodeContext i) row := by
  cases i <;> cases he <;> exact ⟨_, rfl⟩

theorem bytesDelivered_of_encode {i : Instr} {bytes : List Byte} (he : encode i = some (.rxByte, bytes)) :
    bytesDelivered i = some bytes := by
  cases i <;> cases he <;> rfl

theorem rxEntry_of_not_selected {s : State} (hr : Running s) (hp : s.parser.pairOk = true) (b : Byte)
    (row : State → State) : rxEntry b s false row = .refused .rowNotSelected := by
  rw [rxEntry, whenRunning_of_running hr]
  simp [hp]

/-- `RX` itself has no condition beside R26's table. -/
theorem rxByte_ne_rowNotSelected (b : Byte) (s : State) : rxByte b s ≠ .refused .rowNotSelected := by
  intro h
  have hk := whenRunning_rowNotSelected h
  simp only [Bool.not_true, Bool.false_eq_true, if_false] at hk
  split at hk
  · cases hk
  · split at hk <;> cases hk

/-- In a state of R26's table no byte is without a row: the cursor is not past the payload's end. -/
theorem exists_classify_of_pairOk {s : State} (hp : s.parser.pairOk = true) (b : Byte) :
    ∃ i, classify s.decodeContext b = .ok i := by
  cases hst : s.parser.st
  case data =>
    obtain ⟨-, hcur⟩ : _ ∧ s.parser.cur.toNat ≤ s.parser.len.toNat + 3 := by simpa [Parser.pairOk, hst] using hp
    obtain hlast | hmore := Nat.eq_or_lt_of_le hcur
    · exact ⟨_, classify_of_selectedIn (i := .dataLast b) rfl
        (by simp [selectedIn, State.decodeContext, hst, lastData_iff, hlast])⟩
    · exact ⟨_, classify_of_selectedIn (i := .dataMore b) rfl
        (by simp [selectedIn, State.decodeContext, hst, moreData_iff]; omega)⟩
  case header | length3 | crc =>
    simp only [classify, State.decodeContext, hst]
    split <;> exact ⟨_, rfl⟩
  all_goals
    simp only [classify, State.decodeContext, hst]
    exact ⟨_, rfl⟩

/-- Settles O8: the row that the decoder names is selected, a selected row is the one `RX` runs, and a row that runs is
the one that the decoder names. -/
theorem rxRunsExactlyOneRow : Obligations.RxRunsExactlyOneRow := by
  intro b s hr hp hc
  obtain ⟨i, hi⟩ := exists_classify_of_pairOk hp b
  obtain ⟨he, hsel⟩ := selectedIn_of_classify hi
  obtain ⟨row, hrow⟩ := exec_eq_rxEntry he s
  have hrun : exec i s = .next (row (s.storeByte b)) := by
    rw [hrow, rxEntry_next_iff]
    exact ⟨hr, hp, hsel, hc, rfl⟩
  have hrx : rxAll [b] s = .next (row (s.storeByte b)) := rxAll_of_exec (bytesDelivered_of_encode he) hrun
  rw [rxAll_singleton] at hrx
  refine ⟨i, _, hi, he, hrx, hrun, fun j u hj hu => ?_⟩
  obtain ⟨row', hrow'⟩ := exec_eq_rxEntry hj s
  rw [hrow', rxEntry_next_iff] at hu
  obtain ⟨-, -, hsel', -⟩ := hu
  have hclass := classify_of_selectedIn hj hsel'
  rw [hi] at hclass
  cases hclass
  rfl

/-! ### The commands (R185) -/

/-- A command's condition has its opcode in `scratch[0]`. -/
theorem exec_eq_commandEntry {i : Instr} {op : Byte} (he : encode i = some (.command, [op])) (s : State) :
    ∃ selected k, exec i s = commandEntry s selected k ∧ (selected = true → s.readScratch 0 = op) := by
  cases i <;> cases he
  case unknownCmd => exact ⟨_, _, rfl, fun h => beq_iff_eq.mp (Bool.and_eq_true_iff.mp h).1⟩
  all_goals exact ⟨_, _, rfl, beq_iff_eq.mp⟩

theorem commandEntry_of_not_selected {s : State} {selected : Bool} (hr : Running s)
    (h : ¬ (s.consumer.point = .dispatch ∧ selected = true)) (k : Outcome) :
    commandEntry s selected k = .refused .rowNotSelected := by
  rw [commandEntry, whenRunning_of_running hr, if_neg h]

theorem blitEntry_ne_refused (decode : Call) (result : Option Surface) (s : State) (r : Refusal) :
    blitEntry decode result s ≠ .refused r := by
  unfold blitEntry
  split <;> simp

/-- Step 4 has a row for every opcode. -/
theorem runCommand_ne_refused (op : Byte) (s : State) (r : Refusal) : runCommand op s ≠ .refused r := by
  simp only [runCommand, apply_ite (· ≠ Host.Outcome.refused r)]
  simp [blitEntry_ne_refused]

/-! ### The consumer's steps (R182 to R186) -/

theorem readBody_ne_refused (s : State) (r : Refusal) : readBody s ≠ .refused r := by
  simp only [readBody]
  split
  · nofun
  · split <;> nofun

/-- Where each step of `ITER` has its place. -/
theorem nextIter_eq_some_iff (c : Consumer) (i : Instr) : nextIter c = some i ↔
    (i = .iterPrefix ∧ c.phase = .wantPrefix ∧ c.point = .read) ∨
    (i = .iterValidate ∧ ∃ h, c.point = .validate h) ∨
    (i = .iterBody ∧ c.phase = .wantBody ∧ c.point = .read) ∨
    (i = .iterDispatch ∧ c.point = .dispatch) ∨ (i = .iterYield ∧ c.point = .yield) := by
  unfold nextIter
  cases c.point <;> cases c.phase <;> simp [eq_comm]

/-- The five steps of `ITER`. -/
def iterSteps : List Instr := [.iterPrefix, .iterValidate, .iterBody, .iterDispatch, .iterYield]

theorem mem_iterSteps_of_nextIter {c : Consumer} {i : Instr} (h : nextIter c = some i) : i ∈ iterSteps := by
  obtain ⟨rfl, -⟩ | ⟨rfl, -⟩ | ⟨rfl, -⟩ | ⟨rfl, -⟩ | ⟨rfl, -⟩ := (nextIter_eq_some_iff c i).mp h <;> simp [iterSteps]

theorem iterEntry_eq_of_nextIter {s : State} {i : Instr} {here : Prop} [Decidable here]
    (h : nextIter s.consumer = some i ↔ here) (k : Outcome) : iterEntry s here k =
      whenRunning s (if nextIter s.consumer = some i then k else .refused .rowNotSelected) := by
  simp only [iterEntry, h]

/-- A step of `ITER` runs where it is the consumer's next one, and what runs there is not refused. -/
theorem exec_iter_eq {i : Instr} (hi : i ∈ iterSteps) (s : State) : ∃ k, (∀ r, k ≠ .refused r) ∧
    exec i s = whenRunning s (if nextIter s.consumer = some i then k else .refused .rowNotSelected) := by
  simp only [iterSteps, List.mem_cons, List.not_mem_nil, or_false] at hi
  obtain rfl | rfl | rfl | rfl | rfl := hi
  · exact ⟨.next (readPrefix s), nofun, iterEntry_eq_of_nextIter (by simp [nextIter_eq_some_iff]) _⟩
  · cases hpoint : s.consumer.point
    case validate h =>
      exact ⟨.next (validatePrefix h s), nofun, by simp [exec, execIterValidate, nextIter_eq_some_iff, hpoint]⟩
    all_goals exact ⟨.next s, nofun, by simp [exec, execIterValidate, nextIter_eq_some_iff, hpoint]⟩
  · exact ⟨readBody s, readBody_ne_refused s, iterEntry_eq_of_nextIter (by simp [nextIter_eq_some_iff]) _⟩
  · exact ⟨runCommand s.opcode s, runCommand_ne_refused _ s,
      iterEntry_eq_of_nextIter (by simp [nextIter_eq_some_iff]) _⟩
  · exact ⟨.next ((s.call [.yield]).goToPoint .read), nofun,
      iterEntry_eq_of_nextIter (by simp [nextIter_eq_some_iff]) _⟩

/-- Settles O21: each family of rows asks for its condition first. -/
theorem rowsRefuseWhereTheirConditionFails : Obligations.RowsRefuseWhereTheirConditionFails := by
  intro s hr
  refine ⟨?rx, ?getShort, ?putOverflow, ?command, ?iter⟩
  case rx =>
    intro i bytes hp he hsel
    obtain ⟨b, rfl⟩ := bytes_of_encode_rxByte he
    obtain ⟨row, hrow⟩ := exec_eq_rxEntry he s
    rw [hrow, hsel, rxEntry_of_not_selected hr hp]
  case getShort =>
    intro want hn
    exact (whenRunning_of_running hr _).trans (if_neg (Nat.not_lt.mpr hn))
  case putOverflow =>
    intro bytes hn
    exact (whenRunning_of_running hr _).trans (if_neg (Nat.not_lt.mpr hn))
  case command =>
    intro i op he hnot
    obtain ⟨selected, k, hk, hop⟩ := exec_eq_commandEntry he s
    rw [hk, commandEntry_of_not_selected hr]
    rintro ⟨hd, hsel⟩
    exact hnot.elim (· hd) (· (hop hsel))
  case iter =>
    intro i hi hn
    obtain ⟨k, -, hk⟩ := exec_iter_eq hi s
    rw [hk, whenRunning_of_running hr, if_neg hn]

/-! ### The step -/

theorem portRefusal_ne_rowNotSelected {a : Agent} {i : Instr} {r : Refusal} (h : portRefusal a i = some r) :
    r ≠ .rowNotSelected := by
  cases i
  case rx | get | getShort | reset => cases a <;> cases h <;> simp
  case hreset =>
    change (if a = .platform then none else some Refusal.wrongAgent) = some r at h
    split at h <;> cases h
    simp
  all_goals cases h

theorem fetch_refuse_ne_rowNotSelected {s : State} {r : Refusal} (h : fetch s = .refuse r) : r ≠ .rowNotSelected := by
  unfold fetch at h
  split at h
  · cases h
  · unfold fetchPort at h
    split at h
    · cases h
      nofun
    · split at h <;> cases h
      exact portRefusal_ne_rowNotSelected ‹_›
  · unfold fetchTurn at h
    split at h <;> cases h
    nofun

/-- What is fetched is a decoded port word, or the consumer's next step. -/
theorem fetch_run_cases {s u : State} {i : Instr} (h : fetch s = .run i u) :
    (∃ word more, decode u.decodeContext .port word = .ok (i, more)) ∨ nextIter u.consumer = some i := by
  unfold fetch at h
  split at h
  · cases h
  · unfold fetchPort at h
    split at h
    · cases h
    · split at h <;> cases h
      exact .inl ⟨_, _, ‹_›⟩
  · unfold fetchTurn at h
    split at h <;> cases h
    exact .inr ‹_›

theorem exec_port_ne_rowNotSelected {s : State} {word more : List Byte} {i : Instr}
    (hd : decode s.decodeContext .port word = .ok (i, more)) : exec i s ≠ .refused .rowNotSelected := by
  intro h
  obtain rfl | ⟨b, rfl⟩ | ⟨want, rfl | rfl⟩ | rfl | ⟨x, b, rfl⟩ | ⟨x, rfl⟩ | rfl | rfl := decodePort_cases hd
  · cases whenRunning_rowNotSelected h
  · exact rxByte_ne_rowNotSelected b s h
  · cases whenRunning_rowNotSelected h
  · have hshort : s.queue.cnt.toNat < want.toNat := of_decide_eq_true (selectedIn_of_decodePort hd)
    have hk := whenRunning_rowNotSelected h
    rw [if_pos hshort] at hk
    cases hk
  · cases whenRunning_rowNotSelected h
  · cases whenRunning_rowNotSelected h
  · cases whenRunning_rowNotSelected h
  · cases whenRunning_rowNotSelected h
  · simp only [exec, execHreset] at h
    split at h <;> cases h

/-- Settles O46: the decoder names a row whose condition holds, and the consumer's next step is at its place. -/
theorem stepNeverPicksAWrongRow : Obligations.StepNeverPicksAWrongRow := by
  intro s h
  obtain ⟨-, e⟩ | ⟨i, u, hf, e⟩ | ⟨r, hf, e⟩ := step_cases s <;> rw [e] at h
  · cases h
  · obtain ⟨word, more, hd⟩ | hi := fetch_run_cases hf
    · exact exec_port_ne_rowNotSelected hd h
    · obtain ⟨k, hk, e'⟩ := exec_iter_eq (mem_iterSteps_of_nextIter hi) u
      rw [e', if_pos hi] at h
      exact hk _ (whenRunning_rowNotSelected h)
  · cases h
    exact fetch_refuse_ne_rowNotSelected hf rfl

end Sys2Proof.Machine
end

section
/-! PROOFS. A whole frame, byte by byte (30_encoding, R80, R91; 41_parser, R130 to R141; 42_fifo, R160, R161): the
parser collects it in `BUF`, and puts it into the queue when its CRC byte arrives. -/

namespace Sys2Proof.Machine

/-! ### What `PUT` leaves of the queue (R160, R161) -/

/-- R161, the block dropped with what was queued. -/
theorem emptyQueue_putEffect {s : State} {bytes : List Byte} (hlong : s.freeSpace < bytes.length)
    (hdropped : s.params.overflowKeepsNew = false ∨ s.params.fifoCapacity < bytes.length) :
    PutEffect s s.emptyQueue bytes := by
  refine ⟨fun h => absurd h (Nat.not_le.mpr hlong), fun _ _ => ⟨State.emptyQueue_fifo s, rfl, rfl, rfl⟩, ?_⟩
  intro _ hkeeps hfits
  obtain h | h := hdropped
  · exact absurd (hkeeps.symm.trans h) (by decide)
  · exact absurd hfits (Nat.not_le.mpr h)

/-- R161 under `OVERFLOW_KEEPS_NEW`: the block alone. -/
theorem emptyQueue_append_putEffect {s : State} {bytes : List Byte} (hp : paramsWellFormed s.params = true)
    (hlong : s.freeSpace < bytes.length) (hkeeps : s.params.overflowKeepsNew = true)
    (hfits : bytes.length ≤ s.params.fifoCapacity) : PutEffect s (s.emptyQueue.append bytes) bytes := by
  have hok : QueueOk s.emptyQueue := ⟨(wellFormed_capacity hp).1, Nat.zero_le _⟩
  have hfifo := State.append_fifo (s := s.emptyQueue) hp hok hfits
  have hcnt := State.append_cnt (s := s.emptyQueue) hp hok hfits
  refine ⟨fun h => absurd h (Nat.not_le.mpr hlong), ?_, fun _ _ _ => ⟨?_, rfl, ?_, fun a ha => ?_⟩⟩
  · rintro - (h | h)
    · exact absurd (hkeeps.symm.trans h) (by decide)
    · exact absurd hfits (Nat.not_le.mpr h)
  · simpa using hfifo
  · simpa using hcnt
  · exact Memory.read_writeRing_other bytes _ _ _ a (by simpa using ha)

theorem putBlock_putEffect {s : State} (hp : paramsWellFormed s.params = true) (hq : QueueOk s) (bytes : List Byte) :
    PutEffect s (putBlock bytes s).2 bytes := by
  obtain ⟨hfits, e⟩ | ⟨hlong, e⟩ := putBlock_cases bytes s
  · rw [e]
    exact ⟨fun _ => ⟨State.append_fifo hp hq hfits, rfl, State.append_cnt hp hq hfits,
        fun a ha => Memory.read_writeRing_other bytes _ _ _ a ha⟩,
      fun h => absurd h (Nat.not_lt.mpr hfits), fun h => absurd h (Nat.not_lt.mpr hfits)⟩
  · obtain ⟨hkeeps, hfits, e'⟩ | ⟨hdropped, e'⟩ := putOverflowing_cases bytes s <;> rw [e, e']
    · exact emptyQueue_append_putEffect hp hlong hkeeps hfits
    · exact emptyQueue_putEffect hlong hdropped

/-! ### A block in `BUF` -/

theorem Memory.writeBlock_append (m : Memory) (start : Nat) (x y : List Byte) :
    m.writeBlock start (x ++ y) = (m.writeBlock start x).writeBlock (start + x.length) y := by
  induction x generalizing m start with
  | nil => rfl
  | cons v rest ih =>
    simp only [List.cons_append, Memory.writeBlock, ih, List.length_cons, Nat.add_assoc, Nat.add_comm 1]

theorem State.bufRange_of_writeBlock {t : State} {m : Memory} {bytes : List Byte}
    (h : t.parser.buf = m.writeBlock 0 bytes) : t.bufRange bytes.length = bytes := by
  refine List.ext_getElem (by simp [State.bufRange]) fun i _ hi => ?_
  simp [State.bufRange, State.readBuf, h, Memory.read_writeBlock, hi]

/-! ### The frame in progress -/

/-- The parser has received `bytes` of a frame, and its cursor is at `cur`; all else is as in `s`. -/
def State.receiving (s : State) (st : ParserState) (cur : Nat) (len : Word) (bytes : List Byte) : State :=
  s.withParser ⟨st, BitVec.ofNat 32 cur, len, s.parser.buf.writeBlock 0 bytes⟩

theorem receiving_header {s : State} (hst : s.parser.st = .header) (hcur : s.parser.cur = 0) :
    s.receiving .header 0 s.parser.len [] = s := by
  have hparser : s.parser = ⟨.header, 0, s.parser.len, s.parser.buf⟩ := by rw [← hst, ← hcur]
  calc s.receiving .header 0 s.parser.len []
    _ = s.withParser s.parser := by rw [hparser]; rfl
    _ = s := rfl

section Receiving
variable {s : State} {st : ParserState} {cur : Nat} {len : Word} {bytes : List Byte}

theorem receiving_cur (hr : Running s) (hfit : cur < s.params.maxFrame) :
    (s.receiving st cur len bytes).parser.cur.toNat = cur := by
  have hm := wellFormed_maxFrame hr.1
  exact (BitVec.toNat_ofNat _ _).trans (Nat.mod_eq_of_lt (by omega))

theorem storeByte_receiving (hr : Running s) (hfit : cur < s.params.maxFrame) (hlen : bytes.length = cur) (b : Byte) :
    (s.receiving st cur len bytes).storeByte b = s.receiving st cur len (bytes ++ [b]) := by
  have hcur : (BitVec.ofNat 32 cur).toNat = cur := receiving_cur (st := st) (len := len) (bytes := bytes) hr hfit
  simp only [State.storeByte, hcur, State.receiving, State.withParser_parser, State.withParser_withParser,
    Memory.writeBlock_append, hlen, Nat.zero_add]
  rfl

/-- One byte of the frame: the run goes on from what its row leaves. -/
theorem rxAll_receiving {b : Byte} {rest : List Byte} {t : State} (hr : Running s) (hfit : cur < s.params.maxFrame)
    (hlen : bytes.length = cur) (hp : (s.receiving st cur len bytes).parser.pairOk = true)
    (ht : rxRow b (s.receiving st cur len (bytes ++ [b])) = t) :
    rxAll (b :: rest) (s.receiving st cur len bytes) = rxAll rest t := by
  have hc := receiving_cur (st := st) (len := len) (bytes := bytes) hr hfit
  have h : rxByte b (s.receiving st cur len bytes) = .next t :=
    rxByte_next_iff.mpr ⟨hr, hp, hc.trans_lt hfit, by rw [storeByte_receiving hr hfit hlen, ht]⟩
  simp only [rxAll, h]

end Receiving

/-- The sentinel, an acceptable length and the command (R131, R133 to R136, R138). -/
theorem rxAll_frameHead {s : State} {l1 l2 l3 l4 : Byte} (hr : Running s) (hst : s.parser.st = .header)
    (hcur : s.parser.cur = 0) (hlen : lengthInRange s.params.maxFrame (be32 l1 l2 l3 l4) = true) (command : Byte)
    (rest : List Byte) :
    rxAll (Config.sentinel :: l1 :: l2 :: l3 :: l4 :: command :: rest) s =
      rxAll rest (s.receiving .data 6 (be32 l1 l2 l3 l4) [Config.sentinel, l1, l2, l3, l4, command]) := by
  have hm : 8 < s.params.maxFrame := by
    rw [lengthInRange_iff] at hlen
    omega
  calc rxAll (Config.sentinel :: l1 :: l2 :: l3 :: l4 :: command :: rest) s
    _ = rxAll (Config.sentinel :: l1 :: l2 :: l3 :: l4 :: command :: rest)
          (s.receiving .header 0 s.parser.len []) := by rw [receiving_header hst hcur]
    _ = rxAll (l1 :: l2 :: l3 :: l4 :: command :: rest)
          (s.receiving .length0 1 s.parser.len [Config.sentinel]) :=
        rxAll_receiving hr (by omega) rfl rfl rfl
    _ = rxAll (l2 :: l3 :: l4 :: command :: rest)
          (s.receiving .length1 2 (l1.setWidth 32 <<< 24) [Config.sentinel, l1]) :=
        rxAll_receiving hr (by omega) rfl rfl rfl
    _ = rxAll (l3 :: l4 :: command :: rest)
          (s.receiving .length2 3 (l1.setWidth 32 <<< 24 ||| l2.setWidth 32 <<< 16) [Config.sentinel, l1, l2]) :=
        rxAll_receiving hr (by omega) rfl rfl rfl
    _ = rxAll (l4 :: command :: rest)
          (s.receiving .length3 4 (l1.setWidth 32 <<< 24 ||| l2.setWidth 32 <<< 16 ||| l3.setWidth 32 <<< 8)
            [Config.sentinel, l1, l2, l3]) :=
        rxAll_receiving hr (by omega) rfl rfl rfl
    _ = rxAll (command :: rest)
          (s.receiving .command 5 (be32 l1 l2 l3 l4) [Config.sentinel, l1, l2, l3, l4]) :=
        rxAll_receiving hr (by omega) rfl rfl (if_pos hlen)
    _ = rxAll rest (s.receiving .data 6 (be32 l1 l2 l3 l4) [Config.sentinel, l1, l2, l3, l4, command]) :=
        rxAll_receiving hr (by omega) rfl rfl rfl

/-- The payload (R139, R140), behind the bytes received before it. -/
theorem rxAll_payload {s : State} {len : Word} (hr : Running s) (hm : len.toNat + 4 ≤ s.params.maxFrame)
    {payload : List Byte} (hne : payload ≠ []) (rest got : List Byte) (hgot : 6 ≤ got.length)
    (hend : got.length + payload.length = len.toNat + 4) :
    rxAll (payload ++ rest) (s.receiving .data got.length len got) =
      rxAll rest (s.receiving .crc (len.toNat + 4) len (got ++ payload)) := by
  induction payload generalizing got with
  | nil => exact absurd rfl hne
  | cons b more ih =>
    rw [List.length_cons] at hend
    have hfit : got.length < s.params.maxFrame := by omega
    have hcur : (BitVec.ofNat 32 got.length).toNat = got.length :=
      receiving_cur (st := .data) (len := len) (bytes := got) hr hfit
    have hpair : (s.receiving .data got.length len got).parser.pairOk = true := by
      simp only [State.receiving, State.withParser_parser, Parser.pairOk, hcur, Bool.and_eq_true, decide_eq_true_eq]
      omega
    cases more with
    | nil =>
      have hlast : lastData (BitVec.ofNat 32 got.length) len = true := by rwa [lastData_iff, hcur]
      refine rxAll_receiving hr hfit rfl hpair ?_
      simp [rxRow, State.receiving, hlast, rowDataLast_eq, ← hend, BitVec.ofNat_add]
    | cons b' more' =>
      have hmore : lastData (BitVec.ofNat 32 got.length) len = false := by
        rw [List.length_cons] at hend
        rw [← Bool.not_eq_true, lastData_iff, hcur]
        omega
      have hnext : rxRow b (s.receiving .data got.length len (got ++ [b])) =
          s.receiving .data (got ++ [b]).length len (got ++ [b]) := by
        simp [rxRow, State.receiving, hmore, rowDataMore_eq, BitVec.ofNat_add]
      calc rxAll (b :: (b' :: more' ++ rest)) (s.receiving .data got.length len got)
        _ = rxAll (b' :: more' ++ rest) (s.receiving .data (got ++ [b]).length len (got ++ [b])) :=
            rxAll_receiving hr hfit rfl hpair hnext
        _ = rxAll rest (s.receiving .crc (len.toNat + 4) len (got ++ [b] ++ b' :: more')) :=
            ih nofun _ (by simp; omega) (by simp at hend ⊢; omega)
        _ = rxAll rest (s.receiving .crc (len.toNat + 4) len (got ++ b :: b' :: more')) := by
            rw [List.append_assoc, List.singleton_append]

/-- The bytes that the CRC covers (R80), for any command and payload of an acceptable length. -/
theorem rxAll_frameBody {s : State} {command : Byte} {payload : List Byte} (hr : Running s)
    (hst : s.parser.st = .header) (hcur : s.parser.cur = 0) (hpos : 1 ≤ payload.length)
    (hmax : payload.length + 2 < s.params.maxFrame - 5) (rest : List Byte) :
    rxAll (frameBody command payload ++ rest) s = rxAll rest (s.receiving .crc (payload.length + 6)
      (BitVec.ofNat 32 (payload.length + 2)) (frameBody command payload)) := by
  obtain ⟨l1, l2, l3, l4, hfield, hbody⟩ := frameBody_eq command payload
  have hm := wellFormed_maxFrame hr.1
  have hlen : (be32 l1 l2 l3 l4).toNat = payload.length + 2 := by rw [hfield, lengthField_toNat (by omega)]
  have hrange : lengthInRange s.params.maxFrame (be32 l1 l2 l3 l4) = true := by
    rw [lengthInRange_iff]
    omega
  have hpayload := rxAll_payload hr (len := be32 l1 l2 l3 l4) (by omega) (List.ne_nil_of_length_pos hpos) rest
    [Config.sentinel, l1, l2, l3, l4, command] (le_refl 6) (by rw [hlen]; simp; omega)
  rw [hlen] at hpayload
  rw [hbody, ← hfield]
  exact (rxAll_frameHead hr hst hcur hrange command (payload ++ rest)).trans hpayload

theorem frameBody_length (command : Byte) (payload : List Byte) :
    (frameBody command payload).length = payload.length + 6 := by
  simp [frameBody, beBytes]

theorem frameBytes_length (command : Byte) (payload : List Byte) :
    (frameBytes command payload).length = payload.length + 7 := by
  simp [frameBytes, frameBody_length]

/-- The CRC byte of the bytes received: R141's row, on the buffer with the whole frame. -/
theorem rxAll_crcOk {s : State} {len : Word} {body : List Byte} (hr : Running s) (hlen : body.length = len.toNat + 4)
    (hfit : body.length < s.params.maxFrame) :
    rxAll [crc8 Config.crcSeedFrame body] (s.receiving .crc body.length len body) =
      .next (rowCrcOk (s.receiving .crc body.length len (body ++ [crc8 Config.crcSeedFrame body]))) := by
  have hcur := receiving_cur (st := .crc) (len := len) (bytes := body) hr hfit
  have hpair : (s.receiving .crc body.length len body).parser.pairOk = true := by
    simpa [Parser.pairOk, State.receiving, hlen] using hcur
  have hcrc : (s.receiving .crc body.length len body).frameCrc = crc8 Config.crcSeedFrame body :=
    congrArg _ (hlen ▸ State.bufRange_of_writeBlock (m := s.parser.buf) rfl)
  refine rxAll_receiving hr hfit rfl hpair ?_
  have hstored := storeByte_frameCrc_of_crc (crc8 Config.crcSeedFrame body) rfl hpair
  rw [storeByte_receiving hr hfit rfl, hcrc] at hstored
  exact if_pos hstored.symm

/-- The state after a whole acceptable frame (R141): the frame in `BUF` and put into the queue, the parser reset. -/
def State.afterFrame (s : State) (len : Word) (frame : List Byte) : State :=
  ((putBlock frame s).2.emit (.frameAccepted len)).withParser ⟨.header, 0, len, s.parser.buf.writeBlock 0 frame⟩

/-- `PUT` neither reads nor writes the parser (R160). -/
theorem putBlock_withParser (bytes : List Byte) (s : State) (p : Parser) :
    (putBlock bytes (s.withParser p)).2 = (putBlock bytes s).2.withParser p := by
  simp only [putBlock, putOverflowing, apply_ite Prod.snd, apply_ite (State.withParser · p)]
  rfl

theorem rowCrcOk_receiving {s : State} {cur : Nat} {len : Word} {frame : List Byte}
    (hlen : frame.length = len.toNat + 5) : rowCrcOk (s.receiving .crc cur len frame) = s.afterFrame len frame := by
  have hrange : (s.receiving .crc cur len frame).bufRange (len.toNat + 5) = frame :=
    hlen ▸ State.bufRange_of_writeBlock (m := s.parser.buf) rfl
  rw [State.receiving] at hrange ⊢
  rw [rowCrcOk_eq, State.withParser_parser, hrange, putBlock_withParser]
  rfl

/-- A whole acceptable frame, delivered to a parser in `Header` (R131 to R141). -/
theorem rxAll_frameBytes {s : State} {command : Byte} {payload : List Byte} (hr : Running s)
    (hst : s.parser.st = .header) (hcur : s.parser.cur = 0) (hpos : 1 ≤ payload.length)
    (hmax : payload.length + 2 < s.params.maxFrame - 5) :
    rxAll (frameBytes command payload) s =
      .next (s.afterFrame (BitVec.ofNat 32 (payload.length + 2)) (frameBytes command payload)) := by
  have hm := wellFormed_maxFrame hr.1
  have hlen := lengthField_toNat (n := payload.length) (by omega)
  have hbody := frameBody_length command payload
  have hcrc := rxAll_crcOk (body := frameBody command payload) hr (by rw [hlen, hbody]) (by omega)
  have hrow := rowCrcOk_receiving (s := s) (cur := payload.length + 6) (frame := frameBytes command payload)
    (by rw [hlen, frameBytes_length])
  rw [hbody] at hcrc
  rw [frameBytes, rxAll_frameBody hr hst hcur hpos hmax, hcrc]
  exact congrArg Host.Outcome.next hrow

/-- Settles O54: the parser collects the frame, and R141's row puts it. -/
theorem wholeFrameIsEnqueuedOnce : Obligations.WholeFrameIsEnqueuedOnce := by
  intro command payload s hr hq hst hcur hpos hmax
  have hlen := frameBytes_length command payload
  have hread := Memory.read_writeBlock (frameBytes command payload) s.parser.buf 0
  obtain ⟨-, hconsumer, hret, hout⟩ := putBlock_frame (frameBytes command payload) s
  refine ⟨_, (whenRunning_of_running hr _).trans (rxAll_frameBytes hr hst hcur hpos hmax), ⟨rfl, rfl, rfl⟩,
    putBlock_putEffect hr.1 hq _, ?trace, fun i hi => ?_, fun i hi => ?_, hconsumer, hret, hout⟩
  case trace => exact congrArg (· ++ _) (putBlock_trace (frameBytes command payload) s)
  · exact (hread i).trans (if_pos (by omega))
  · exact (hread i).trans (if_neg (by omega))

end Sys2Proof.Machine
end

section
/-! PROOFS. The CRC-8 family (40_crc8, R111 to R115): one iteration of the generator is linear and loses no bit, so the
table is linear and a permutation, and the fold over it keeps apart what differs in one byte. -/

namespace Sys2Proof.Machine

/-! ### One iteration of the generator (R111) -/

theorem crcShift_xor (a b : Byte) : crcShift (a ^^^ b) = crcShift a ^^^ crcShift b := by
  unfold crcShift
  rw [BitVec.getLsbD_xor, BitVec.ushiftRight_xor_distrib]
  cases a.getLsbD 0 <;> cases b.getLsbD 0
  · rfl
  · exact BitVec.xor_assoc _ _ _
  · simp only [Bool.xor_false, Bool.false_eq_true, if_true, if_false]
    ac_rfl
  · have hcancel : Config.crcGen ^^^ Config.crcGen = 0#8 := BitVec.xor_self
    simp only [Bool.xor_true, Bool.not_true, Bool.false_eq_true, if_true, if_false]
    calc a >>> 1 ^^^ b >>> 1
      _ = a >>> 1 ^^^ b >>> 1 ^^^ (Config.crcGen ^^^ Config.crcGen) := by rw [hcancel, BitVec.xor_zero]
      _ = (a >>> 1 ^^^ Config.crcGen) ^^^ (b >>> 1 ^^^ Config.crcGen) := by ac_rfl

/-- The constant has bit 7 set, where a shift to the right leaves a zero: the top bit says which bit fell out. -/
theorem crcShift_getLsbD_top (c : Byte) : (crcShift c).getLsbD 7 = c.getLsbD 0 := by
  have hgen : Config.crcGen.getLsbD 7 = true := rfl
  unfold crcShift
  split <;> simp_all

theorem eq_zero_of_crcShift_eq_zero {c : Byte} (h : crcShift c = 0) : c = 0 := by
  have hlow : c.getLsbD 0 = false := by
    rw [← crcShift_getLsbD_top, h]
    rfl
  have hrest : c >>> 1 = 0 := by rwa [crcShift, hlow] at h
  refine BitVec.eq_of_getLsbD_eq fun i hi => ?_
  cases i with
  | zero => exact hlow
  | succ i => simpa [Nat.add_comm] using congrArg (BitVec.getLsbD · i) hrest

theorem crcShift_injective : Function.Injective crcShift := by
  intro a b h
  have hzero : crcShift (a ^^^ b) = 0 := (crcShift_xor a b).trans (BitVec.xor_eq_zero_iff.mpr h)
  exact BitVec.xor_eq_zero_iff.mp (eq_zero_of_crcShift_eq_zero hzero)

/-! ### The table (R112, R115) -/

theorem crcShifts_xor (n : Nat) (a b : Byte) : crcShifts n (a ^^^ b) = crcShifts n a ^^^ crcShifts n b := by
  induction n generalizing a b with
  | zero => rfl
  | succ n ih => rw [crcShifts, crcShift_xor, ih, crcShifts, crcShifts]

theorem crcShifts_injective (n : Nat) : Function.Injective (crcShifts n) := by
  induction n with
  | zero => exact Function.injective_id
  | succ n ih => exact ih.comp crcShift_injective

theorem crcTab_xor (a b : Byte) : crcTab (a ^^^ b) = crcTab a ^^^ crcTab b := crcShifts_xor 8 a b

theorem crcTab_injective : Function.Injective crcTab := crcShifts_injective 8

/-- The generator's 256 entries against the listing of R112: a closed fact, which the kernel evaluates. -/
theorem crcTab_eq_listed : ∀ i : Byte, crcTab i = listed i := by decide +kernel

/-! ### The engine (R113 to R115) -/

theorem crcStep_self (c : Byte) : crcStep c c = 0 := by
  rw [crcStep, BitVec.xor_self]
  rfl

theorem crcStep_injective_byte (c : Byte) : Function.Injective (crcStep c) := fun _ _ h =>
  BitVec.xor_right_inj c |>.mp (crcTab_injective h)

theorem crcStep_injective_running (b : Byte) : Function.Injective (crcStep · b) := fun _ _ h =>
  BitVec.xor_left_inj b |>.mp (crcTab_injective h)

theorem crc8_cons (seed b : Byte) (x : List Byte) : crc8 seed (b :: x) = crc8 (crcStep seed b) x := rfl

theorem crc8_concat (seed b : Byte) (x : List Byte) : crc8 seed (x ++ [b]) = crcStep (crc8 seed x) b :=
  crc8_append seed x [b]

theorem crc8_injective_seed (x : List Byte) : Function.Injective (crc8 · x) := by
  induction x with
  | nil => exact Function.injective_id
  | cons b x ih => exact ih.comp (crcStep_injective_running b)

/-- Settles O5: linearity and injectivity hold of one iteration, so of eight; the last step is at the index zero. -/
theorem crcTableIsLinearAndInvertible : Obligations.CrcTableIsLinearAndInvertible :=
  ⟨crcTab_xor, crcTab_injective, fun seed x => by rw [crc8_concat, crcStep_self]⟩

/-- Settles O6: the step at the altered byte keeps `u` and `v` apart, and so does the rest of the fold. -/
theorem crcDetectsOneAlteredByte : Obligations.CrcDetectsOneAlteredByte := by
  intro seed u v x y huv h
  rw [crc8_append, crc8_append, crc8_cons, crc8_cons] at h
  exact huv (crcStep_injective_byte _ (crc8_injective_seed y h))

/-! ### The transactions -/

/-- Settles O2: behind the guard the generator's entry is handed back, which is the listed one. -/
theorem tabgenReturnsTheListedEntry : Obligations.TabgenReturnsTheListedEntry := by
  intro i s hr
  rw [← crcTab_eq_listed]
  exact whenRunning_of_running hr _

/-- Settles O3: behind the guard the table's entry at `c ^^^ b` is handed back, which is the listed one. -/
theorem crcStepIndexesTheTableByXor : Obligations.CrcStepIndexesTheTableByXor := by
  intro c b s hr
  rw [← crcTab_eq_listed]
  exact whenRunning_of_running hr _

/-- Settles O4: behind the guard `crc8 seed x` is handed back, and the three clauses are laws of the fold. -/
theorem crcSumFoldsTheBytesInOrder : Obligations.CrcSumFoldsTheBytesInOrder := by
  intro seed x s hr
  refine ⟨crc8 seed x, whenRunning_of_running hr _, ?empty, ?last, ?split⟩
  case empty =>
    rintro rfl
    rfl
  case last =>
    rintro y b rfl
    exact crc8_concat seed b y
  case split =>
    rintro y z rfl
    exact crc8_append seed y z

end Sys2Proof.Machine
end

section
/-! PROOFS. The parser's transitions, row by row (41_parser, R131 to R142): behind the guard of R130 the byte is stored at
the cursor, and the row moves the sequencing state. -/

namespace Sys2Proof.Machine

/-! ### The guard of R130, and the store -/

theorem rxEntry_of_selected {b : Byte} {s : State} {selected : Bool} (hr : Running s) (hp : s.parser.pairOk = true)
    (hc : s.parser.cur.toNat < s.params.maxFrame) (hsel : selected = true) (row : State → State) :
    rxEntry b s selected row = .next (row (s.storeByte b)) :=
  rxEntry_next_iff.mpr ⟨hr, hp, hsel, hc, rfl⟩

/-- A row does not write `BUF`, so what it leaves there is the store's. -/
theorem storesInBuf_of_buf_eq {s t : State} {a : Nat} {b : Byte} (ha : s.parser.cur.toNat = a)
    (hbuf : t.parser.buf = (s.storeByte b).parser.buf) : StoresInBuf s t a b := by
  subst ha
  unfold StoresInBuf
  rw [hbuf]
  exact ⟨Memory.read_write_same _ _ _, fun x hx => Memory.read_write_other _ _ x _ hx⟩

/-- A row of R85 that only moves on to the next field. -/
theorem rxEntry_moves_on {b : Byte} {s : State} {selected : Bool} {row : State → State} {st : ParserState}
    {a cur : Nat} {w len : Word} (hr : Running s) (hp : s.parser.pairOk = true) (ha : s.parser.cur.toNat = a)
    (hc : a < s.params.maxFrame) (hsel : selected = true)
    (hrow : row (s.storeByte b) =
      (s.storeByte b).withParser { (s.storeByte b).parser with st := st, cur := w, len := len })
    (hw : w.toNat = cur) :
    ∃ t, rxEntry b s selected row = .next t ∧ ParserAt t st cur len ∧ StoresInBuf s t a b ∧ t.trace = s.trace ∧
      ParserOnly s t := by
  refine ⟨_, rxEntry_of_selected hr hp (ha ▸ hc) hsel row, ?_⟩
  rw [hrow]
  exact ⟨⟨rfl, hw, rfl⟩, storesInBuf_of_buf_eq ha rfl, rfl, rfl, rfl, rfl, rfl, rfl, rfl, rfl, rfl⟩

/-- A row of R85 that drops what was received: R223's local reset and one label. -/
theorem rxEntry_drops {b : Byte} {s : State} {selected : Bool} {row : State → State} {a : Nat} {len : Word} {e : Event}
    (hr : Running s) (hp : s.parser.pairOk = true) (ha : s.parser.cur.toNat = a) (hc : a < s.params.maxFrame)
    (hsel : selected = true)
    (hrow : row (s.storeByte b) =
      ((s.storeByte b).withParser { (s.storeByte b).parser with st := .header, cur := 0, len := len }).emit e) :
    ∃ t, rxEntry b s selected row = .next t ∧ ParserAt t .header 0 len ∧ StoresInBuf s t a b ∧
      t.trace = s.trace ++ [e] ∧ ParserOnly s t := by
  refine ⟨_, rxEntry_of_selected hr hp (ha ▸ hc) hsel row, ?_⟩
  rw [hrow]
  exact ⟨⟨rfl, rfl, rfl⟩, storesInBuf_of_buf_eq ha rfl, rfl, rfl, rfl, rfl, rfl, rfl, rfl, rfl, rfl⟩

/-! ### The sentinel (R131, R132) -/

/-- Settles O9: `HDR.SOF` is R131's move after the store at index 0. -/
theorem hdrSofOpensAFrame : Obligations.HdrSofOpensAFrame := by
  intro s hr hst hcur
  have hm := wellFormed_maxFrame hr.1
  exact rxEntry_moves_on hr (by simp [Parser.pairOk, hst, hcur]) (by rw [hcur]; rfl) (by omega) (by simp [hst])
    (rowHdrSof_eq _) rfl

/-- Settles O10: `HDR.NOISE` is R132's local reset after the store at index 0. -/
theorem hdrNoiseIsDiscarded : Obligations.HdrNoiseIsDiscarded := by
  intro b s hr hst hcur hb
  have hm := wellFormed_maxFrame hr.1
  have hnoise : isSentinel b = false := beq_false_of_ne hb
  exact rxEntry_drops hr (by simp [Parser.pairOk, hst, hcur]) (by rw [hcur]; rfl) (by omega) (by simp [hst, hnoise])
    (rowHdrNoise_eq b _)

/-! ### The length (R133 to R137) -/

/-- Settles O11: `LEN0` is R133's move after the store at index 1. -/
theorem len0OverwritesTheLength : Obligations.Len0OverwritesTheLength := by
  intro b s hr hst hcur
  have hm := wellFormed_maxFrame hr.1
  exact rxEntry_moves_on hr (by simp [Parser.pairOk, hst, hcur]) (by rw [hcur]; rfl) (by omega) (by simp [hst])
    (rowLen0_eq b _) rfl

/-- Settles O12: `LEN1` and `LEN2` are the moves of R134 and R135 after the stores at indices 2 and 3. -/
theorem len1AndLen2AssembleTheLength : Obligations.Len1AndLen2AssembleTheLength := by
  refine ⟨fun b s hr hst hcur => ?len1, fun b s hr hst hcur => ?len2⟩ <;> have hm := wellFormed_maxFrame hr.1
  case len1 =>
    exact rxEntry_moves_on hr (by simp [Parser.pairOk, hst, hcur]) (by rw [hcur]; rfl) (by omega) (by simp [hst])
      (rowLen1_eq b _) rfl
  case len2 =>
    exact rxEntry_moves_on hr (by simp [Parser.pairOk, hst, hcur]) (by rw [hcur]; rfl) (by omega) (by simp [hst])
      (rowLen2_eq b _) rfl

/-- Settles O13: `LEN3.OK` is selected by R82's bounds, and is R136's move after the store at index 4. -/
theorem len3InRangeIsAccepted : Obligations.Len3InRangeIsAccepted := by
  intro b s hr hst hcur hlow hhigh
  have hm := wellFormed_maxFrame hr.1
  have hrange : lengthInRange s.params.maxFrame (lengthWith s.parser.len b) = true :=
    (lengthInRange_iff _ _).mpr ⟨hlow, hhigh⟩
  exact rxEntry_moves_on hr (by simp [Parser.pairOk, hst, hcur]) (by rw [hcur]; rfl) (by omega)
    (by simp [hst, hrange]) (rowLen3Ok_eq b _) rfl

/-- Settles O14: `LEN3.BAD` is selected outside R82's bounds, and is R137's local reset after the store at index 4. -/
theorem len3OutOfRangeIsRejected : Obligations.Len3OutOfRangeIsRejected := by
  intro b s hr hst hcur hout
  have hm := wellFormed_maxFrame hr.1
  have hrange : lengthInRange s.params.maxFrame (lengthWith s.parser.len b) = false := by
    rw [← Bool.not_eq_true, lengthInRange_iff, lengthWith]
    omega
  exact rxEntry_drops hr (by simp [Parser.pairOk, hst, hcur]) (by rw [hcur]; rfl) (by omega)
    (by simp [hst, hrange]) (rowLen3Bad_eq b _)

/-! ### The command and the payload (R138 to R140) -/

/-- Settles O15: `CMD` is R138's move after the store at index 5. -/
theorem cmdStoresTheOpcode : Obligations.CmdStoresTheOpcode := by
  intro b s hr hst hcur
  have hm := wellFormed_maxFrame hr.1
  exact rxEntry_moves_on hr (by simp [Parser.pairOk, hst, hcur]) (by rw [hcur]; rfl) (by omega) (by simp [hst])
    (rowCmd_eq _) rfl

theorem pairOk_data_iff {p : Parser} (hst : p.st = .data) :
    p.pairOk = true ↔ 6 ≤ p.cur.toNat ∧ p.cur.toNat ≤ p.len.toNat + 3 := by
  simp [Parser.pairOk, hst]

/-- Settles O16: `DATA.MORE` is R139's move, and the cursor inside `BUF` does not wrap. -/
theorem dataMoreStaysInData : Obligations.DataMoreStaysInData := by
  intro b s hr hst hlow hmore hc
  have hsel : (s.parser.st == .data && moreData s.parser.cur s.parser.len) = true := by
    rw [hst, (moreData_iff _ _).mpr hmore]
    rfl
  exact rxEntry_moves_on hr ((pairOk_data_iff hst).mpr ⟨hlow, by omega⟩) rfl hc hsel (rowDataMore_eq _)
    (cur_add_one_toNat hc (wellFormed_maxFrame hr.1).2)

/-- Settles O17: `DATA.LAST` is R140's move; a cursor beyond the last payload byte is no pair of R26's table. -/
theorem dataLastGoesToCrc : Obligations.DataLastGoesToCrc := by
  intro b s hr hst
  refine ⟨fun hlow hlast hc => ?last, fun hbeyond => ?beyond⟩
  case last =>
    have hsel : (s.parser.st == .data && lastData s.parser.cur s.parser.len) = true := by
      rw [hst, (lastData_iff _ _).mpr hlast]
      rfl
    exact rxEntry_moves_on hr ((pairOk_data_iff hst).mpr ⟨hlow, by omega⟩) rfl hc hsel (rowDataLast_eq _)
      ((cur_add_one_toNat hc (wellFormed_maxFrame hr.1).2).trans hlast)
  case beyond =>
    refine rxEntry_of_not_pairOk hr ?_ b _ _
    rw [← Bool.not_eq_true, pairOk_data_iff hst]
    omega

/-! ### The CRC byte (R141, R142) -/

theorem pairOk_crc_iff {p : Parser} (hst : p.st = .crc) : p.pairOk = true ↔ p.cur.toNat = p.len.toNat + 4 := by
  simp [Parser.pairOk, hst]

/-- Settles O19: `CRC.BAD` is R142's local reset after the store at index `len + 4`. -/
theorem crcBadDropsTheFrame : Obligations.CrcBadDropsTheFrame := by
  intro b s hr hst hcur hc hb
  have hb' : b ≠ s.frameCrc := hb
  exact rxEntry_drops hr ((pairOk_crc_iff hst).mpr hcur) hcur (hcur ▸ hc) (by simpa [hst] using hb') (rowCrcBad_eq b _)

/-- R141 after the store: what is put is the bytes that the CRC covers and the CRC byte itself. -/
theorem rowCrcOk_storeByte {s : State} (b : Byte) (hcur : s.parser.cur.toNat = s.parser.len.toNat + 4) :
    rowCrcOk (s.storeByte b) =
      ((putBlock (s.bufRange (s.parser.len.toNat + 4) ++ [b]) (s.storeByte b)).2.emit
        (.frameAccepted s.parser.len)).withParser { (s.storeByte b).parser with st := .header, cur := 0 } := by
  have hframe := State.storeByte_bufRange_succ s b
  rw [hcur] at hframe
  rw [rowCrcOk_eq, State.storeByte_parser]
  simp only [hframe]

/-- Settles O18: `CRC.OK` puts the frame that the store has completed, and `PUT` neither reads nor writes the parser. -/
theorem crcOkEnqueuesTheFrame : Obligations.CrcOkEnqueuesTheFrame := by
  intro b s hr hq hst hcur hc hb
  have hb' : b = s.frameCrc := hb
  obtain ⟨-, hconsumer, hret, hout⟩ := putBlock_frame (s.bufRange (s.parser.len.toNat + 4) ++ [b]) (s.storeByte b)
  have hput := putBlock_putEffect (s := s.storeByte b) hr.1 hq (s.bufRange (s.parser.len.toNat + 4) ++ [b])
  have htrace := putBlock_trace (s.bufRange (s.parser.len.toNat + 4) ++ [b]) (s.storeByte b)
  refine ⟨_, rxEntry_of_selected hr ((pairOk_crc_iff hst).mpr hcur) hc (by simpa [hst] using hb') _, ?_⟩
  rw [rowCrcOk_storeByte b hcur]
  generalize (putBlock (s.bufRange (s.parser.len.toNat + 4) ++ [b]) (s.storeByte b)).2 = u at *
  exact ⟨⟨rfl, rfl, rfl⟩, storesInBuf_of_buf_eq hcur rfl, hput, congrArg (· ++ [_]) htrace, hconsumer, hret, hout⟩

end Sys2Proof.Machine
end

section
/-! PROOFS. From a state of the invariant nothing faults, and the producer is never blocked (20_memory, R50, R55;
41_parser, R130, R145; 42_fifo, R165; 60_exceptions, R218): the cursor stays inside `BUF`, and it moves by one with every
byte until the parser is back in `Header`. -/

namespace Sys2Proof.Machine

/-! ### The cursor (R26, R145) -/

/-- R145: in every state of R26's table the next byte has its place in `BUF`. -/
theorem cur_lt_maxFrame {s : State} (hp : paramsWellFormed s.params = true) (h : parserInv s = true) :
    s.parser.cur.toNat < s.params.maxFrame := by
  have hm := wellFormed_maxFrame hp
  cases hst : s.parser.st <;>
    simp only [parserInv, Parser.pairOk, hst, Bool.and_eq_true, beq_iff_eq, decide_eq_true_eq, lengthInRange_iff] at h <;>
    omega

/-- The parser has taken one byte and is behind it; in `Crc` it is behind the last payload byte (R139, R140). -/
def AdvancesByOne (s t : State) : Prop :=
  t.parser.cur.toNat = s.parser.cur.toNat + 1 ∧ (t.parser.st = .crc → t.parser.cur.toNat = t.parser.len.toNat + 4)

/-- Where every row of R85 leaves the cursor. -/
theorem rxRow_header_or_advances {s : State} (b : Byte) (hp : s.parser.pairOk = true)
    (hsucc : (s.parser.cur + 1#32).toNat = s.parser.cur.toNat + 1) :
    (rxRow b (s.storeByte b)).parser.st = .header ∨ AdvancesByOne s (rxRow b (s.storeByte b)) := by
  cases hst : s.parser.st with
  | header =>
    have hcur : s.parser.cur.toNat = 0 := by simpa [Parser.pairOk, hst] using hp
    simp only [rxRow, State.storeByte_parser, hst]
    split
    · exact .inr ⟨by rw [hcur]; rfl, nofun⟩
    · exact .inl rfl
  | length0 =>
    have hcur : s.parser.cur.toNat = 1 := by simpa [Parser.pairOk, hst] using hp
    simp only [rxRow, State.storeByte_parser, hst, rowLen0_eq]
    exact .inr ⟨by rw [hcur]; rfl, nofun⟩
  | length1 =>
    have hcur : s.parser.cur.toNat = 2 := by simpa [Parser.pairOk, hst] using hp
    simp only [rxRow, State.storeByte_parser, hst]
    exact .inr ⟨by rw [hcur]; rfl, nofun⟩
  | length2 =>
    have hcur : s.parser.cur.toNat = 3 := by simpa [Parser.pairOk, hst] using hp
    simp only [rxRow, State.storeByte_parser, hst]
    exact .inr ⟨by rw [hcur]; rfl, nofun⟩
  | length3 =>
    have hcur : s.parser.cur.toNat = 4 := by simpa [Parser.pairOk, hst] using hp
    simp only [rxRow, State.storeByte_parser, hst]
    split
    · exact .inr ⟨by rw [hcur]; rfl, nofun⟩
    · exact .inl rfl
  | command =>
    have hcur : s.parser.cur.toNat = 5 := by simpa [Parser.pairOk, hst] using hp
    simp only [rxRow, State.storeByte_parser, hst]
    exact .inr ⟨by rw [hcur]; rfl, nofun⟩
  | data =>
    simp only [rxRow, State.storeByte_parser, hst]
    split
    · rename_i hlast
      exact .inr ⟨hsucc, fun _ => hsucc.trans ((lastData_iff _ _).mp hlast)⟩
    · exact .inr ⟨hsucc, nofun⟩
  | crc =>
    simp only [rxRow, State.storeByte_parser, hst]
    split
    · rw [rowCrcOk_eq]
      exact .inl rfl
    · exact .inl rfl

theorem rxByte_header_or_advances {b : Byte} {s t : State} (h : rxByte b s = .next t) :
    t.parser.st = .header ∨ AdvancesByOne s t := by
  obtain ⟨⟨hparams, -⟩, hpair, hc, rfl⟩ := rxByte_next_iff.mp h
  exact rxRow_header_or_advances b hpair (cur_add_one_toNat hc (wellFormed_maxFrame hparams).2)

/-! ### A run of `RX` (R165, R218) -/

theorem pairOk_of_parserInv {s : State} (h : parserInv s = true) : s.parser.pairOk = true := (Bool.and_eq_true_iff.mp h).1

/-- R165: in every state of R26's table `RX` is enabled, whatever the byte. -/
theorem exists_rxByte_next {s : State} (hr : Running s) (h : parserInv s = true) (b : Byte) :
    ∃ t, rxByte b s = .next t ∧ parserInv t = true ∧ Running t := by
  have hc := cur_lt_maxFrame hr.1 h
  obtain ⟨hconsumer, -, hparams, -⟩ := rxRow_consumerKept b (s.storeByte b)
  refine ⟨_, rxByte_next_iff.mpr ⟨hr, pairOk_of_parserInv h, hc, rfl⟩,
    rxRow_parserInv b h hc (wellFormed_maxFrame hr.1).2, ?_⟩
  rw [Running, hparams, hconsumer]
  exact hr

theorem exists_rxAll_next {s : State} (hr : Running s) (h : parserInv s = true) (bytes : List Byte) :
    ∃ t, rxAll bytes s = .next t ∧ parserInv t = true ∧ Running t := by
  induction bytes generalizing s with
  | nil => exact ⟨s, rfl, h, hr⟩
  | cons b rest ih =>
    obtain ⟨u, hu, hinv, hrun⟩ := exists_rxByte_next hr h b
    obtain ⟨t, ht⟩ := ih hrun hinv
    refine ⟨t, ?_⟩
    simpa only [rxAll, hu] using ht

/-- By the room left in `BUF`: each byte brings the parser back to `Header`, or takes up one place. -/
theorem exists_rxAll_header {s : State} (hr : Running s) (h : parserInv s = true) {n : Nat}
    (hn : s.params.maxFrame ≤ s.parser.cur.toNat + n) :
    ∃ bytes t, bytes.length ≤ n ∧ rxAll bytes s = .next t ∧ t.parser.st = .header := by
  induction n generalizing s with
  | zero => exact absurd (cur_lt_maxFrame hr.1 h) (Nat.not_lt.mpr hn)
  | succ n ih =>
    obtain ⟨u, hu, hinv, hrun⟩ := exists_rxByte_next hr h 0
    obtain hheader | ⟨hcur, -⟩ := rxByte_header_or_advances hu
    · exact ⟨[0], u, by simp, by rw [rxAll_singleton, hu], hheader⟩
    · obtain ⟨-, -, hparams, -⟩ := rxByte_consumerKept hu
      obtain ⟨bytes, t, hlen, ht, hst⟩ := ih hrun hinv (by rw [hparams, hcur]; omega)
      exact ⟨0 :: bytes, t, by simpa using hlen, by simpa only [rxAll, hu] using ht, hst⟩

/-- Settles O57: every `RX` is enabled and keeps R26's table, and the room in `BUF` bounds the way back to `Header`. -/
theorem producerIsNeverBlocked : Obligations.ProducerIsNeverBlocked := by
  intro s hr h
  refine ⟨exists_rxAll_next hr h, fun command payload => ?frame, exists_rxAll_header hr h (Nat.le_add_left _ _)⟩
  case frame =>
    obtain ⟨t, ht, -⟩ := exists_rxAll_next hr h (frameBytes command payload)
    exact ⟨t, (whenRunning_of_running hr _).trans ht⟩

/-! ### What a fault needs -/

theorem iterEntry_fault {s : State} {here : Prop} [Decidable here] {k : Outcome} {f : Fault}
    (h : iterEntry s here k = .fault f) : here ∧ k = .fault f := by
  obtain ⟨-, hk⟩ := whenRunning_fault_iff.mp h
  split at hk
  · exact ⟨‹_›, hk⟩
  · cases hk

theorem commandEntry_fault {s : State} {selected : Bool} {k : Outcome} {f : Fault}
    (h : commandEntry s selected k = .fault f) : s.consumer.point = .dispatch ∧ k = .fault f := by
  obtain ⟨-, hk⟩ := whenRunning_fault_iff.mp h
  split at hk
  · exact ⟨And.left ‹_›, hk⟩
  · cases hk

theorem blitEntry_fault {decode : Call} {result : Option Surface} {s : State} {f : Fault}
    (h : blitEntry decode result s = .fault f) : s.params.maxFrame < s.consumer.need.toNat := by
  unfold blitEntry at h
  split at h
  · assumption
  · cases h

theorem runCommand_fault {op : Byte} {s : State} {f : Fault} (h : runCommand op s = .fault f) :
    s.params.maxFrame < s.consumer.need.toNat := by
  unfold runCommand at h
  split at h
  · cases h
  split at h
  · cases h
  split at h
  · exact blitEntry_fault h
  split at h
  · exact blitEntry_fault h
  split at h <;> cases h

theorem readBody_fault {s : State} {f : Fault} (h : readBody s = .fault f) :
    s.params.maxFrame < s.consumer.need.toNat := by
  unfold readBody at h
  obtain ⟨-, e⟩ | ⟨-, e⟩ := getBlock_cases s.consumer.need s <;> simp only [e] at h
  · split at h
    · cases h
    · split at h
      · assumption
      · cases h
  · cases h

/-! ### The invariant shuts the faults out -/

/-- R181: where the consumer reads a body or dispatches it, the body fits `SCRATCH`. -/
theorem ConsumerSide.need_le {s : State} (hs : ConsumerSide s)
    (hat : s.consumer.phase = .wantBody ∨ s.consumer.point = .dispatch) :
    s.consumer.need.toNat ≤ s.params.maxFrame := by
  obtain ⟨-, hlt, -⟩ := (bodyLengthOk_iff _ _).mp (((consumerInv_iff s).mp hs.loop).2 hat)
  omega

theorem Sides.rxEntry_ne_fault {s : State} (hs : Sides s) (b : Byte) (selected : Bool) (row : State → State)
    (f : Fault) : rxEntry b s selected row ≠ .fault f := by
  intro h
  have hc := cur_lt_maxFrame hs.wellFormed hs.parser.table
  obtain hpair | hout := rxEntry_fault h
  · exact absurd (pairOk_of_parserInv hs.parser.table) (by simp [hpair])
  · omega

theorem Sides.execFrame_ne_fault {s : State} (hs : Sides s) (command : Byte) (payload : List Byte) (f : Fault) :
    execFrame command payload s ≠ .fault f := by
  intro h
  obtain ⟨hr, hk⟩ := whenRunning_fault_iff.mp h
  obtain ⟨t, ht, -⟩ := exists_rxAll_next hr hs.parser.table (frameBytes command payload)
  rw [ht] at hk
  cases hk

theorem execIterValidate_ne_fault (s : State) (f : Fault) : execIterValidate s ≠ .fault f := by
  intro h
  unfold execIterValidate at h
  split at h <;> cases (whenRunning_fault_iff.mp h).2

theorem Sides.exec_ne_fault {s : State} (hs : Sides s) (i : Instr) (f : Fault) : exec i s ≠ .fault f := by
  intro h
  cases i
  case frame command payload => exact hs.execFrame_ne_fault command payload f h
  case rx | hdrSof | hdrNoise | len0 | len1 | len2 | len3Ok | len3Bad | cmd | dataMore | dataLast | crcOk | crcBad =>
    exact hs.rxEntry_ne_fault _ _ _ f h
  case iterBody =>
    obtain ⟨⟨hphase, -⟩, hk⟩ := iterEntry_fault h
    exact absurd (hs.consumer.need_le (.inl hphase)) (Nat.not_le.mpr (readBody_fault hk))
  case iterDispatch =>
    obtain ⟨hd, hk⟩ := iterEntry_fault h
    exact absurd (hs.consumer.need_le (.inr hd)) (Nat.not_le.mpr (runCommand_fault hk))
  case blitJpg | blitPng =>
    obtain ⟨hd, hk⟩ := commandEntry_fault h
    exact absurd (hs.consumer.need_le (.inr hd)) (Nat.not_le.mpr (blitEntry_fault hk))
  case setBrightness | clearScreen | rebootToFel | unknownCmd => cases (commandEntry_fault h).2
  case iterPrefix | iterYield => cases (iterEntry_fault h).2
  case iterValidate => exact execIterValidate_ne_fault s f h
  case getShort | putOverflow =>
    obtain ⟨-, hk⟩ := whenRunning_fault_iff.mp h
    split at hk <;> cases hk
  case hreset =>
    simp only [exec, execHreset] at h
    split at h <;> cases h
  all_goals cases (whenRunning_fault_iff.mp h).2

/-- Settles O51: the parser's share of the invariant shuts out the faults of `RX`, the consumer's share those of the bodies;
a step runs an instruction on the state with the request taken off, of which the invariant does not speak. -/
theorem noStepFaultsUnderTheInvariant : Obligations.NoStepFaultsUnderTheInvariant := by
  intro s hs
  refine ⟨fun f h => ?step, ((inv_iff_sides s).mp hs).exec_ne_fault⟩
  case step =>
    obtain ⟨-, e⟩ | ⟨i, u, hf, e⟩ | ⟨r, -, e⟩ := step_cases s <;> rw [e] at h
    · cases h
    · obtain ⟨rest, rfl⟩ := fetch_run hf
      rw [← Inv_withPending s rest] at hs
      exact ((inv_iff_sides _).mp hs).exec_ne_fault i f h
    · cases h

end Sys2Proof.Machine
end

section
/-! PROOFS. The CRC over the bytes received (40_crc8, R114, R115; 41_parser, R147, R148): a running register may replace the
walk over `BUF`, and one altered byte is noticed. -/

namespace Sys2Proof.Machine

/-! ### The running register (R147) -/

theorem State.bufRange_congr {s t : State} (hbuf : t.parser.buf = s.parser.buf) (hepoch : t.epoch = s.epoch) (n : Nat) :
    t.bufRange n = s.bufRange n :=
  List.map_congr_left fun i _ => by simp only [State.readBuf, hbuf, hepoch]

/-- R64: behind a byte that did not end the frame stand the bytes before it and the byte itself. -/
theorem bufRange_of_advances {b : Byte} {s t : State} (h : rxByte b s = .next t) (ha : AdvancesByOne s t) :
    t.bufRange t.parser.cur.toNat = s.bufRange s.parser.cur.toNat ++ [b] := by
  obtain ⟨-, -, -, rfl⟩ := rxByte_next_iff.mp h
  obtain ⟨-, -, -, -, -, hepoch, -⟩ := rxRow_consumerKept b (s.storeByte b)
  obtain ⟨hcur, -⟩ := ha
  rw [hcur, State.bufRange_congr (rxRow_buf b _) hepoch, State.storeByte_bufRange_succ]

/-- Settles O56: outside `Header` the bytes received are one longer, and in `Crc` they are what R141 walks over. -/
theorem runningCrcEqualsTheBufferWalk : Obligations.RunningCrcEqualsTheBufferWalk := by
  intro b s t h hst
  have hadv := (rxByte_header_or_advances h).resolve_left hst
  refine ⟨by rw [bufRange_of_advances h hadv, crc8_concat], fun hcrc => ?_⟩
  rw [State.frameCrc, hadv.2 hcrc]
  rfl

/-! ### A byte of the body or of the CRC is altered (R115, R148) -/

theorem crc8_set_ne {x : List Byte} {k : Nat} {v : Byte} (seed : Byte) (hk : k < x.length) (hv : x[k]? ≠ some v) :
    crc8 seed (x.set k v) ≠ crc8 seed x := by
  have hne : v ≠ x[k] := by
    rintro rfl
    exact hv (List.getElem?_eq_getElem hk)
  have h := crcDetectsOneAlteredByte seed v x[k] (x.take k) (x.drop (k + 1)) hne
  rw [List.getElem_cons_drop, List.take_append_drop] at h
  rwa [List.set_eq_take_append_cons_drop, if_pos hk]

/-- An altered command or payload byte makes the body of another frame of the same length. -/
theorem frameBody_set {command : Byte} {payload : List Byte} {k : Nat} (v : Byte) (hk : 5 ≤ k) :
    ∃ command' payload', (frameBody command payload).set k v = frameBody command' payload' ∧
      payload'.length = payload.length := by
  obtain ⟨j, rfl⟩ := Nat.exists_eq_add_of_le' hk
  cases j with
  | zero => exact ⟨v, payload, rfl, rfl⟩
  | succ j => exact ⟨command, payload.set j v, by simp [frameBody, beBytes], List.length_set⟩

/-- An altered frame is the body of a frame of the same length, and a last byte that is not its CRC. -/
theorem frameBytes_set {command : Byte} {payload : List Byte} {k : Nat} {v : Byte} (hk : 5 ≤ k)
    (hlt : k < payload.length + 7) (hv : (frameBytes command payload)[k]? ≠ some v) :
    ∃ command' payload' last, (frameBytes command payload).set k v = frameBody command' payload' ++ [last] ∧
      payload'.length = payload.length ∧ last ≠ crc8 Config.crcSeedFrame (frameBody command' payload') := by
  have hlen := frameBody_length command payload
  rw [frameBytes] at hv ⊢
  obtain hin | hlast := Nat.lt_or_eq_of_le (Nat.le_of_lt_succ hlt)
  · have hin' : k < (frameBody command payload).length := by omega
    obtain ⟨command', payload', hset, hlen'⟩ := frameBody_set (command := command) (payload := payload) v hk
    rw [List.getElem?_append_left hin'] at hv
    refine ⟨command', payload', _, by rw [List.set_append_left _ _ hin', hset], hlen', ?_⟩
    rw [← hset]
    exact (crc8_set_ne _ hin' hv).symm
  · refine ⟨command, payload, v, ?_, rfl, ?_⟩
    · simp [hlast, hlen]
    · rintro rfl
      simp [hlast, ← hlen] at hv

/-- The CRC byte of the bytes received does not match: R142's row. -/
theorem rxAll_crcBad {s : State} {len : Word} {body : List Byte} {b : Byte} (hr : Running s)
    (hlen : body.length = len.toNat + 4) (hfit : body.length < s.params.maxFrame)
    (hb : b ≠ crc8 Config.crcSeedFrame body) :
    rxAll [b] (s.receiving .crc body.length len body) =
      .next (rowCrcBad b (s.receiving .crc body.length len (body ++ [b]))) := by
  have hcur := receiving_cur (st := .crc) (len := len) (bytes := body) hr hfit
  have hpair : (s.receiving .crc body.length len body).parser.pairOk = true :=
    (pairOk_crc_iff rfl).mpr (hcur.trans hlen)
  have hcrc : (s.receiving .crc body.length len body).frameCrc = crc8 Config.crcSeedFrame body :=
    congrArg _ (hlen ▸ State.bufRange_of_writeBlock (m := s.parser.buf) rfl)
  refine rxAll_receiving hr hfit rfl hpair ?_
  have hstored := storeByte_frameCrc_of_crc b rfl hpair
  rw [storeByte_receiving hr hfit rfl, hcrc] at hstored
  exact if_neg (hstored ▸ hb)

/-- Settles O55: the altered bytes are the body of a frame of the same length, which the parser collects, and a byte that
R142's row turns down. -/
theorem oneCorruptedByteDropsTheFrame : Obligations.OneCorruptedByteDropsTheFrame := by
  intro command payload k v s hr hst hcur hpos hmax hk hlt hv
  obtain ⟨command', payload', last, hset, hlen', hlast⟩ := frameBytes_set hk hlt hv
  have hm := wellFormed_maxFrame hr.1
  have hlen := lengthField_toNat (n := payload'.length) (by omega)
  have hbody := frameBody_length command' payload'
  have hbad := rxAll_crcBad hr (by rw [hlen, hbody]) (by omega) hlast
  rw [hset, ← hlen', rxAll_frameBody hr hst hcur (by omega) (by omega), ← hbody, hbad]
  exact ⟨_, last, rfl, List.getElem?_concat_length, ⟨rfl, rfl, rfl⟩, ⟨rfl, rfl, rfl, rfl, rfl, rfl, rfl, rfl⟩, rfl⟩

end Sys2Proof.Machine
end

section
/-! PROOFS. The queue's transactions (42_fifo, R160 to R164): behind the guard, `GET` is R162's removal or nothing,
`PUT` is R160's append or R161's overflow, and `RESET` empties the queue. -/

namespace Sys2Proof.Machine

/-! ### `GET` (R162, R163) -/

theorem getBlock_of_queued {want : Word} {s : State} (h : want.toNat ≤ s.queue.cnt.toNat) : getBlock want s =
    (want, s.oldest want.toNat, (s.dropOldest want).withRet (.got want (s.oldest want.toNat))) := if_pos h

theorem getBlock_of_short {want : Word} {s : State} (h : s.queue.cnt.toNat < want.toNat) :
    getBlock want s = (0, [], s.withRet (.got 0 [])) := if_neg (Nat.not_le.mpr h)

/-- Settles O22: enough is queued, so `GET` is R162's removal, which writes neither `Q` nor the trace. -/
theorem getRemovesTheOldestBytes : Obligations.GetRemovesTheOldestBytes := by
  intro want s hr hn
  have hexec : exec (.get want) s = .next (getBlock want s).2.2 := whenRunning_of_running hr _
  rw [getBlock_of_queued hn, State.oldest_eq_take hn] at hexec
  exact ⟨_, hexec, rfl, State.dropOldest_fifo hr.1 hn, State.dropOldest_rd hr.1, State.dropOldest_cnt hn, rfl, rfl,
    rfl, rfl, rfl, rfl, rfl, rfl, rfl⟩

/-- Settles O23: too little is queued, so `GET` and its row for that case both hand back nothing. -/
theorem shortGetRemovesNothing : Obligations.ShortGetRemovesNothing := by
  intro want s hr hn
  have hexec : exec (.get want) s = .next (getBlock want s).2.2 := whenRunning_of_running hr _
  rw [getBlock_of_short hn] at hexec
  exact ⟨hexec, (whenRunning_of_running hr _).trans (if_pos hn)⟩

/-! ### `RESET` (R164) -/

theorem exec_reset {s : State} (hr : Running s) : exec .reset s = .next (resetQueue s) := whenRunning_of_running hr _

/-- Settles O24: `RESET` touches only `rd`, `cnt` and the trace, so it runs again, and finds `rd` and `cnt` zero. -/
theorem resetEmptiesTheQueueAndIsIdempotent : Obligations.ResetEmptiesTheQueueAndIsIdempotent := by
  intro s hr
  have hagain : exec .reset (resetQueue s) = .next (resetQueue (resetQueue s)) := exec_reset hr
  exact ⟨_, exec_reset hr, State.emptyQueue_fifo s, rfl, rfl, rfl, rfl, rfl, ⟨rfl, rfl, rfl, rfl, rfl, rfl, rfl⟩,
    _, hagain, rfl⟩

/-! ### `PUT` (R160, R161) -/

theorem putBlock_of_overflow {s : State} {bytes : List Byte} (h : s.freeSpace < bytes.length) :
    putBlock bytes s = putOverflowing bytes s := if_neg (Nat.not_le.mpr h)

theorem putBlock_count (bytes : List Byte) (s : State) :
    (putBlock bytes s).1 = BitVec.ofNat 32 (writtenCount s bytes) := by
  unfold writtenCount putBlock putOverflowing
  split
  · rfl
  · simp only [Bool.and_eq_true, decide_eq_true_eq]
    split <;> rfl

/-- R161, whatever the queue holds: the overflow starts from an emptied queue. -/
theorem putBlock_putEffect_of_overflow {s : State} {bytes : List Byte} (hp : paramsWellFormed s.params = true)
    (hlong : s.freeSpace < bytes.length) : PutEffect s (putBlock bytes s).2 bytes := by
  rw [putBlock_of_overflow hlong]
  obtain ⟨hkeeps, hfits, e⟩ | ⟨hdropped, e⟩ := putOverflowing_cases bytes s <;> rw [e]
  · exact emptyQueue_append_putEffect hp hlong hkeeps hfits
  · exact emptyQueue_putEffect hlong hdropped

/-- `PUT` alone: what it leaves, and what it hands back (R160, R161). -/
theorem exec_put_next {s : State} {bytes : List Byte} (hr : Running s)
    (heffect : PutEffect s (putBlock bytes s).2 bytes) :
    ∃ t, exec (.put bytes) s = .next t ∧ PutEffect s t bytes ∧
      t.ret = .count (BitVec.ofNat 32 (writtenCount s bytes)) ∧ t.trace = s.trace ++ putEvents s bytes ∧
      QueueOnly s t :=
  ⟨_, whenRunning_of_running hr _, heffect, congrArg Ret.count (putBlock_count bytes s), putBlock_trace bytes s,
    putBlock_queueOnly bytes s⟩

theorem exec_putOverflow {s : State} {bytes : List Byte} (hr : Running s) (hlong : s.freeSpace < bytes.length) :
    exec (.putOverflow bytes) s = exec (.put bytes) s := by
  simp only [exec, execPutOverflow, execPut, whenRunning_of_running hr, if_pos hlong, putBlock_of_overflow hlong]

/-- Settles O25: in a well-formed queue `PUT` is R160's append or R161's overflow. -/
theorem putIsAllOrNothing : Obligations.PutIsAllOrNothing :=
  fun bytes _ hr hq => exec_put_next hr (putBlock_putEffect hr.1 hq bytes)

/-- Settles O26: the row is `PUT` on a block that does not fit, which records the overflow. -/
theorem putOverflowEmptiesTheQueue : Obligations.PutOverflowEmptiesTheQueue := by
  intro bytes s hr hlong
  have hevents : putEvents s bytes = [.fifoOverflow bytes.length s.queue.cnt] := if_neg (Nat.not_le.mpr hlong)
  rw [exec_putOverflow hr hlong, ← hevents]
  exact exec_put_next hr (putBlock_putEffect_of_overflow hr.1 hlong)

end Sys2Proof.Machine
end

section
/-! PROOFS. Alignment (42_fifo, R166; 70_reset_and_hazards, R246): the parser puts whole valid frames, and the consumer
takes from the queue a frame's prefix and then the rest of that frame. -/

namespace Sys2Proof.Machine

/-! ### Frames and frame streams (R80, R82, R166) -/

/-- A valid frame begins with a prefix, which declares how many bytes follow it (R80). -/
theorem ValidFrame.exists_head {maxFrame : Nat} {f : List Byte} (h : ValidFrame maxFrame f) :
    ∃ (head : FrameHead) (body : List Byte), f = head.bytes ++ body := by
  obtain ⟨command, payload, rfl, -, -⟩ := h
  obtain ⟨l1, l2, l3, l4, -, hbody⟩ := frameBody_eq command payload
  exact ⟨⟨Config.sentinel, l1, l2, l3, l4⟩, _, by rw [frameBytes, hbody]; rfl⟩

theorem ValidFrame.length_of_head {maxFrame : Nat} {head : FrameHead} {body : List Byte} (hm : maxFrame < 2 ^ 32)
    (h : ValidFrame maxFrame (head.bytes ++ body)) : body.length = head.length.toNat ∧ 2 < head.length.toNat := by
  obtain ⟨command, payload, heq, hlow, hhigh⟩ := h
  obtain ⟨l1, l2, l3, l4, hfield, hbody⟩ := frameBody_eq command payload
  have hlen : (be32 l1 l2 l3 l4).toNat = payload.length + 2 := by rw [hfield, lengthField_toNat (by omega)]
  simp only [frameBytes, hbody, FrameHead.bytes, List.cons_append, List.nil_append, List.cons.injEq] at heq
  obtain ⟨-, h1, h2, h3, h4, rfl⟩ := heq
  rw [FrameHead.length, h1, h2, h3, h4, hlen]
  exact ⟨by simp, hlow⟩

theorem FrameStream.nil (maxFrame : Nat) : FrameStream maxFrame [] := ⟨[], nofun, rfl⟩

theorem FrameStream.of_validFrame {maxFrame : Nat} {f : List Byte} (h : ValidFrame maxFrame f) :
    FrameStream maxFrame f := ⟨[f], by simpa using h, by simp⟩

theorem FrameStream.append {maxFrame : Nat} {x y : List Byte} (hx : FrameStream maxFrame x)
    (hy : FrameStream maxFrame y) : FrameStream maxFrame (x ++ y) := by
  obtain ⟨xs, hxs, rfl⟩ := hx
  obtain ⟨ys, hys, rfl⟩ := hy
  exact ⟨xs ++ ys, List.forall_mem_append.mpr ⟨hxs, hys⟩, List.flatten_append.symm⟩

/-- The oldest bytes of a frame stream are a frame's prefix (R166). -/
theorem FrameStream.exists_head {maxFrame : Nat} {bytes : List Byte} (h : FrameStream maxFrame bytes)
    (hne : bytes ≠ []) : ∃ (head : FrameHead) (body rest : List Byte), bytes = head.bytes ++ (body ++ rest) ∧
      ValidFrame maxFrame (head.bytes ++ body) ∧ FrameStream maxFrame rest := by
  obtain ⟨frames, hvalid, rfl⟩ := h
  cases frames with
  | nil => exact absurd rfl hne
  | cons f fs =>
    obtain ⟨hf, hfs⟩ := List.forall_mem_cons.mp hvalid
    obtain ⟨head, body, rfl⟩ := hf.exists_head
    exact ⟨head, body, fs.flatten, by simp, hf, fs, hfs, rfl⟩

/-! ### Alignment, by the consumer's place -/

theorem aligned_wantBody_iff {s : State} (hphase : s.consumer.phase = .wantBody) :
    Aligned s ↔ ∃ head : FrameHead, HoldsBodyOf s head ∧ s.consumer.need = head.length := by
  simp only [Aligned, hphase]

theorem aligned_validate_iff {s : State} {head : FrameHead} (hphase : s.consumer.phase = .wantPrefix)
    (hpoint : s.consumer.point = .validate head) : Aligned s ↔ HoldsBodyOf s head := by
  simp only [Aligned, hphase, hpoint]

theorem aligned_stream_iff {s : State} (h : ¬ HoldsPrefix s) : Aligned s ↔ FrameStream s.params.maxFrame s.fifo := by
  obtain ⟨hbody, hpoint⟩ := not_or.mp h
  cases hphase : s.consumer.phase with
  | wantBody => exact absurd hphase hbody
  | wantPrefix =>
    cases hp : s.consumer.point
    case validate head => exact absurd ⟨head, hp⟩ hpoint
    all_goals simp only [Aligned, hphase, hp]

theorem not_holdsPrefix {s : State} (hphase : s.consumer.phase = .wantPrefix)
    (hpoint : ∀ head, s.consumer.point ≠ .validate head) : ¬ HoldsPrefix s := by
  simpa [HoldsPrefix, hphase] using hpoint

theorem HoldsBodyOf.append {s t : State} {head : FrameHead} {bytes : List Byte} (h : HoldsBodyOf s head)
    (hparams : t.params = s.params) (hfifo : t.fifo = s.fifo ++ bytes)
    (hbytes : FrameStream s.params.maxFrame bytes) : HoldsBodyOf t head := by
  obtain ⟨body, rest, heq, hvalid, hrest⟩ := h
  rw [HoldsBodyOf, hparams]
  exact ⟨body, rest ++ bytes, by rw [hfifo, heq, List.append_assoc], hvalid, hrest.append hbytes⟩

/-- Whole frames behind the queued bytes, the consumer where it was (R160, R166). -/
theorem Aligned.append {s t : State} {bytes : List Byte} (h : Aligned s) (hconsumer : t.consumer = s.consumer)
    (hparams : t.params = s.params) (hfifo : t.fifo = s.fifo ++ bytes)
    (hbytes : FrameStream s.params.maxFrame bytes) : Aligned t := by
  unfold Aligned at h ⊢
  rw [hconsumer, hparams]
  split at h
  · obtain ⟨head, hbody, hneed⟩ := h
    exact ⟨head, hbody.append hparams hfifo hbytes, hneed⟩
  · exact h.append hparams hfifo hbytes
  · rw [hfifo]
    exact h.append hbytes

/-- The consumer moves on to another place that holds no freshly read prefix, and the queue stays. -/
theorem Aligned.moves {s t : State} (h : Aligned s) (hs : ∀ head, s.consumer.point ≠ .validate head)
    (ht : ∀ head, t.consumer.point ≠ .validate head) (hphase : t.consumer.phase = s.consumer.phase)
    (hneed : t.consumer.need = s.consumer.need) (hparams : t.params = s.params) (hfifo : t.fifo = s.fifo) :
    Aligned t := by
  cases hp : s.consumer.phase with
  | wantBody =>
    obtain ⟨head, hbody, hlen⟩ := (aligned_wantBody_iff hp).mp h
    refine (aligned_wantBody_iff (hphase.trans hp)).mpr ⟨head, ?_, hneed.trans hlen⟩
    exact hbody.append hparams (by simpa using hfifo) (FrameStream.nil _)
  | wantPrefix =>
    rw [aligned_stream_iff (not_holdsPrefix hp hs)] at h
    rwa [aligned_stream_iff (not_holdsPrefix (hphase.trans hp) ht), hparams, hfifo]

/-! ### The consumer's steps (R182 to R186) -/

theorem readPrefix_of_short {s : State} (h : s.queue.cnt.toNat < 5) :
    readPrefix s = (s.withRet (.got 0 [])).goToPoint .yield := by
  rw [readPrefix, getBlock_of_short (want := 5) h]
  rfl

theorem readPrefix_of_head {s : State} {head : FrameHead} {rest : List Byte} (h : s.fifo = head.bytes ++ rest) :
    readPrefix s = ((s.dropOldest 5).withRet (.got 5 head.bytes)).goToPoint (.validate head) := by
  have hcnt : (5 : Word).toNat ≤ s.queue.cnt.toNat := by
    rw [← State.fifo_length, h]
    simp [FrameHead.bytes]
  have holdest : s.oldest (5 : Word).toNat = head.bytes := by
    rw [State.oldest_eq_take hcnt, h]
    rfl
  rw [readPrefix, getBlock_of_queued hcnt, holdest]
  rfl

/-- Step 1: the consumer holds the prefix of the oldest frame, or nothing was queued. -/
theorem Aligned.readPrefix {s : State} (hp : paramsWellFormed s.params = true)
    (hphase : s.consumer.phase = .wantPrefix) (hpoint : s.consumer.point = .read) (h : Aligned s) :
    Aligned (readPrefix s) := by
  by_cases hcnt : s.queue.cnt.toNat < 5
  · rw [readPrefix_of_short hcnt]
    exact h.moves (by simp [hpoint]) nofun rfl rfl rfl rfl
  · have hne : s.fifo ≠ [] := by
      rw [← List.length_pos_iff, State.fifo_length]
      omega
    rw [aligned_stream_iff (not_holdsPrefix hphase (by simp [hpoint]))] at h
    obtain ⟨head, body, rest, hfifo, hvalid, hrest⟩ := h.exists_head hne
    have hdrop : (s.dropOldest 5).fifo = s.fifo.drop 5 := State.dropOldest_fifo hp (Nat.le_of_not_lt hcnt)
    rw [hfifo] at hdrop
    rw [readPrefix_of_head hfifo]
    refine (aligned_validate_iff ?_ ?_).mpr ⟨body, rest, hdrop, hvalid, hrest⟩
    · exact hphase
    · rfl

/-- Step 2: the consumer waits for the rest of the frame, or the queue is emptied. -/
theorem Aligned.validatePrefix {s : State} {head : FrameHead} (hphase : s.consumer.phase = .wantPrefix)
    (hpoint : s.consumer.point = .validate head) (h : Aligned s) : Aligned (validatePrefix head s) := by
  rw [aligned_validate_iff hphase hpoint] at h
  unfold Machine.validatePrefix
  split
  · exact (aligned_wantBody_iff rfl).mpr ⟨head, h, rfl⟩
  · have hempty : ((resetQueue s).goToPoint .yield).fifo = [] := State.emptyQueue_fifo s
    have hfree : ¬ HoldsPrefix ((resetQueue s).goToPoint .yield) := not_holdsPrefix hphase nofun
    rw [aligned_stream_iff hfree, hempty]
    exact FrameStream.nil _

theorem readBody_of_short {s : State} (h : s.queue.cnt.toNat < s.consumer.need.toNat) :
    readBody s = .next ((s.withRet (.got 0 [])).goToPoint .yield) := by
  rw [readBody, getBlock_of_short h]
  rfl

/-- Step 3 on a queued body: the consumer has taken `need` bytes and goes to step 4. -/
theorem readBody_of_queued {s t : State} (hpos : s.consumer.need ≠ 0)
    (h : s.consumer.need.toNat ≤ s.queue.cnt.toNat) (ht : readBody s = .next t) :
    t.consumer.phase = .wantPrefix ∧ t.consumer.point = .dispatch ∧ t.params = s.params ∧
      t.fifo = (s.dropOldest s.consumer.need).fifo := by
  rw [readBody, getBlock_of_queued h] at ht
  simp only [hpos, if_false] at ht
  split at ht <;> cases ht
  exact ⟨rfl, rfl, rfl, rfl⟩

/-- Step 3: the rest of the frame leaves the queue as a whole, or stays there. -/
theorem Aligned.readBody {s t : State} (hp : paramsWellFormed s.params = true) (hphase : s.consumer.phase = .wantBody)
    (hpoint : s.consumer.point = .read) (h : Aligned s) (ht : readBody s = .next t) : Aligned t := by
  by_cases hcnt : s.queue.cnt.toNat < s.consumer.need.toNat
  · rw [readBody_of_short hcnt] at ht
    cases ht
    exact h.moves (by simp [hpoint]) nofun rfl rfl rfl rfl
  · have hqueued := Nat.le_of_not_lt hcnt
    obtain ⟨head, ⟨body, rest, hfifo, hvalid, hrest⟩, hneed⟩ := (aligned_wantBody_iff hphase).mp h
    obtain ⟨hlen, hpos⟩ := hvalid.length_of_head (wellFormed_maxFrame hp).2
    rw [← hneed] at hlen hpos
    have hne : s.consumer.need ≠ 0 := by
      intro h0
      simp [h0] at hpos
    obtain ⟨htphase, htpoint, hparams, htfifo⟩ := readBody_of_queued hne hqueued ht
    rw [aligned_stream_iff (not_holdsPrefix htphase (by simp [htpoint])), hparams, htfifo,
      State.dropOldest_fifo hp hqueued, hfifo, List.drop_left' hlen]
    exact hrest

/-- Step 4: a command leaves the queue. -/
theorem Aligned.commandEnds {s t : State} (h : Aligned s) (hd : s.consumer.point = .dispatch)
    (hends : CommandEnds s t) : Aligned t := by
  obtain ⟨⟨hparams, -, hqueue, hphase, hneed, -, -, -, -, hepoch⟩, hpoint⟩ := hends
  refine h.moves (by simp [hd]) (fun head => ?_) hphase hneed hparams (State.fifo_congr hqueue hparams hepoch)
  obtain hpoint | hpoint := hpoint <;> simp [hpoint]

/-! ### `RX` (R130, R141) -/

theorem beBytes_be32 (b1 b2 b3 b4 : Byte) : beBytes (be32 b1 b2 b3 b4) = [b1, b2, b3, b4] := by
  simp only [beBytes, List.cons.injEq, and_true, ← BitVec.toNat_inj, BitVec.extractLsb'_toNat,
    Nat.shiftRight_eq_div_pow, be32_toNat]
  omega

theorem State.bufRange_add (s : State) (m n : Nat) :
    s.bufRange (m + n) = s.bufRange m ++ (List.range n).map fun i => s.readBuf (m + i) := by
  simp [State.bufRange, List.range_add]

/-- In `Crc` the bytes received are the body of a frame of the received length (R24, R64, R80). -/
theorem exists_frameBody_of_crc {s : State} (hheld : frameHeld s = true) (hst : s.parser.st = .crc)
    (hlow : 2 ≤ s.parser.len.toNat) : ∃ command payload,
      s.bufRange (s.parser.len.toNat + 4) = frameBody command payload ∧ payload.length + 2 = s.parser.len.toNat := by
  obtain ⟨-, hsof, hlen⟩ := (frameHeld_iff s).mp hheld
  replace hsof := hsof.resolve_left (by simp [hst])
  simp only [lengthHeld, hst] at hlen
  obtain ⟨n, hn⟩ := Nat.exists_eq_add_of_le' hlow
  have hfield : BitVec.ofNat 32 (n + 2) = s.parser.len := by rw [← hn, BitVec.ofNat_toNat, BitVec.setWidth_eq]
  refine ⟨s.readBuf 5, (List.range n).map fun i => s.readBuf (6 + i), ?_, ?_⟩
  · rw [show s.parser.len.toNat + 4 = 6 + n by omega, State.bufRange_add, frameBody, List.length_map,
      List.length_range, hfield, hlen, beBytes_be32, ← hsof]
    rfl
  · rw [List.length_map, List.length_range, hn]

/-- In `Crc` the bytes received and their CRC are a valid frame (R80, R82). -/
theorem validFrame_of_crc {s : State} (hinv : parserInv s = true) (hheld : frameHeld s = true)
    (hst : s.parser.st = .crc) :
    ValidFrame s.params.maxFrame (s.bufRange (s.parser.len.toNat + 4) ++ [s.frameCrc]) := by
  obtain ⟨-, hrange⟩ : _ ∧ lengthInRange s.params.maxFrame s.parser.len = true := by
    simpa [parserInv, hst] using hinv
  obtain ⟨hlow, hhigh⟩ := (lengthInRange_iff _ _).mp hrange
  obtain ⟨command, payload, hbody, hlen⟩ := exists_frameBody_of_crc hheld hst hlow.le
  exact ⟨command, payload, by rw [State.frameCrc, hbody, frameBytes], hlen ▸ hlow, hlen ▸ hhigh⟩

/-- A byte that completes no frame moves the parser's sequencing state alone. -/
theorem rxRow_sequencingOnly {b : Byte} {t : State} (h : t.parser.st = .crc → b ≠ t.frameCrc) :
    SequencingOnly t (rxRow b t) := by
  cases hst : t.parser.st <;> simp only [rxRow, hst]
  case' crc => rw [if_neg (h hst)]
  case' length0 => rw [rowLen0_eq]
  case' header | length3 | data => split
  all_goals exact ⟨⟨rfl, rfl, rfl, rfl, rfl, rfl, rfl, rfl⟩, rfl⟩

/-- `PUT` of a whole frame keeps alignment, unless it overflows while the consumer holds a prefix (R246). -/
theorem Aligned.putEffect {s t : State} {frame : List Byte} (h : Aligned s) (hput : PutEffect s t frame)
    (hvalid : ValidFrame s.params.maxFrame frame) (hconsumer : t.consumer = s.consumer)
    (hparams : t.params = s.params) (hkept : frame.length ≤ s.freeSpace ∨ ¬ HoldsPrefix s) : Aligned t := by
  obtain ⟨hfits, hdropped, hkeptNew⟩ := hput
  by_cases hroom : frame.length ≤ s.freeSpace
  · exact h.append hconsumer hparams (hfits hroom).1 (.of_validFrame hvalid)
  · have hlong := Nat.lt_of_not_le hroom
    have hfree : ¬ HoldsPrefix t := by
      rw [HoldsPrefix, hconsumer]
      exact hkept.resolve_left hroom
    rw [aligned_stream_iff hfree, hparams]
    by_cases hnew : s.params.overflowKeepsNew = true ∧ frame.length ≤ s.params.fifoCapacity
    · rw [(hkeptNew hlong hnew.1 hnew.2).1]
      exact .of_validFrame hvalid
    · rw [(hdropped hlong (by simpa [-not_and, not_and_or] using hnew)).1]
      exact FrameStream.nil _

/-- `RX` puts a whole valid frame, or does not touch the queue. -/
theorem Aligned.rxByte {b : Byte} {s t : State} (hs : Sides s) (h : Aligned s) (ht : rxByte b s = .next t)
    (hkept : NextFrameFits s ∨ ¬ HoldsPrefix s) : Aligned t := by
  obtain ⟨hr, hpair, hc, rfl⟩ := rxByte_next_iff.mp ht
  by_cases hcrc : s.parser.st = .crc ∧ b = s.frameCrc
  · obtain ⟨hst, rfl⟩ := hcrc
    have hcur := (pairOk_crc_iff hst).mp hpair
    have hvalid := validFrame_of_crc hs.parser.table hs.parser.held hst
    obtain ⟨u, hu, -, -, hput, -, hconsumer, -, hparams, -⟩ :=
      crcOkEnqueuesTheFrame s.frameCrc s hr hs.queue.queueOk hst hcur hc rfl
    have hrx := rxAll_of_exec rfl hu
    rw [rxAll_singleton, ht] at hrx
    cases hrx
    have hlen : (s.bufRange (s.parser.len.toNat + 4) ++ [s.frameCrc]).length = s.parser.len.toNat + 5 := by
      simp [State.bufRange]
    exact h.putEffect hput hvalid hconsumer hparams (hkept.imp_left fun hfits => hlen.trans_le (hfits hst))
  · have hmiss : (s.storeByte b).parser.st = .crc → b ≠ (s.storeByte b).frameCrc := by
      intro hst
      rw [storeByte_frameCrc_of_crc (s := s) b hst hpair]
      exact fun hb => hcrc ⟨hst, hb⟩
    obtain ⟨⟨hqueue, hconsumer, -, hparams, -, -, hepoch, -⟩, -⟩ := rxRow_sequencingOnly hmiss
    have hfifo : (rxRow b (s.storeByte b)).fifo = s.fifo := State.fifo_congr hqueue hparams hepoch
    exact h.append hconsumer hparams (by simpa using hfifo) (FrameStream.nil _)

/-- Settles O58: each step of `ITER` takes a prefix, a body or nothing from the front (or empties the queue), and `RX`
puts a whole valid frame or nothing behind. -/
theorem queueStaysAlignedWithFrames : Obligations.QueueStaysAlignedWithFrames := by
  intro i s t hinv h hexec hi
  have hs := (inv_iff_sides s).mp hinv
  obtain rfl | rfl | rfl | rfl | rfl | ⟨b, rfl, hkept⟩ := hi
  · obtain ⟨-, ⟨hphase, hpoint⟩, ht⟩ := iterEntry_next_iff.mp hexec
    cases ht
    exact h.readPrefix hs.wellFormed hphase hpoint
  · obtain ⟨head, hpoint, rfl⟩ := execIterValidate_next hexec
    exact h.validatePrefix (wantPrefix_of_point hs.consumer.loop (by simp [hpoint]) (by simp [hpoint])) hpoint
  · obtain ⟨-, ⟨hphase, hpoint⟩, ht⟩ := iterEntry_next_iff.mp hexec
    exact h.readBody hs.wellFormed hphase hpoint ht
  · obtain ⟨-, hpoint, ht⟩ := iterEntry_next_iff.mp hexec
    exact h.commandEnds hpoint (runCommand_commandEnds ht)
  · obtain ⟨hpoint, rfl⟩ := execIterYield_next hexec
    exact h.moves (by simp [hpoint]) nofun rfl rfl rfl rfl
  · exact h.rxByte hs hexec hkept

end Sys2Proof.Machine
end

section
/-! PROOFS. The commands (43_consumer_dispatch, R185, R187 to R196): step 4 runs the command that `scratch[0]` names,
and each command is its calls and then the way to step 5. -/

namespace Sys2Proof.Machine

/-! ### The rows of R84 -/

/-- Settles O39: a running state passes the guard, and behind it stands the one call. -/
theorem ackSendsOneByte : Obligations.AckSendsOneByte := fun _ hr => whenRunning_of_running hr _

/-- Settles O34: two calls, and the way to step 5. -/
theorem setBrightnessSetsTheBacklightAndAcks : Obligations.SetBrightnessSetsTheBacklightAndAcks := by
  intro s hr hd hop
  exact ⟨_, commandEntry_of_selected hr hd (beq_iff_eq.mpr hop) _, rfl, rfl, (call_commandDone_commandEnds s _).1, rfl⟩

/-- Settles O35: by the length test; a short body leaves the way to step 5 alone. -/
theorem clearScreenFillsOrIgnores : Obligations.ClearScreenFillsOrIgnores := by
  intro s hr hd hop
  refine ⟨_, commandEntry_of_selected hr hd (beq_iff_eq.mpr hop) _, ?_⟩
  by_cases hneed : 5 ≤ s.consumer.need.toNat
  · rw [doClearScreen, if_pos hneed, if_pos hneed]
    exact ⟨rfl, (call_commandDone_commandEnds s _).1, rfl, rfl⟩
  · rw [doClearScreen, if_neg hneed, if_neg hneed]
    exact ⟨rfl, (commandDone_commandEnds s).1, rfl, (List.append_nil _).symm⟩

/-- The literal's three bytes, one by one (R191). -/
theorem threeOperands_eq_felLiteral_iff (s : State) : s.threeOperands = felLiteral ↔
    s.readScratch 1 = 0x46 ∧ s.readScratch 2 = 0x45 ∧ s.readScratch 3 = 0x4C := by
  simp [State.threeOperands, felLiteral]

/-- Settles O37: the model compares three bytes at once; then by the test. -/
theorem rebootNeedsItsLiteralAndAcksFirst : Obligations.RebootNeedsItsLiteralAndAcksFirst := by
  intro s hr hd hop
  refine ⟨_, commandEntry_of_selected hr hd (beq_iff_eq.mpr hop) _, (doRebootToFel_commandEnds s).1, ?_⟩
  simp only [doRebootToFel, threeOperands_eq_felLiteral_iff]
  split <;> exact ⟨rfl, rfl, rfl⟩

theorem exec_unknownCmd {op : Byte} {s : State} (hr : Running s) (hd : s.consumer.point = .dispatch)
    (hop : s.readScratch 0 = op) (h : op ∉ knownOpcodes) : exec (.unknownCmd op) s = .next (doUnknown s) := by
  refine commandEntry_of_selected hr hd ?_ _
  simpa [State.opcode, hop] using h

/-- Settles O38: the row's condition is the opcode's absence from R84's table, and its effect the way to step 5. -/
theorem unknownOpcodeIsIgnored : Obligations.UnknownOpcodeIsIgnored := by
  intro op s hr hd hop h1 h2 h3 h4 h5
  have hunknown : op ∉ knownOpcodes := by simpa [knownOpcodes] using ⟨h1, h2, h3, h4, h5⟩
  exact ⟨_, exec_unknownCmd hr hd hop hunknown, rfl, rfl, (commandDone_commandEnds s).1, rfl⟩

/-! ### The blits (R189, R190) -/

/-- A body that fits `SCRATCH` lets the decoder be called. -/
theorem blitEntry_of_need_le {s : State} (hfit : s.consumer.need.toNat ≤ s.params.maxFrame) (decode : Call)
    (result : Option Surface) : blitEntry decode result s = .next (doBlit decode result s) :=
  if_neg (Nat.not_lt.mpr hfit)

theorem doBlit_point (decode : Call) (result : Option Surface) (s : State) :
    (doBlit decode result s).consumer.point = .yield := by
  cases result <;> rfl

theorem doBlit_draws (decode : Call) (result : Option Surface) (s : State) :
    (doBlit decode result s).draws = s.draws + 1 := by
  cases result <;> rfl

/-- The decoder's call is made in any case, the others only for a surface. -/
theorem doBlit_calls (decode : Call) (result : Option Surface) (s : State) :
    (doBlit decode result s).calls = s.calls ++ [decode] ++ (result.map (blitCalls s.params)).getD [] := by
  cases result
  · exact (List.append_nil _).symm
  · exact (List.append_assoc s.calls [decode] _).symm

/-- Both blits are one operation, but for the row's condition and the decoder that is called. -/
theorem exec_blit {s : State} {jpg : Bool} (hr : Running s) (hd : s.consumer.point = .dispatch)
    (hop : s.readScratch 0 = if jpg then 0x03 else 0x04) (hfit : s.consumer.need.toNat ≤ s.params.maxFrame) :
    exec (if jpg then .blitJpg else .blitPng) s = .next (doBlit
      (if jpg then .jpegDecode s.imageStream else .pngDecode s.imageStream) (Config.decodeDraw s.draws) s) := by
  cases jpg <;> exact (commandEntry_of_selected hr hd (beq_iff_eq.mpr hop) _).trans (blitEntry_of_need_le hfit _ _)

/-- Settles O36: the blit's one operation, on the stream that stands in `scratch`. -/
theorem blitsShowTheImageOnlyWhenItDecodes : Obligations.BlitsShowTheImageOnlyWhenItDecodes := by
  intro s jpg hr hd hop hfit
  obtain ⟨honly, -⟩ := blitEntry_commandEnds (blitEntry_of_need_le hfit
    (if jpg then .jpegDecode s.imageStream else .pngDecode s.imageStream) (Config.decodeDraw s.draws))
  refine ⟨_, s.imageStream, exec_blit hr hd hop hfit, doBlit_point _ _ s, honly, doBlit_draws _ _ s, ?length, ?bytes,
    ?calls⟩
  case length =>
    rw [State.imageStream, List.length_map, List.length_range, State.streamLength]
    split <;> rfl
  case bytes =>
    intro i hi
    rw [List.getElem?_eq_getElem hi]
    simp [State.imageStream]
  case calls =>
    rw [doBlit_calls]
    cases Config.decodeDraw s.draws <;> rfl

/-! ### The centered origin (R196) -/

theorem halve_of_nonneg (r : Rounding) {d : Int} (hd : 0 ≤ d) : halve r d = d / 2 := by
  cases r
  · exact Int.tdiv_eq_ediv_of_nonneg hd
  · exact Int.fdiv_eq_ediv_of_nonneg d (by omega)

theorem halve_two_mul (r : Rounding) (k : Int) : halve r (2 * k) = k := by
  cases r
  · exact Int.mul_tdiv_cancel_left k (by omega)
  · exact Int.mul_fdiv_cancel_left k (by omega)

/-- The two roundings differ on a negative odd number, and only there. -/
theorem halve_odd_of_neg (r : Rounding) {k : Int} (hk : k < 0) :
    halve r (2 * k + 1) = if r = .towardZero then k + 1 else k := by
  cases r
  · change (2 * k + 1).tdiv 2 = k + 1
    have hsign : Int.sign 2 = 1 := rfl
    rw [Int.tdiv_eq_ediv, if_neg (by omega), hsign]
    omega
  · change (2 * k + 1).fdiv 2 = k
    rw [Int.fdiv_eq_ediv_of_nonneg _ (by omega)]
    omega

/-- Settles O40: half of a difference that is not negative, of an even one, and of a negative odd one. -/
theorem centeringHalvesTheSignedDifference : Obligations.CenteringHalvesTheSignedDifference := by
  intro r screen image
  refine ⟨fun hle => ?_, fun k hk => ?_, fun k hk hneg => ?_⟩
  · rw [centered, halve_of_nonneg r (by omega)]
    omega
  · rw [centered, hk, halve_two_mul]
  · rw [centered, hk, halve_odd_of_neg r hneg]

/-! ### Step 4 (R185) -/

/-- The command that `scratch[0]` names is the case that step 4 takes. -/
theorem exec_decodeCommand {s : State} (hr : Running s) (hd : s.consumer.point = .dispatch) :
    exec (decodeCommand (s.readScratch 0)) s = runCommand (s.readScratch 0) s := by
  generalize hop : s.readScratch 0 = op
  unfold decodeCommand runCommand
  split_ifs with h1 h2 h3 h4 h5
  case neg => exact exec_unknownCmd hr hd hop (by simpa [knownOpcodes] using ⟨h1, h2, h3, h4, h5⟩)
  all_goals exact commandEntry_of_selected hr hd (beq_iff_eq.mpr (hop.trans ‹_›)) _

theorem exists_runCommand_next {s : State} (hfit : s.consumer.need.toNat ≤ s.params.maxFrame) (op : Byte) :
    ∃ t, runCommand op s = .next t := by
  cases h : runCommand op s with
  | next t => exact ⟨t, rfl⟩
  | fault f => exact absurd hfit (Nat.not_le.mpr (runCommand_fault h))
  | refused r => exact absurd h (runCommand_ne_refused op s r)

theorem blitEntry_next {decode : Call} {result : Option Surface} {s t : State}
    (h : blitEntry decode result s = .next t) : t = doBlit decode result s := by
  unfold blitEntry at h
  split at h <;> cases h
  rfl

/-- Only `REBOOT_TO_FEL` does not come to step 5. -/
theorem runCommand_yields {op : Byte} {s t : State} (hop : op ≠ 0xFE) (h : runCommand op s = .next t) :
    t.consumer.point = .yield := by
  unfold runCommand at h
  split_ifs at h
  · cases h
    rfl
  · cases h
    unfold doClearScreen
    split <;> rfl
  · rw [blitEntry_next h, doBlit_point]
  · rw [blitEntry_next h, doBlit_point]
  · cases h
    rfl

/-- Step 4 at its place, whatever command it takes. -/
theorem exec_iterDispatch {s : State} (hr : Running s) (hd : s.consumer.point = .dispatch) :
    exec .iterDispatch s = runCommand (s.readScratch 0) s := iterEntry_of_here hr hd _

/-- Settles O32: step 4 and the command that `scratch[0]` names take the same case, which answers for every body that
fits. -/
theorem iterDispatchRunsTheNamedCommand : Obligations.IterDispatchRunsTheNamedCommand := by
  intro s hr hd
  rw [exec_iterDispatch hr hd]
  refine ⟨(exec_decodeCommand hr hd).symm, fun hfit => ?_⟩
  obtain ⟨t, ht⟩ := exists_runCommand_next hfit (s.readScratch 0)
  obtain ⟨honly, hpoint⟩ := runCommand_commandEnds ht
  refine ⟨t, ht, honly, ?_⟩
  by_cases hop : s.readScratch 0 = 0xFE
  · exact hpoint.imp_right (⟨·, hop⟩)
  · exact .inl (runCommand_yields hop ht)

end Sys2Proof.Machine
end

section
/-! PROOFS. What an instruction does to the consumer and its calls (10_state, R20, R32; 43_consumer_dispatch, R181 to
R193): the producer's and the port's instructions leave them, and of the rest only a dispatched command acknowledges. -/

namespace Sys2Proof.Machine

/-! ### The instructions, by what they do to the consumer -/

/-- The consumer stays where it is, with everything it has called. -/
def ConsumerRests (s t : State) : Prop := t.consumer = s.consumer ∧ t.calls = s.calls

theorem ConsumerKept.consumerRests {s t : State} (h : ConsumerKept s t) : ConsumerRests s t := by
  obtain ⟨hconsumer, -, -, hcalls, -⟩ := h
  exact ⟨hconsumer, hcalls⟩

theorem QueueOnly.consumerRests {s t : State} (h : QueueOnly s t) : ConsumerRests s t := by
  obtain ⟨-, hconsumer, -, hcalls, -⟩ := h
  exact ⟨hconsumer, hcalls⟩

/-- Everything that an instruction can do to the consumer and its calls. -/
inductive ConsumerEffect (s t : State) : Instr → Prop
  | rests {i : Instr} (h : ConsumerRests s t) : ConsumerEffect s t i
  | acks (h : t = s.call [ackCall]) : ConsumerEffect s t .ack
  | restarts (h : t = hardwareReset s) : ConsumerEffect s t .hreset
  | readsPrefix (hpoint : s.consumer.point = .read) (h : t = readPrefix s) : ConsumerEffect s t .iterPrefix
  | validates {head : FrameHead} (hpoint : s.consumer.point = .validate head) (h : t = validatePrefix head s) :
      ConsumerEffect s t .iterValidate
  | readsBody (hpoint : s.consumer.point = .read) (h : readBody s = .next t) : ConsumerEffect s t .iterBody
  | runsCommand {i : Instr} (hpoint : s.consumer.point = .dispatch) (h : runCommand s.opcode s = .next t) :
      ConsumerEffect s t i
  | yields (hpoint : s.consumer.point = .yield) (h : t = (s.call [.yield]).goToPoint .read) :
      ConsumerEffect s t .iterYield

theorem exec_consumerEffect {i : Instr} {s t : State} (h : exec i s = .next t) : ConsumerEffect s t i := by
  cases i
  case nop | crcStep | crcTabgen | crcSum =>
    rw [whenRunning_next h]
    exact .rests ⟨rfl, rfl⟩
  case reserved110 => cases (whenRunning_next_iff.mp h).2
  case ack => exact .acks (whenRunning_next h)
  case hreset => exact .restarts (execHreset_next h).2
  case get want =>
    rw [whenRunning_next h]
    exact .rests (getBlock_queueOnly want s).consumerRests
  case getShort want =>
    rw [whenRunning_next (execGet_of_execGetShort h)]
    exact .rests (getBlock_queueOnly want s).consumerRests
  case put bytes =>
    rw [whenRunning_next h]
    exact .rests (putBlock_queueOnly bytes s).consumerRests
  case putOverflow bytes =>
    rw [whenRunning_next (execPut_of_execPutOverflow h)]
    exact .rests (putBlock_queueOnly bytes s).consumerRests
  case reset =>
    rw [whenRunning_next h]
    exact .rests ⟨rfl, rfl⟩
  case iterPrefix =>
    obtain ⟨-, ⟨-, hpoint⟩, ht⟩ := iterEntry_next_iff.mp h
    cases ht
    exact .readsPrefix hpoint rfl
  case iterValidate =>
    obtain ⟨head, hpoint, ht⟩ := execIterValidate_next h
    exact .validates hpoint ht
  case iterBody =>
    obtain ⟨-, ⟨-, hpoint⟩, ht⟩ := iterEntry_next_iff.mp h
    exact .readsBody hpoint ht
  case iterDispatch =>
    obtain ⟨-, hpoint, ht⟩ := iterEntry_next_iff.mp h
    exact .runsCommand hpoint ht
  case iterYield =>
    obtain ⟨hpoint, ht⟩ := execIterYield_next h
    exact .yields hpoint ht
  case setBrightness | clearScreen | blitJpg | blitPng | rebootToFel | unknownCmd =>
    obtain ⟨hpoint, ht⟩ := runCommand_of_exec rfl h
    exact .runsCommand hpoint ht
  all_goals exact .rests (rxAll_consumerKept (rxAll_of_exec rfl h)).consumerRests

/-! ### Acknowledgements (R193) -/

theorem acks_of_calls_eq {s t : State} (h : t.calls = s.calls) : acks t = acks s := by rw [acks, h, acks]

theorem acks_of_calls_append {s t : State} {cs : List Call} (h : t.calls = s.calls ++ cs) :
    acks t = acks s + cs.count ackCall := by rw [acks, h, List.count_append, acks]

theorem doBlit_acks {decode : Call} (hdecode : decode ≠ ackCall) (result : Option Surface) (s : State) :
    acks (doBlit decode result s) = acks s ∨ acks (doBlit decode result s) = acks s + 1 := by
  have hcalls := acks_of_calls_append ((doBlit_calls decode result s).trans (List.append_assoc ..))
  rw [List.singleton_append, List.count_cons_of_ne hdecode] at hcalls
  cases result with
  | none => exact .inl hcalls
  | some x => exact .inr hcalls

/-- Every command acknowledges at most once (R193). -/
theorem runCommand_acks {op : Byte} {s t : State} (h : runCommand op s = .next t) :
    acks t = acks s ∨ acks t = acks s + 1 := by
  unfold runCommand at h
  split_ifs at h
  · cases h
    exact .inr (acks_of_calls_append (cs := [.backlightSet _, ackCall]) rfl)
  · cases h
    unfold doClearScreen
    split
    · exact .inr (acks_of_calls_append (cs := [.screenFillOpaque _ _ _, .present, ackCall]) rfl)
    · exact .inl rfl
  · rw [blitEntry_next h]
    exact doBlit_acks (decode := .jpegDecode _) nofun _ s
  · rw [blitEntry_next h]
    exact doBlit_acks (decode := .pngDecode _) nofun _ s
  · cases h
    unfold doRebootToFel
    split
    · exact .inr (acks_of_calls_append (cs := [ackCall, .rebootToBootloader]) rfl)
    · exact .inl rfl
  · cases h
    exact .inl rfl

theorem readPrefix_calls (s : State) : (readPrefix s).calls = s.calls := by
  obtain ⟨p, e, -⟩ := readPrefix_cases s
  rw [e]
  exact (getBlock_queueOnly 5 s).consumerRests.2

theorem validatePrefix_calls (head : FrameHead) (s : State) : (validatePrefix head s).calls = s.calls := by
  unfold validatePrefix
  split <;> rfl

theorem readBody_calls {s t : State} (h : readBody s = .next t) : t.calls = s.calls := by
  obtain rfl | ⟨-, rfl⟩ := readBody_cases h <;> exact (getBlock_queueOnly _ s).consumerRests.2

/-- Settles O41: only a command acknowledges, and it leaves step 4. -/
theorem atMostOneAckPerCommand : Obligations.AtMostOneAckPerCommand := by
  intro i s t h hi
  cases exec_consumerEffect h with
  | rests hrests => exact .inl (acks_of_calls_eq hrests.2)
  | acks => exact absurd rfl hi
  | restarts ht =>
    rw [ht]
    exact .inl rfl
  | readsPrefix _ ht =>
    rw [ht]
    exact .inl (acks_of_calls_eq (readPrefix_calls s))
  | validates _ ht =>
    rw [ht]
    exact .inl (acks_of_calls_eq (validatePrefix_calls _ s))
  | readsBody _ hbody => exact .inl (acks_of_calls_eq (readBody_calls hbody))
  | runsCommand hd hrun =>
    refine (runCommand_acks hrun).imp_right fun hone => ⟨hone, hd, ?_⟩
    obtain ⟨-, hpoint | hpoint⟩ := runCommand_commandEnds hrun <;> simp [hpoint]
  | yields _ ht =>
    rw [ht]
    exact .inl (acks_of_calls_append (cs := [.yield]) rfl)

end Sys2Proof.Machine
end

section
/-! PROOFS. The steps of `ITER` around the command (43_consumer_dispatch, R182 to R184, R186; 70_reset_and_hazards,
R250), each at its place: what it takes from the queue, and where the consumer goes on. -/

namespace Sys2Proof.Machine

/-! ### Step 1 (R182) -/

theorem exec_iterPrefix {s : State} (hr : Running s) (hphase : s.consumer.phase = .wantPrefix)
    (hpoint : s.consumer.point = .read) : exec .iterPrefix s = .next (readPrefix s) :=
  iterEntry_of_here hr ⟨hphase, hpoint⟩ _

/-- Five bytes are a prefix, whatever the marker (R182). -/
theorem exists_head_of_five_le {bytes : List Byte} (h : 5 ≤ bytes.length) :
    ∃ (head : FrameHead) (rest : List Byte), bytes = head.bytes ++ rest := by
  match bytes, h with
  | m :: l1 :: l2 :: l3 :: l4 :: rest, _ => exact ⟨⟨m, l1, l2, l3, l4⟩, rest, rfl⟩

/-- Settles O29: the five oldest bytes are a prefix, or the queue is too short for `GET 5`. -/
theorem iterPrefixReadsFiveBytesOrYields : Obligations.IterPrefixReadsFiveBytesOrYields := by
  intro s hr hphase hpoint
  refine ⟨fun hcnt => ?queued, fun hcnt => ?short⟩
  case queued =>
    obtain ⟨head, rest, hfifo⟩ := exists_head_of_five_le (s.fifo_length.symm ▸ hcnt)
    have hexec := exec_iterPrefix hr hphase hpoint
    have htake : head.bytes = s.fifo.take 5 := by rw [hfifo]; rfl
    rw [readPrefix_of_head hfifo, htake] at hexec
    exact ⟨_, head, hexec, rfl, htake, State.dropOldest_fifo (want := 5) hr.1 hcnt, rfl, rfl, ⟨rfl, rfl, rfl⟩, rfl, rfl,
      rfl, rfl, rfl, rfl, rfl⟩
  case short =>
    have hexec := exec_iterPrefix hr hphase hpoint
    rw [readPrefix_of_short hcnt] at hexec
    exact ⟨_, hexec, rfl, rfl, rfl, ⟨rfl, rfl, rfl⟩, rfl, rfl, rfl, rfl, rfl, rfl, rfl⟩

/-! ### Step 2 (R183) -/

theorem exec_iterValidate {s : State} {head : FrameHead} (hr : Running s)
    (hpoint : s.consumer.point = .validate head) : exec .iterValidate s = .next (validatePrefix head s) := by
  simp only [exec, execIterValidate, hpoint, whenRunning_of_running hr]

/-- Settles O30: by the test of R183. -/
theorem iterValidateKeepsTheLengthOrResets : Obligations.IterValidateKeepsTheLengthOrResets := by
  intro s head hr hpoint
  refine ⟨_, exec_iterValidate hr hpoint, ?_⟩
  have htest := bodyLengthOk_iff s.params (be32 head.l1 head.l2 head.l3 head.l4)
  by_cases hok : bodyLengthOk s.params head.length = true
  · rw [validatePrefix, if_pos hok, if_pos (htest.mp hok)]
    exact ⟨rfl, rfl, rfl, ⟨rfl, rfl, rfl, rfl, rfl⟩, rfl, rfl, rfl, rfl, rfl⟩
  · rw [validatePrefix, if_neg hok, if_neg (mt htest.mpr hok)]
    exact ⟨rfl, rfl, rfl, ⟨rfl, rfl, rfl, rfl, rfl⟩, State.emptyQueue_fifo s, rfl, rfl, rfl, rfl, rfl⟩

/-! ### Step 3 (R184) -/

theorem exec_iterBody {s : State} (hr : Running s) (hphase : s.consumer.phase = .wantBody)
    (hpoint : s.consumer.point = .read) : exec .iterBody s = readBody s :=
  iterEntry_of_here hr ⟨hphase, hpoint⟩ _

/-- The body is queued and fits `SCRATCH`. -/
theorem readBody_of_fits {s : State} (hpos : 0 < s.consumer.need.toNat)
    (hfit : s.consumer.need.toNat ≤ s.params.maxFrame) (hcnt : s.consumer.need.toNat ≤ s.queue.cnt.toNat) :
    readBody s = .next (((s.dropOldest s.consumer.need).withRet
      (.got s.consumer.need (s.fifo.take s.consumer.need.toNat))).withConsumer { s.consumer with
        scratch := s.consumer.scratch.writeBlock 0 (s.fifo.take s.consumer.need.toNat),
        phase := .wantPrefix, point := .dispatch }) := by
  have hne : s.consumer.need ≠ 0 := fun h => by simp [h] at hpos
  simp only [readBody, getBlock_of_queued hcnt, if_neg hne, if_neg (Nat.not_lt.mpr hfit), State.oldest_eq_take hcnt]
  rfl

/-- `GET 0` answers 0 as a queue that is too short does, though its update runs (R163, R184). -/
theorem readBody_of_need_eq_zero {s : State} (h : s.consumer.need = 0) :
    readBody s = .next (((s.dropOldest 0).withRet (.got 0 [])).goToPoint .yield) := by
  rw [readBody, h, getBlock_of_queued (Nat.zero_le _)]
  rfl

/-- Settles O31: the body is moved, or `GET` answers 0, because too little is queued or nothing is asked for. -/
theorem iterBodyMovesTheBodyOrKeepsWaiting : Obligations.IterBodyMovesTheBodyOrKeepsWaiting := by
  intro s hr hphase hpoint
  rw [exec_iterBody hr hphase hpoint]
  refine ⟨fun hpos hfit hcnt => ?moved, fun h => ?waits⟩
  case moved =>
    have hread := Memory.read_writeBlock (s.fifo.take s.consumer.need.toNat) s.consumer.scratch 0
    have hlen : (s.fifo.take s.consumer.need.toNat).length = s.consumer.need.toNat := by simpa using hcnt
    refine ⟨_, readBody_of_fits hpos hfit hcnt, rfl, rfl, rfl, State.dropOldest_fifo hr.1 hcnt, rfl, rfl,
      fun i hi => ?_, fun i hi => ?_, rfl, rfl, rfl, rfl, rfl, rfl, rfl⟩
    · exact ((hread i).trans (if_pos (by omega))).trans (List.getElem?_take_of_lt hi)
    · exact (hread i).trans (if_neg (by omega))
  case waits =>
    obtain hshort | hzero := h
    · exact ⟨_, readBody_of_short hshort, rfl, rfl, rfl, rfl, ⟨rfl, rfl, rfl⟩, rfl, rfl, rfl, rfl, rfl, rfl, rfl⟩
    · exact ⟨_, readBody_of_need_eq_zero hzero, rfl, State.dropOldest_fifo (want := 0) hr.1 (Nat.zero_le _), rfl, rfl,
        ⟨rfl, rfl, rfl⟩, rfl, rfl, rfl, rfl, rfl, rfl, rfl⟩

/-! ### Step 5 (R186) -/

theorem exec_iterYield {s : State} (hr : Running s) (hpoint : s.consumer.point = .yield) :
    exec .iterYield s = .next ((s.call [.yield]).goToPoint .read) := iterEntry_of_here hr hpoint _

end Sys2Proof.Machine
end

section
/-! PROOFS. One whole frame through the consumer (43_consumer_dispatch, R182 to R187; 30_encoding, R80, R89;
95_test_vectors, S3): steps 1 to 3 take it, step 4 runs its command, step 5 yields. -/

namespace Sys2Proof.Machine

/-! ### A run of instructions -/

/-- A run goes on from where its first part comes to. -/
theorem execAll_append_of_next {x y : List Instr} {s t : State} (h : execAll x s = .next t) :
    execAll (x ++ y) s = execAll y t := by
  induction x generalizing s with
  | nil =>
    cases h
    rfl
  | cons i rest ih =>
    simp only [execAll] at h
    split at h
    case h_1 u hu =>
      rw [List.cons_append, execAll, hu]
      exact ih h
    all_goals cases h

theorem execAll_cons_of_next {i : Instr} {rest : List Instr} {s t : State} (h : exec i s = .next t) :
    execAll (i :: rest) s = execAll rest t := by
  rw [execAll, h]

/-- No run changes the parameters (R6, R226). -/
theorem execAll_params {x : List Instr} {s t : State} (h : execAll x s = .next t) : t.params = s.params := by
  induction x generalizing s with
  | nil =>
    cases h
    rfl
  | cons i rest ih =>
    simp only [execAll] at h
    split at h
    case h_1 u hu => exact (ih h).trans (theTwoSidesShareTheQueueAlone i s u hu).1
    all_goals cases h

theorem Running.of_params_eq {s t : State} (hr : Running s) (hparams : t.params = s.params)
    (hpoint : t.consumer.point ≠ .rebooting) : Running t := ⟨hparams ▸ hr.1, hpoint⟩

/-! ### Steps 1 to 3 (R182 to R184, R89) -/

/-- The first five bytes of a frame are its prefix, and declare the rest of it (R80). -/
theorem frameBytes_length_of_head {command : Byte} {payload rest : List Byte} {head : FrameHead}
    (h : payload.length + 2 < 2 ^ 32) (hhead : head.bytes = (frameBytes command payload ++ rest).take 5) :
    head.length.toNat = payload.length + 2 := by
  obtain ⟨l1, l2, l3, l4, hfield, hbody⟩ := frameBody_eq command payload
  simp only [frameBytes, hbody, FrameHead.bytes, List.cons_append, List.take_succ_cons, List.take_zero, List.cons.injEq,
    and_true] at hhead
  obtain ⟨-, h1, h2, h3, h4⟩ := hhead
  rw [FrameHead.length, h1, h2, h3, h4, hfield, lengthField_toNat h]

/-- Settles O59: step 1 takes the prefix, whose length passes step 2's test, and step 3 takes the bytes it declares. -/
theorem consumerTakesOneWholeFrame : Obligations.ConsumerTakesOneWholeFrame := by
  intro command payload rest s hr hq hphase hpoint hpos hmax hfifo
  have hm := wellFormed_maxFrame hr.1
  have hlen := frameBytes_length command payload
  have hcnt : s.queue.cnt.toNat = payload.length + 7 + rest.length := by
    rw [← State.fifo_length, hfifo, List.length_append, hlen]
  obtain ⟨t1, head, h1, hpoint1, hhead, hfifo1, -, -, -, hparser1, htrace1, hparams1, hcalls1, -⟩ :=
    (iterPrefixReadsFiveBytesOrYields s hr hphase hpoint).1 (by omega)
  have hr1 := hr.of_params_eq hparams1 (by simp [hpoint1])
  have hlc := frameBytes_length_of_head (by omega) (hfifo ▸ hhead)
  obtain ⟨t2, h2, -, hparser2, -, ⟨hparams2, hcalls2, -, hepoch2, -⟩, hkept⟩ :=
    iterValidateKeepsTheLengthOrResets t1 head hr1 hpoint1
  have htest : 0 < head.length.toNat ∧ head.length.toNat < t1.params.maxFrame ∧
      head.length.toNat ≤ t1.params.fifoCapacity := by
    have hle := hq.2
    rw [hparams1, hlc]
    omega
  obtain ⟨hneed2, hphase2, hpoint2, hqueue2, htrace2⟩ := (if_pos htest).mp hkept
  have hr2 := hr1.of_params_eq hparams2 (by simp [hpoint2])
  have hfifo2 : t2.fifo = (frameBytes command payload ++ rest).drop 5 := by
    rw [State.fifo_congr hqueue2 hparams2 hepoch2, hfifo1, hfifo]
  have hneed : t2.consumer.need.toNat = payload.length + 2 := (congrArg BitVec.toNat hneed2).trans hlc
  have hcnt2 : t2.queue.cnt.toNat = payload.length + 2 + rest.length := by
    rw [← State.fifo_length, hfifo2, List.length_drop, List.length_append, hlen]
    omega
  obtain ⟨t, h3, hphase3, hpoint3, hneed3, hfifo3, -, -, hscratch, -, hparser3, htrace3, -, hcalls3, -⟩ :=
    (iterBodyMovesTheBodyOrKeepsWaiting t2 hr2 hphase2 hpoint2).1 (by omega) (by rw [hparams2, hparams1]; omega)
      (by omega)
  refine ⟨t, ?run, ?fifo, hpoint3, hphase3, by rw [hneed3, hneed], fun i hi => ?scratch,
    hparser3.trans (hparser2.trans hparser1), hcalls3.trans (hcalls2.trans hcalls1),
    htrace3.trans (htrace2.trans htrace1)⟩
  case run => rw [execAll_cons_of_next h1, execAll_cons_of_next h2, execAll_cons_of_next h3, execAll]
  case fifo =>
    rw [hfifo3, hfifo2, hneed, List.drop_drop]
    exact List.drop_left' (by omega)
  case scratch =>
    rw [hscratch i (by omega), hfifo2, List.getElem?_drop, List.getElem?_append_left (by omega), Nat.add_comm]

/-! ### The whole iteration (S3) -/

theorem CommandOnly.fifo_eq {s t : State} (h : CommandOnly s t) : t.fifo = s.fifo := by
  obtain ⟨hparams, -, hqueue, -, -, -, -, -, -, hepoch⟩ := h
  exact State.fifo_congr hqueue hparams hepoch

theorem readScratch_of_read {s : State} {i : Nat} {b : Byte} (h : s.consumer.scratch.read i = some b) :
    s.readScratch i = b := by
  rw [State.readScratch, h, Option.getD_some]

/-- A block that fits an empty queue leaves it well-formed, with that block alone (R160). -/
theorem PutEffect.of_empty {s t : State} {bytes : List Byte} (h : PutEffect s t bytes) (hq : QueueOk s)
    (hempty : s.fifo = []) (hparams : t.params = s.params) (hfit : bytes.length ≤ s.params.fifoCapacity) :
    QueueOk t ∧ t.fifo = bytes := by
  have hcnt : s.queue.cnt.toNat = 0 := by rw [← State.fifo_length, hempty, List.length_nil]
  obtain ⟨hfifo, hrd, hcnt', -⟩ := h.1 (by rw [State.freeSpace, hcnt]; exact hfit)
  rw [QueueOk, hparams, hrd, hcnt', hcnt, Nat.zero_add]
  exact ⟨⟨hq.1, hfit⟩, by rw [hfifo, hempty, List.nil_append]⟩

/-- Settles O60: the frame stands alone in the queue, steps 1 to 3 take it, and its command and the yield are all that
is called. -/
theorem brightnessFrameYieldsOneAck : Obligations.BrightnessFrameYieldsOneAck := by
  intro level s hr hq hst hcur hempty hphase hpoint hmax hcap
  obtain ⟨u, hframe, ⟨hst1, hcur1, hlen1⟩, hput, -, -, -, hconsumer, -, hparams, hcalls, -⟩ :=
    wholeFrameIsEnqueuedOnce 0x01 [level] s hr hq hst hcur le_rfl hmax
  obtain ⟨hq1, hfifo⟩ := hput.of_empty hq hempty hparams hcap
  rw [← hconsumer] at hphase hpoint
  have hr1 := hr.of_params_eq hparams (by simp [hpoint])
  obtain ⟨v, hsteps, hfifo2, hpoint2, hphase2, -, hscratch, hparser2, hcalls2, -⟩ :=
    consumerTakesOneWholeFrame 0x01 [level] [] u hr1 hq1 hphase hpoint le_rfl (hparams ▸ hmax) (by simpa using hfifo)
  have hr2 := hr1.of_params_eq (execAll_params hsteps) (by simp [hpoint2])
  have hopcode : v.readScratch 0 = 0x01 := readScratch_of_read (hscratch 0 (by simp))
  have hlevel : v.readScratch 1 = level := readScratch_of_read (hscratch 1 (by simp))
  have hdispatch := (iterDispatchRunsTheNamedCommand v hr2 hpoint2).1
  rw [hopcode] at hdispatch
  obtain ⟨w, hcommand, hpoint3, hcalls3, honly, -⟩ := setBrightnessSetsTheBacklightAndAcks v hr2 hpoint2 hopcode
  have ⟨hparams3, hparser3, _, hphase3, _⟩ := honly
  have hyield := exec_iterYield (hr2.of_params_eq hparams3 (by simp [hpoint3])) hpoint3
  refine ⟨(w.call [.yield]).goToPoint .read, ?run, ?calls, honly.fifo_eq.trans hfifo2, ?parser,
    hphase3.trans hphase2, rfl⟩
  case run =>
    refine (execAll_cons_of_next hframe).trans
      ((execAll_append_of_next (y := [.iterDispatch, .iterYield]) hsteps).trans ?_)
    rw [execAll_cons_of_next (hdispatch.trans hcommand), execAll_cons_of_next hyield, execAll]
  case calls =>
    change w.calls ++ [.yield] = _
    rw [hcalls3, hcalls2, hcalls, hlevel, List.append_assoc]
    rfl
  case parser =>
    change ParserAt w .header 0 3
    rw [ParserAt, hparser3, hparser2]
    exact ⟨hst1, hcur1, hlen1⟩

end Sys2Proof.Machine
end

section
/-! PROOFS. Every iteration yields, and fair runs starve neither agent (43_consumer_dispatch, R186;
70_reset_and_hazards, R255; 93_implementation_defined, U18): each turn brings the consumer nearer to
step 5, and nothing else moves it. -/

namespace Sys2Proof.Machine

/-! ### Where a new iteration begins (R186) -/

/-- `ITER.VALIDATE` goes on to the read of the body, which is no new iteration. -/
theorem iteration_begins_by_yield {i : Instr} {s t : State} (h : exec i s = .next t)
    (hs : s.consumer.point ≠ .read) (ht : t.consumer.point = .read) :
    i = .iterYield ∨ i = .hreset ∨ (i = .iterValidate ∧ t.consumer.phase = .wantBody) := by
  cases exec_consumerEffect h with
  | rests hrests => exact absurd (hrests.1 ▸ ht) hs
  | acks hack =>
    rw [hack] at ht
    exact absurd ht hs
  | restarts => exact .inr (.inl rfl)
  | readsPrefix hpoint => exact absurd hpoint hs
  | validates _ hval =>
    rw [hval, validatePrefix] at ht ⊢
    split at ht
    · rw [if_pos ‹_›]
      exact .inr (.inr ⟨rfl, rfl⟩)
    · cases ht
  | readsBody hpoint => exact absurd hpoint hs
  | runsCommand _ hrun =>
    obtain ⟨-, hpoint | hpoint⟩ := runCommand_commandEnds hrun <;> simp [hpoint] at ht
  | yields => exact .inl rfl

/-! ### The way to step 5 (R182 to R186) -/

/-- How many turns at most the consumer takes before it is at step 5. -/
def Consumer.turnsToYield (c : Consumer) : Nat :=
  match c.point, c.phase with
  | .read, .wantPrefix => 4
  | .validate _, _ => 3
  | .read, .wantBody => 2
  | .dispatch, _ => 1
  | .yield, _ | .rebooting, _ => 0

theorem turnsToYield_readPrefix_le (s : State) : (readPrefix s).consumer.turnsToYield ≤ 3 := by
  cases h : frameHeadOf (getBlock 5 s).2.1 <;> simp only [readPrefix, h]
  · exact Nat.zero_le 3
  · exact Nat.le_refl 3

theorem turnsToYield_validatePrefix_le (head : FrameHead) (s : State) :
    (validatePrefix head s).consumer.turnsToYield ≤ 2 := by
  unfold validatePrefix
  split <;> simp [Consumer.turnsToYield]

theorem turnsToYield_readBody_le {s t : State} (h : readBody s = .next t) : t.consumer.turnsToYield ≤ 1 := by
  obtain rfl | ⟨-, rfl⟩ := readBody_cases h <;> simp [Consumer.turnsToYield]

theorem turnsToYield_of_commandEnds {s t : State} (h : CommandEnds s t) : t.consumer.turnsToYield = 0 := by
  obtain ⟨-, hpoint | hpoint⟩ := h <;> simp [Consumer.turnsToYield, hpoint]

/-- A turn at any other step than step 5 brings the consumer nearer to it. -/
theorem turnsToYield_lt {i : Instr} {s t : State} (hi : nextIter s.consumer = some i) (h : exec i s = .next t)
    (hy : s.consumer.point ≠ .yield) : t.consumer.turnsToYield < s.consumer.turnsToYield := by
  obtain ⟨rfl, hphase, hpoint⟩ | ⟨rfl, head, hpoint⟩ | ⟨rfl, hphase, hpoint⟩ | ⟨rfl, hpoint⟩ | ⟨-, hpoint⟩ :=
    (nextIter_eq_some_iff _ _).mp hi
  · obtain ⟨-, rfl⟩ := execIterPrefix_next h
    have hat : s.consumer.turnsToYield = 4 := by simp [Consumer.turnsToYield, hphase, hpoint]
    exact hat ▸ Nat.lt_succ_of_le (turnsToYield_readPrefix_le s)
  · obtain ⟨head, -, rfl⟩ := execIterValidate_next h
    have hat : s.consumer.turnsToYield = 3 := by simp [Consumer.turnsToYield, hpoint]
    exact hat ▸ Nat.lt_succ_of_le (turnsToYield_validatePrefix_le head s)
  · obtain ⟨-, -, hbody⟩ := iterEntry_next_iff.mp h
    have hat : s.consumer.turnsToYield = 2 := by simp [Consumer.turnsToYield, hphase, hpoint]
    exact hat ▸ Nat.lt_succ_of_le (turnsToYield_readBody_le hbody)
  · obtain ⟨-, -, hrun⟩ := iterEntry_next_iff.mp h
    have hat : s.consumer.turnsToYield = 1 := by simp [Consumer.turnsToYield, hpoint]
    rw [hat, turnsToYield_of_commandEnds (runCommand_commandEnds hrun)]
    exact Nat.zero_lt_one
  · exact absurd hpoint hy

/-! ### The moments of a run (R58, R59) -/

theorem exists_nextIter {c : Consumer} (h : c.point ≠ .rebooting) : ∃ i, nextIter c = some i := by
  unfold nextIter
  cases hp : c.point <;> cases c.phase <;> simp [hp] at h ⊢

/-- Under the invariant the consumer's next step answers (R181, R218). -/
theorem exists_exec_nextIter {s : State} {i : Instr} (hs : Inv s = true) (hr : s.consumer.point ≠ .rebooting)
    (hi : nextIter s.consumer = some i) : ∃ t, exec i s = .next t := by
  have hsides := (inv_iff_sides s).mp hs
  obtain ⟨k, hk, hexec⟩ := exec_iter_eq (mem_iterSteps_of_nextIter hi) s
  rw [whenRunning_of_running ⟨hsides.wellFormed, hr⟩, if_pos hi] at hexec
  cases k with
  | next t => exact ⟨t, hexec⟩
  | fault f => exact absurd hexec (hsides.exec_ne_fault i f)
  | refused r => exact absurd rfl (hk r)

theorem enabled_turn {s : State} (hs : Inv s = true) (hr : s.consumer.point ≠ .rebooting) (waiting : List Byte) :
    Act.turn.Enabled s waiting := by
  obtain ⟨i, hi⟩ := exists_nextIter hr
  obtain ⟨t, ht⟩ := exists_exec_nextIter (s := s.withPending []) hs hr hi
  exact ⟨t, waiting, rfl, (step_turn hi).trans ht⟩

/-- R165: the producer with a byte waiting is never held up. -/
theorem enabled_deliver {s : State} (hs : Inv s = true) (hr : s.consumer.point ≠ .rebooting) {waiting : List Byte}
    (hw : waiting ≠ []) : Act.deliver.Enabled s waiting := by
  have hsides := (inv_iff_sides (s.withPending [])).mp hs
  obtain ⟨b, left, rfl⟩ := List.exists_cons_of_ne_nil hw
  obtain ⟨t, ht, -⟩ := exists_rxByte_next ⟨hsides.wellFormed, hr⟩ hsides.parser.table b
  exact ⟨t, left, b, rfl, (step_deliver s b).trans ht⟩

theorem turnsToYield_lt_of_turn {s t : State} {waiting left : List Byte} (h : Act.turn.leads s waiting t left)
    (hr : s.consumer.point ≠ .rebooting) (hy : s.consumer.point ≠ .yield) :
    t.consumer.turnsToYield < s.consumer.turnsToYield := by
  obtain ⟨i, hi⟩ := exists_nextIter hr
  obtain ⟨-, hstep⟩ := h
  rw [step_turn hi] at hstep
  exact turnsToYield_lt (s := s.withPending []) hi hstep hy

/-- A port word that leads to a next state is an operation that its agent owns (R225). -/
theorem exec_of_step_port {s t : State} {a : Agent} {word : List Byte}
    (h : step (s.withPending [.port a word]) = .next t) : ∃ i more, decode s.decodeContext .port word = .ok (i, more) ∧
      portRefusal a i = none ∧ exec i (s.withPending []) = .next t := by
  rw [step, fetch_of_port (rest := []) rfl, State.withPending_withPending, fetchPort,
    State.withPending_decodeContext] at h
  cases hd : decode s.decodeContext .port word with
  | error e => simp [hd] at h
  | ok x =>
    obtain ⟨i, more⟩ := x
    cases ha : portRefusal a i with
    | some r => simp [hd, ha] at h
    | none => exact ⟨i, more, rfl, ha, by simpa [hd, ha] using h⟩

/-- Only the consumer's turn and the platform's `HRESET` move the consumer (R20, R63). -/
theorem consumer_eq_of_leads {a : Act} {s t : State} {waiting left : List Byte} (h : a.leads s waiting t left)
    (hturn : a ≠ .turn) (hplatform : ∀ word, a ≠ .ask .platform word) : t.consumer = s.consumer := by
  cases a with
  | idle =>
    obtain ⟨rfl, -⟩ := h
    rfl
  | turn => exact absurd rfl hturn
  | deliver =>
    obtain ⟨b, -, hstep⟩ := h
    rw [step_deliver] at hstep
    exact (rxByte_consumerKept hstep).1
  | ask agent word =>
    obtain ⟨-, hrx, hstep⟩ := h
    obtain ⟨i, more, hd, hown, hexec⟩ := exec_of_step_port hstep
    refine exec_port_consumer (s := s.withPending []) hd ?_ (fun b hb => hrx b more (hb ▸ hd)) hexec
    rintro rfl
    change (if agent = .platform then none else some Refusal.wrongAgent) = none at hown
    split at hown
    · exact hplatform word (by rw [‹agent = .platform›])
    · cases hown

/-- Whoever acts, if it is not the producer's delivery, the bytes that wait go on waiting. -/
theorem left_eq_of_leads {a : Act} {s t : State} {waiting left : List Byte} (h : a.leads s waiting t left)
    (hdeliver : a ≠ .deliver) : left = waiting := by
  cases a with
  | idle => exact h.2
  | deliver => exact absurd rfl hdeliver
  | turn => exact h.1
  | ask => exact h.1

/-! ### Fair runs (R255, U18) -/

/-- A number that never rises falls only finitely often. -/
theorem exists_forall_not_lt (f : Nat → Nat) {n : Nat} (h : ∀ m, n ≤ m → f (m + 1) ≤ f m) :
    ∃ m, n ≤ m ∧ ∀ k, m ≤ k → ¬ f (k + 1) < f k := by
  induction hv : f n using Nat.strong_induction_on generalizing n with
  | _ v ih =>
    by_cases hfalls : ∃ k, n ≤ k ∧ f (k + 1) < f k
    · obtain ⟨k, hk, hlt⟩ := hfalls
      have hle : f k ≤ f n := Nat.le_induction le_rfl (fun j hj hjn => (h j hj).trans hjn) k hk
      obtain ⟨m, hm, hrest⟩ := ih (f (k + 1)) (by omega) (fun m hm => h m (by omega)) rfl
      exact ⟨m, by omega, hrest⟩
    · exact ⟨n, le_rfl, fun k hk hlt => hfalls ⟨k, hk, hlt⟩⟩

section Fair
variable {state : Nat → State} {act : Nat → Act} {inbox : Nat → List Byte} {n : Nat}

/-- In a fair run the loop comes to step 5 and takes it, as long as no reset comes and no reboot is called. -/
theorem FairRun.yields (hfair : FairRun state act inbox) (hinv : ∀ m, Inv (state m) = true)
    (hplatform : ∀ m word, n ≤ m → act m ≠ .ask .platform word)
    (hrunning : ∀ m, n ≤ m → (state m).consumer.point ≠ .rebooting) :
    ∃ m, n ≤ m ∧ act m = .turn ∧ (state m).consumer.point = .yield := by
  obtain ⟨hrun, -, hturns⟩ := hfair
  by_contra hnever
  have hfalls : ∀ m, n ≤ m → act m = .turn →
      (state (m + 1)).consumer.turnsToYield < (state m).consumer.turnsToYield := by
    intro m hm hact
    obtain ⟨left, -, hleads, -⟩ := hrun m
    rw [hact] at hleads
    exact turnsToYield_lt_of_turn hleads (hrunning m hm) fun hy => hnever ⟨m, hm, hact, hy⟩
  have hstays : ∀ m, n ≤ m → (state (m + 1)).consumer.turnsToYield ≤ (state m).consumer.turnsToYield := by
    intro m hm
    by_cases hact : act m = .turn
    · exact (hfalls m hm hact).le
    · obtain ⟨left, -, hleads, -⟩ := hrun m
      rw [consumer_eq_of_leads hleads hact fun word => hplatform m word hm]
  obtain ⟨m, hm, hrest⟩ := exists_forall_not_lt (fun m => (state m).consumer.turnsToYield) hstays
  obtain ⟨k, hk, hact⟩ := hturns m fun j hj => enabled_turn (hinv j) (hrunning j (hm.trans hj)) (inbox j)
  exact hrest k hk (hfalls k (hm.trans hk) hact)

/-- In a fair run a byte that waits is delivered, as long as no reboot is called. -/
theorem FairRun.delivers (hfair : FairRun state act inbox) (hinv : ∀ m, Inv (state m) = true)
    (hrunning : ∀ m, n ≤ m → (state m).consumer.point ≠ .rebooting) (hwaits : inbox n ≠ []) :
    ∃ m, n ≤ m ∧ act m = .deliver := by
  obtain ⟨hrun, hdeliveries, -⟩ := hfair
  by_contra hnever
  have hkeeps : ∀ m, n ≤ m → inbox m ≠ [] := by
    intro m hm
    induction m, hm using Nat.le_induction with
    | base => exact hwaits
    | succ m hm ih =>
      obtain ⟨left, arrived, hleads, hinbox⟩ := hrun m
      rw [hinbox, left_eq_of_leads hleads fun hact => hnever ⟨m, hm, hact⟩]
      exact List.append_ne_nil_of_left_ne_nil ih arrived
  exact hnever (hdeliveries n fun m hm => enabled_deliver (hinv m) (hrunning m hm) (hkeeps m hm))

end Fair

/-- Settles O33: step 5 is one call and the way back to the start, only it (or a reset) leads there, and either the
reboot call is made at some moment, or fairness gives each agent its turns. -/
theorem everyIterationYields : Obligations.EveryIterationYields := by
  refine ⟨fun s hr hpoint => ?yield, fun i s t => iteration_begins_by_yield, fun state act inbox n hfair hinv => ?fair⟩
  case yield =>
    exact ⟨_, exec_iterYield hr hpoint, rfl, rfl, ⟨rfl, rfl, rfl, rfl, rfl, rfl, rfl, rfl, rfl, rfl⟩, rfl⟩
  case fair =>
    by_cases hreboot : ∃ m, n ≤ m ∧ (state m).consumer.point = .rebooting
    · obtain ⟨m, hm, hpoint⟩ := hreboot
      exact ⟨fun _ => ⟨m, hm, .inr hpoint⟩, fun _ => ⟨m, hm, .inr hpoint⟩⟩
    · have hrunning : ∀ m, n ≤ m → (state m).consumer.point ≠ .rebooting := fun m hm h => hreboot ⟨m, hm, h⟩
      refine ⟨fun hplatform => ?_, fun hwaits => ?_⟩
      · obtain ⟨m, hm, hyield⟩ := hfair.yields hinv hplatform hrunning
        exact ⟨m, hm, .inl hyield⟩
      · obtain ⟨m, hm, hdeliver⟩ := hfair.delivers hinv hrunning hwaits
        exact ⟨m, hm, .inl hdeliver⟩

end Sys2Proof.Machine
end

section
/-! PROOFS. Who may issue a port word (20_memory, R63; 60_exceptions, R225; 70_reset_and_hazards, R244, R245): the step
refuses what `portRefusal` refuses. -/

namespace Sys2Proof.Machine

theorem step_of_portRefusal {s : State} {a : Agent} {word more : List Byte} {rest : List Request} {i : Instr}
    {r : Refusal} (hpending : s.pending = .port a word :: rest)
    (hd : decode s.decodeContext .port word = .ok (i, more)) (hr : portRefusal a i = some r) :
    step s = .refused r := by
  rw [← State.withPending_decodeContext s rest] at hd
  simp only [step, fetch_of_port hpending, fetchPort, hd, hr]

/-- Settles O44: by the operation, and for each by the agents that do not own it. -/
theorem portsBelongToTheirAgents : Obligations.PortsBelongToTheirAgents := by
  intro s a word rest i more hpending hd
  refine ⟨?rx, ?consumers, ?hreset⟩
  case rx =>
    rintro ⟨b, rfl⟩ ha
    refine step_of_portRefusal hpending hd ?_
    cases a
    case producer => exact absurd rfl ha
    all_goals rfl
  case consumers =>
    rintro (⟨want, rfl | rfl⟩ | rfl) ha
    all_goals
      refine step_of_portRefusal hpending hd ?_
      cases a
      case consumer => exact absurd rfl ha
      all_goals rfl
  case hreset =>
    rintro rfl ha
    exact step_of_portRefusal hpending hd (if_neg ha)

end Sys2Proof.Machine
end

section
/-! PROOFS. The ghost trace (60_exceptions, R220): every operation commutes with putting earlier labels before the trace,
so what a transaction does and the labels it appends are those of the same state with an empty trace. -/

namespace Sys2Proof.Machine

/-- `s`, with `earlier` recorded before everything in its ghost trace. -/
def State.withEarlier (s : State) (earlier : List Event) : State := s.withTrace (earlier ++ s.trace)

/-- The same of a transaction's outcome: a fault or a refusal records nothing. -/
def Outcome.withEarlier (earlier : List Event) : Outcome → Outcome
  | .next t => .next (t.withEarlier earlier)
  | .fault f => .fault f
  | .refused r => .refused r

/-! ### What is read, and what is updated -/

section Fields
variable (s : State) (earlier : List Event)

@[simp] theorem State.withEarlier_params : (s.withEarlier earlier).params = s.params := rfl
@[simp] theorem State.withEarlier_parser : (s.withEarlier earlier).parser = s.parser := rfl
@[simp] theorem State.withEarlier_queue : (s.withEarlier earlier).queue = s.queue := rfl
@[simp] theorem State.withEarlier_consumer : (s.withEarlier earlier).consumer = s.consumer := rfl
@[simp] theorem State.withEarlier_draws : (s.withEarlier earlier).draws = s.draws := rfl

@[simp] theorem State.withEarlier_bufRange (n : Nat) : (s.withEarlier earlier).bufRange n = s.bufRange n := rfl
@[simp] theorem State.withEarlier_frameCrc : (s.withEarlier earlier).frameCrc = s.frameCrc := rfl
@[simp] theorem State.withEarlier_imageStream : (s.withEarlier earlier).imageStream = s.imageStream := rfl

@[simp] theorem State.withEarlier_storeByte (b : Byte) :
    (s.withEarlier earlier).storeByte b = (s.storeByte b).withEarlier earlier := rfl
@[simp] theorem State.withEarlier_parserReset :
    (s.withEarlier earlier).parserReset = s.parserReset.withEarlier earlier := rfl
@[simp] theorem State.withEarlier_emptyQueue :
    (s.withEarlier earlier).emptyQueue = s.emptyQueue.withEarlier earlier := rfl
@[simp] theorem State.withEarlier_append (bytes : List Byte) :
    (s.withEarlier earlier).append bytes = (s.append bytes).withEarlier earlier := rfl

/-- A new label goes behind the earlier ones and behind those already there. -/
@[simp] theorem State.withEarlier_emit (e : Event) :
    (s.withEarlier earlier).emit e = (s.emit e).withEarlier earlier := by
  simp only [State.withEarlier, State.withTrace, State.emit, List.append_assoc]

end Fields

/-! ### The queue (R160 to R164) -/

section Operations
variable (s : State) (earlier : List Event)

theorem putOverflowing_withEarlier (bytes : List Byte) : putOverflowing bytes (s.withEarlier earlier) =
    (putOverflowing bytes s).map id (State.withEarlier · earlier) := by
  simp only [putOverflowing, apply_ite (Prod.map id (State.withEarlier · earlier)), State.withEarlier_params,
    State.withEarlier_queue, State.withEarlier_emptyQueue, State.withEarlier_emit, State.withEarlier_append]
  rfl

theorem putBlock_withEarlier (bytes : List Byte) :
    putBlock bytes (s.withEarlier earlier) = (putBlock bytes s).map id (State.withEarlier · earlier) := by
  simp only [putBlock, apply_ite (Prod.map id (State.withEarlier · earlier)), putOverflowing_withEarlier]
  rfl

theorem getBlock_withEarlier (want : Word) : getBlock want (s.withEarlier earlier) =
    (getBlock want s).map id (Prod.map id (State.withEarlier · earlier)) := by
  simp only [getBlock, apply_ite (Prod.map id (Prod.map id (State.withEarlier · earlier)))]
  rfl

theorem resetQueue_withEarlier : resetQueue (s.withEarlier earlier) = (resetQueue s).withEarlier earlier :=
  State.withEarlier_emit s.emptyQueue earlier .fifoReset

/-! ### The parser's rows (R131 to R142) -/

@[simp] theorem rowHdrSof_withEarlier : rowHdrSof (s.withEarlier earlier) = (rowHdrSof s).withEarlier earlier := rfl

@[simp] theorem rowHdrNoise_withEarlier (b : Byte) :
    rowHdrNoise b (s.withEarlier earlier) = (rowHdrNoise b s).withEarlier earlier :=
  State.withEarlier_emit s.parserReset earlier (.badSentinel b)

@[simp] theorem rowLen0_withEarlier (b : Byte) :
    rowLen0 b (s.withEarlier earlier) = (rowLen0 b s).withEarlier earlier := by
  rw [rowLen0_eq, rowLen0_eq]
  rfl

@[simp] theorem rowLen1_withEarlier (b : Byte) :
    rowLen1 b (s.withEarlier earlier) = (rowLen1 b s).withEarlier earlier := rfl

@[simp] theorem rowLen2_withEarlier (b : Byte) :
    rowLen2 b (s.withEarlier earlier) = (rowLen2 b s).withEarlier earlier := rfl

@[simp] theorem rowLen3Ok_withEarlier (b : Byte) :
    rowLen3Ok b (s.withEarlier earlier) = (rowLen3Ok b s).withEarlier earlier := rfl

@[simp] theorem rowLen3Bad_withEarlier (b : Byte) :
    rowLen3Bad b (s.withEarlier earlier) = (rowLen3Bad b s).withEarlier earlier :=
  State.withEarlier_emit (s.setLen (lengthWith s.parser.len b)).parserReset earlier
    (.lenRange (lengthWith s.parser.len b))

@[simp] theorem rowCmd_withEarlier : rowCmd (s.withEarlier earlier) = (rowCmd s).withEarlier earlier := rfl

@[simp] theorem rowDataMore_withEarlier :
    rowDataMore (s.withEarlier earlier) = (rowDataMore s).withEarlier earlier := rfl

@[simp] theorem rowDataLast_withEarlier :
    rowDataLast (s.withEarlier earlier) = (rowDataLast s).withEarlier earlier := rfl

@[simp] theorem rowCrcOk_withEarlier : rowCrcOk (s.withEarlier earlier) = (rowCrcOk s).withEarlier earlier := by
  simp [rowCrcOk, putBlock_withEarlier]

@[simp] theorem rowCrcBad_withEarlier (b : Byte) :
    rowCrcBad b (s.withEarlier earlier) = (rowCrcBad b s).withEarlier earlier := by
  simp [rowCrcBad]

@[simp] theorem rxRow_withEarlier (b : Byte) :
    rxRow b (s.withEarlier earlier) = (rxRow b s).withEarlier earlier := by
  cases hst : s.parser.st
  case data =>
    simp only [rxRow, State.withEarlier_parser, hst, apply_ite (State.withEarlier · earlier)]
    rfl
  all_goals simp [rxRow, hst, apply_ite (State.withEarlier · earlier)]

/-! ### The guards -/

section Guards
variable {s earlier} {k k' : Outcome}

theorem whenRunning_withEarlier (hk : k' = k.withEarlier earlier) :
    whenRunning (s.withEarlier earlier) k' = (whenRunning s k).withEarlier earlier := by
  simp only [whenRunning, hk, apply_ite (Outcome.withEarlier earlier)]
  rfl

theorem iterEntry_withEarlier {here : Prop} [Decidable here] (hk : k' = k.withEarlier earlier) :
    iterEntry (s.withEarlier earlier) here k' = (iterEntry s here k).withEarlier earlier :=
  whenRunning_withEarlier (by
    rw [hk, apply_ite (Outcome.withEarlier earlier)]
    rfl)

theorem commandEntry_withEarlier {selected : Bool} (hk : k' = k.withEarlier earlier) :
    commandEntry (s.withEarlier earlier) selected k' = (commandEntry s selected k).withEarlier earlier :=
  iterEntry_withEarlier hk

theorem rxEntry_withEarlier {b : Byte} {selected : Bool} {row : State → State}
    (hrow : ∀ t : State, row (t.withEarlier earlier) = (row t).withEarlier earlier) :
    rxEntry b (s.withEarlier earlier) selected row = (rxEntry b s selected row).withEarlier earlier :=
  whenRunning_withEarlier (by
    simp only [apply_ite (Outcome.withEarlier earlier), State.withEarlier_storeByte, hrow]
    rfl)

end Guards

theorem rxByte_withEarlier (b : Byte) : rxByte b (s.withEarlier earlier) = (rxByte b s).withEarlier earlier :=
  rxEntry_withEarlier (rxRow_withEarlier · earlier b)

theorem rxAll_withEarlier (bytes : List Byte) :
    rxAll bytes (s.withEarlier earlier) = (rxAll bytes s).withEarlier earlier := by
  induction bytes generalizing s with
  | nil => rfl
  | cons b rest ih =>
    simp only [rxAll, rxByte_withEarlier]
    cases rxByte b s
    case next t => exact ih t
    all_goals rfl

/-! ### The commands and the consumer's steps (R182 to R192) -/

theorem doClearScreen_withEarlier :
    doClearScreen (s.withEarlier earlier) = (doClearScreen s).withEarlier earlier := by
  rw [doClearScreen, doClearScreen, apply_ite (State.withEarlier · earlier)]
  rfl

theorem doRebootToFel_withEarlier :
    doRebootToFel (s.withEarlier earlier) = (doRebootToFel s).withEarlier earlier := by
  rw [doRebootToFel, doRebootToFel, apply_ite (State.withEarlier · earlier)]
  rfl

theorem blitEntry_withEarlier (decode : Call) (result : Option Surface) :
    blitEntry decode result (s.withEarlier earlier) = (blitEntry decode result s).withEarlier earlier := by
  rw [blitEntry, blitEntry, apply_ite (Outcome.withEarlier earlier)]
  cases result <;> rfl

theorem runCommand_withEarlier (op : Byte) :
    runCommand op (s.withEarlier earlier) = (runCommand op s).withEarlier earlier := by
  simp only [runCommand, apply_ite (Outcome.withEarlier earlier), State.withEarlier_imageStream,
    State.withEarlier_draws, blitEntry_withEarlier, doClearScreen_withEarlier, doRebootToFel_withEarlier]
  rfl

theorem readPrefix_withEarlier : readPrefix (s.withEarlier earlier) = (readPrefix s).withEarlier earlier := by
  simp only [readPrefix, getBlock_withEarlier, Prod.map, id]
  cases frameHeadOf (getBlock 5 s).2.1 <;> rfl

theorem validatePrefix_withEarlier (head : FrameHead) :
    validatePrefix head (s.withEarlier earlier) = (validatePrefix head s).withEarlier earlier := by
  rw [validatePrefix, validatePrefix, apply_ite (State.withEarlier · earlier), resetQueue_withEarlier]
  rfl

theorem readBody_withEarlier : readBody (s.withEarlier earlier) = (readBody s).withEarlier earlier := by
  simp only [readBody, State.withEarlier_consumer, getBlock_withEarlier, Prod.map, id,
    apply_ite (Outcome.withEarlier earlier)]
  rfl

theorem execIterValidate_withEarlier :
    execIterValidate (s.withEarlier earlier) = (execIterValidate s).withEarlier earlier := by
  cases hpoint : s.consumer.point
  case validate head =>
    simp only [execIterValidate, State.withEarlier_consumer, hpoint]
    exact whenRunning_withEarlier (congrArg Host.Outcome.next (validatePrefix_withEarlier s earlier head))
  all_goals
    simp only [execIterValidate, State.withEarlier_consumer, hpoint]
    exact whenRunning_withEarlier rfl

/-! ### Every instruction (R220) -/

theorem execHreset_withEarlier : execHreset (s.withEarlier earlier) = (execHreset s).withEarlier earlier := by
  rw [execHreset, execHreset, apply_ite (Outcome.withEarlier earlier)]
  rfl

/-- What an instruction does to a state with earlier labels, it does to the state without them. -/
theorem exec_withEarlier (i : Instr) :
    exec i (s.withEarlier earlier) = Outcome.withEarlier earlier (exec i s) := by
  cases i
  case nop | reserved110 | crcStep | crcTabgen | crcSum | ack => exact whenRunning_withEarlier rfl
  case hreset => exact execHreset_withEarlier s earlier
  case get want =>
    refine whenRunning_withEarlier (congrArg Host.Outcome.next ?_)
    rw [getBlock_withEarlier]
    rfl
  case put bytes =>
    refine whenRunning_withEarlier (congrArg Host.Outcome.next ?_)
    rw [putBlock_withEarlier]
    rfl
  case getShort want =>
    refine whenRunning_withEarlier ?_
    rw [apply_ite (Outcome.withEarlier earlier)]
    rfl
  case putOverflow bytes =>
    refine whenRunning_withEarlier ?_
    rw [putOverflowing_withEarlier, apply_ite (Outcome.withEarlier earlier)]
    rfl
  case reset => exact whenRunning_withEarlier (congrArg Host.Outcome.next (resetQueue_withEarlier s earlier))
  case rx b => exact rxByte_withEarlier s earlier b
  case hdrSof | hdrNoise | len0 | len1 | len2 | len3Ok | len3Bad | cmd | dataMore | dataLast | crcOk | crcBad =>
    exact rxEntry_withEarlier fun _ => by simp
  case frame command payload => exact whenRunning_withEarlier (rxAll_withEarlier s earlier (frameBytes command payload))
  case setBrightness | unknownCmd => exact commandEntry_withEarlier rfl
  case clearScreen =>
    exact commandEntry_withEarlier (congrArg Host.Outcome.next (doClearScreen_withEarlier s earlier))
  case rebootToFel =>
    exact commandEntry_withEarlier (congrArg Host.Outcome.next (doRebootToFel_withEarlier s earlier))
  case blitJpg | blitPng => exact commandEntry_withEarlier (blitEntry_withEarlier s earlier _ _)
  case iterPrefix => exact iterEntry_withEarlier (congrArg Host.Outcome.next (readPrefix_withEarlier s earlier))
  case iterValidate => exact execIterValidate_withEarlier s earlier
  case iterBody => exact iterEntry_withEarlier (readBody_withEarlier s earlier)
  case iterDispatch => exact iterEntry_withEarlier (runCommand_withEarlier s earlier s.opcode)
  case iterYield => exact iterEntry_withEarlier rfl

end Operations

/-- A state with any trace is the state with the empty one, and its labels put before. -/
theorem State.withTrace_eq_withEarlier (s : State) (tr : List Event) :
    s.withTrace tr = (s.withTrace []).withEarlier tr := by
  simp only [State.withEarlier, State.withTrace, List.append_nil]

/-- Settles O52: both runs are the run from the empty trace, whose labels are the `es`, put behind their own trace. -/
theorem nothingReadsTheGhostTrace : Obligations.NothingReadsTheGhostTrace := by
  intro i s tr
  have hold : exec i s = Outcome.withEarlier s.trace (exec i (s.withTrace [])) := by
    rw [← exec_withEarlier, ← State.withTrace_eq_withEarlier]
    rfl
  rw [hold, State.withTrace_eq_withEarlier s tr, exec_withEarlier]
  cases exec i (s.withTrace [])
  case next t => exact ⟨t.trace, rfl, rfl⟩
  all_goals rfl

end Sys2Proof.Machine
end

section
/-! PROOFS. `HRESET` (70_reset_and_hazards, R240; 10_state, R35): well-formed parameters are all that it asks for. -/

namespace Sys2Proof.Machine

theorem execHreset_of_wellFormed {s : State} (hp : paramsWellFormed s.params = true) :
    execHreset s = .next (hardwareReset s) := if_pos hp

/-- The parser, `len`, the queue and the place in the loop are R35's. -/
theorem hardwareReset_resetValues (s : State) :
    ParserAt (hardwareReset s) .header 0 0 ∧ (hardwareReset s).fifo = [] ∧ (hardwareReset s).queue.rd = 0 ∧
      (hardwareReset s).queue.cnt = 0 ∧ (hardwareReset s).consumer.phase = .wantPrefix ∧
      (hardwareReset s).consumer.point = .read :=
  ⟨⟨rfl, rfl, rfl⟩, rfl, rfl, rfl, rfl, rfl⟩

/-- The three memories start with no byte written. -/
theorem hardwareReset_unwritten (s : State) (a : Nat) :
    (hardwareReset s).parser.buf.read a = none ∧ (hardwareReset s).queue.q.read a = none ∧
      (hardwareReset s).consumer.scratch.read a = none :=
  ⟨rfl, rfl, rfl⟩

/-- Settles O27: under well-formed parameters `HRESET` is `hardwareReset`, which writes the parser, the queue and the
consumer and advances the epoch; the other fields are those of `s`. -/
theorem hresetReturnsToTheResetValues : Obligations.HresetReturnsToTheResetValues := by
  intro s hp
  obtain ⟨hparser, hfifo, hrd, hcnt, hphase, hpoint⟩ := hardwareReset_resetValues s
  exact ⟨hardwareReset s, execHreset_of_wellFormed hp, hparser, hfifo, hrd, hcnt, hphase, hpoint,
    hardwareReset_unwritten s, rfl, rfl, rfl, rfl, rfl, rfl, rfl⟩

end Sys2Proof.Machine
end
